-- ==== Sys2Proof/Word.lean ====
section
/-! DEFINITION. The word types of the Huffman codec core (00_scope.md R6, R7, R8, R10). -/

namespace Sys2Proof

/-- A Symbol, and one cell of `IN` or `OUT`: 8 bits (R6 `SYM_W`). -/
abbrev Byte := BitVec 8

/-- A register of the register window: one 32-bit word (10_state.md R37). -/
abbrev Word := BitVec 32

/-- The number a script line `SETLIM` gives: two words of the register window (10_state.md R32, 30_encoding.md R93). -/
abbrev DWord := BitVec 64

/-- A bit sequence: index 0 is the first bit produced and the first consumed (R8). -/
abbrev BitSeq := List Bool

end Sys2Proof
end

