-- ==== Sys2Proof/Machine/Bits.lean ====
section
/-! DEFINITION. Bit sequences, byte order and bit order (00_scope.md R7, R8; 20_memory.md R61, R62). -/

namespace Sys2Proof.Machine

/-- "padded byte count covering that many bits" (R7); a natural number, so `n + 7` cannot wrap. -/
def ceil8 (n : Nat) : Nat := (n + 7) / 8

/-- `val(s) = Σ s[i] · 2^(|s|−1−i)` (R8). -/
def val : BitSeq → Nat
  | [] => 0
  | b :: s => b.toNat * 2 ^ s.length + val s

/-- `bin8(v)[i] = v[7−i]` (R8). -/
def bin8 (v : Byte) : BitSeq :=
  [v.getLsbD 7, v.getLsbD 6, v.getLsbD 5, v.getLsbD 4, v.getLsbD 3, v.getLsbD 2, v.getLsbD 1, v.getLsbD 0]

/-- `s` left-justified in `n` bits: zeros appended (R165 "left-justify and zero-pad"). -/
def padTo (n : Nat) (s : BitSeq) : BitSeq := s ++ List.replicate (n - s.length) false

/-- The byte whose bits are `s` left-justified, most significant first (R62, R165). -/
def byteOfBits (s : BitSeq) : Byte := BitVec.ofNat 8 (val (padTo 8 s))

/-- The 32-bit word whose bits are `s` left-justified, most significant first (10_state.md R29, R30). -/
def wordOfBits (s : BitSeq) : Word := BitVec.ofNat 32 (val (padTo 32 s))

/-- Word `w` of the window image of a bit sequence: bit `j` of the sequence is bit `31 − (j mod 32)` of word
`j div 32`, and bits beyond its end read 0 (10_state.md R29, R30). -/
def windowWord (s : BitSeq) (w : Nat) : Word := wordOfBits ((s.drop (32 * w)).take 32)

/-- `be32(n)`: the four bytes of a 32-bit value, most significant first (R8, R61). -/
def be32 (n : Word) : List Byte :=
  [n.extractLsb' 24 8, n.extractLsb' 16 8, n.extractLsb' 8 8, n.extractLsb' 0 8]

/-- `ube32(b0,b1,b2,b3) = b0·2^24 + b1·2^16 + b2·2^8 + b3` (R8). -/
def ube32 (b0 b1 b2 b3 : Byte) : Nat :=
  b0.toNat * 2 ^ 24 + b1.toNat * 2 ^ 16 + b2.toNat * 2 ^ 8 + b3.toNat

/-- The value of a register of `w` bits that is given `n`: its low `w` bits (R7). -/
def lowBits (w n : Nat) : Nat := n % 2 ^ w

/-- `f i, f (i+1), …`, `n` entries. -/
def listFrom {α : Type} (f : Nat → α) : Nat → Nat → List α
  | _, 0 => []
  | i, n + 1 => f i :: listFrom f (i + 1) n

theorem listFrom_length {α : Type} (f : Nat → α) (i n : Nat) : (listFrom f i n).length = n := by
  induction n generalizing i with
  | zero => rfl
  | succ n ih => simp [listFrom, ih]

/-- A table of `n` entries from its entry function. -/
def tabulate {α : Type} (n : Nat) (f : Nat → α) : Vector α n :=
  ⟨⟨listFrom f 0 n⟩, listFrom_length f 0 n⟩

end Sys2Proof.Machine
end

