-- ==== Sys2Proof/Config.lean ====
section
/-! DEFINITION. The implementation parameters of 00_scope.md R6, which the model takes as an argument, and the free
values of the behaviours 93_implementation_defined.md leaves open. -/

namespace Sys2Proof

/-- `CHILD_ORDER`: which popped node becomes the left child (R6, 42_tree_builder.md R122). -/
inductive ChildOrder where
  | firstPoppedLeft
  | secondPoppedLeft
  deriving DecidableEq, Repr

/-- The parameters of R6, each of them an argument; only `SYM_W` is none ("not configurable": `Byte`). No capacity has an
upper bound but those of R6 (notes/assumptions/1.md). -/
structure Params where
  /-- `LEN_W`: width of `IN_LEN`, `OUT_LEN`, `DATA_OFF` and byte indices. -/
  lenW : Nat
  /-- `IN_CAP`, bytes. -/
  inCap : Nat
  /-- `OUT_CAP`, bytes. -/
  outCap : Nat
  /-- `CNT_W`: width of a frequency counter and of a node weight. -/
  cntW : Nat
  /-- `TBITS_CAP`, bits. -/
  tbitsCap : Nat
  /-- `NODE_CAP`, records. -/
  nodeCap : Nat
  /-- `BITCNT_W`: width of `ENC_BITS` and `DATA_LIMIT`. -/
  bitcntW : Nat
  /-- `TIEBREAK`, as the ranks of the node indices: among equal weights the node of the smaller rank comes first, and
  among equal ranks (an index beyond the list has rank 0) the smaller index (notes/assumptions/13.md). -/
  tieBreak : List Nat
  /-- `CHILD_ORDER`. -/
  childOrder : ChildOrder
  /-- `DESER_WEIGHT`: weight given to deserialized nodes. -/
  deserWeight : Nat
  deriving DecidableEq, Repr

/-- The defaults of R6. No rank is given, so `TIEBREAK` is the ascending node index. -/
def Params.default : Params where
  lenW := 32
  inCap := 4294967295
  outCap := 4294967295
  cntW := 32
  tbitsCap := 2560
  nodeCap := 511
  bitcntW := 64
  tieBreak := []
  childOrder := .firstPoppedLeft
  deserWeight := 0

namespace Config

/-- FREE VALUE. The byte a command reads from `IN` cell `i` while that cell holds no value, in the step
numbered `tick` (93_implementation_defined.md U9, "any value per cell"; notes/assumptions/2.md). -/
opaque freeInByte (tick i : Nat) : Byte

/-- FREE VALUE. The byte the host reads from `OUT[i]` outside the valid part, in the step numbered `tick`
(93_implementation_defined.md U10, U17; notes/assumptions/3.md). -/
opaque freeOutByte (tick i : Nat) : Byte

/-- FREE VALUE. The word the host reads at offset `off` of the register window where what the register holds, `held`, does
not fit the field 10_state.md R26, R29, R37 give it (notes/assumptions/22.md). Reads are idempotent (20_memory.md R68), so
nothing else decides it. -/
opaque freeWord (off : Nat) (held : List Nat) : Word

/-- FREE VALUE. The length field EMIT writes when `TBC` does not fit its 32 bits, in the step numbered `tick`
(46_codec_facade.md R181; notes/assumptions/22.md). -/
opaque freeLength (tick : Nat) : Word

/-- FREE VALUE. What `ENC_BITS` is given, kept in its `BITCNT_W` bits, when the length of the encoded bits does not fit
them, in the step numbered `tick` (10_state.md R31; notes/assumptions/22.md). -/
opaque freeBitCount (tick : Nat) : Nat

end Config

end Sys2Proof
end

