-- ==== Sys2Proof/Syntax.lean ====
section
/-! DEFINITION. The instructions of spec/opcode_table.json, and the host's bus transactions and script lines
(30_encoding.md R80 to R83, R86, R93). -/

namespace Sys2Proof

/-- One constructor per row of spec/opcode_table.json: the fourteen commands of R81, each with the operand
fields its word has (`lim` is bit 8 of the word, R83), and the two tokens of the serialized tree (R86). -/
inductive Instr where
  | nop
  | clear
  | count
  | build
  | gencode
  | serialize
  | pack
  | unpack
  | emit
  | parse
  | deserialize
  | decode (lim : Bool)
  | compress
  | decompress (lim : Bool)
  | treeTokenLeaf (symbol : Byte)
  | treeTokenInternal
  deriving DecidableEq, Repr

/-- How an instruction is written down: a command word (format CMDW, R80) or the bits of a tree token
(format TREE_TOKEN, R86), first bit first. -/
inductive Code where
  | cmdw (w : Word)
  | token (bits : BitSeq)
  deriving DecidableEq, Repr

/-- The size of a host access to the register window. Only `word` is inside the interface (20_memory.md R65). -/
inductive AccessSize where
  | byte
  | half
  | word
  deriving DecidableEq, Repr

/-- The words of the register window (10_state.md R37). -/
inductive Reg where
  | cmd
  | status
  | errcode
  | inLen
  | outLen
  | tbc
  | root
  | nodeCount
  | encBitsLo
  | encBitsHi
  | dataLimitLo
  | dataLimitHi
  | dataOff
  | symCount
  | freq (s : Byte)
  | codeLen (s : Byte)
  | codeBits (s : Byte) (w : Fin 8)
  /-- Word 0 (`second = false`) or word 1 (`second = true`) of record `i` (R26); R37 gives the window 511 records. -/
  | node (i : Fin 511) (second : Bool)
  | tbits (w : Fin 80)
  deriving DecidableEq, Repr

/-- One host action on the core (R93's `W IN`, `W REG`, `R REG`, `R OUT`), and reset (70_reset_and_hazards.md R240).
The host never writes `OUT` and never reads `IN` (10_state.md R22, 20_memory.md R60). -/
inductive Txn where
  | writeIn (i : Nat) (b : Byte)
  | writeReg (size : AccessSize) (off : Word) (v : Word)
  | readReg (size : AccessSize) (off : Word)
  | readOut (i : Nat)
  | reset
  deriving DecidableEq, Repr

/-- A register as a host script names it. R93 makes `RD` one transaction, but 95_test_vectors.md has lines that are two
reads. P1 writes `RD ENC_BITS` as its low word, then its high word. P2 writes `RD NODE[i]` as the two words of the record and
`RD CODE[s]` as the length, then word 0 of the bits. That `RD DATA_LIMIT` is two reads in the order of `ENC_BITS` is the
MODEL'S CHOICE, and so is it that `RD CODE[s]` reads no word of the bits after word 0 (notes/assumptions/20.md). -/
inductive ScriptReg where
  | one (r : Reg)
  | encBits
  | dataLimit
  | node (i : Fin 511)
  | code (s : Byte)
  deriving DecidableEq, Repr

/-- One line of a host script (R93). `EXPECT` is not an action and has no constructor. -/
inductive HostLine where
  | wrin (bytes : List Byte)
  | setLen (n : Word)
  | setLim (n : DWord)
  | command (i : Instr)
  | rd (r : ScriptReg)
  | rdOut
  deriving DecidableEq, Repr

end Sys2Proof
end

