-- ==== Sys2Proof/Machine/State.lean ====
section
/-! DEFINITION. The state of one core (10_state.md R20, R39), the host's side of the bus, why a step stops, and the
state after reset (R42, 70_reset_and_hazards.md R240). -/

namespace Sys2Proof.Machine

/-- `IN` or `OUT`: the cells that hold a byte, indices strictly rising. An unlisted cell holds no value
(10_state.md R21; for `OUT`, R42 "unspecified and unreadable"). -/
abbrev Memory := List Host.Cell

/-- A record of the node memory (R24). A weight has `CNT_W` bits and an index ceil(log2(`NODE_CAP`)), widths the parameters
give, so both are numbers. The all-zero record of R25 is `internal 0 0 0`, since `kind` = 0 is Internal. -/
inductive Node where
  | leaf (weight : Nat) (symbol : Byte)
  | internal (weight left right : Nat)
  deriving DecidableEq, Repr

/-- The all-zero record (R25, R42). -/
def Node.zero : Node := .internal 0 0 0

/-- An entry of the code table: `len` and the code's bits (R28). `len` = 0 means the symbol has no code. -/
structure CodeEntry where
  len : Nat
  bits : BitSeq
  deriving DecidableEq, Repr

/-- The entry of a symbol with no code (R28). -/
def CodeEntry.absent : CodeEntry := ⟨0, []⟩

/-- The bits of `STATUS` (R35). The reserved bits 3:2 and 31:10 read 0 and are not stored (notes/assumptions/7.md). -/
structure Status where
  done : Bool
  err : Bool
  freqValid : Bool
  treeValid : Bool
  codeValid : Bool
  tbitsValid : Bool
  parseValid : Bool
  outValid : Bool
  deriving DecidableEq, Repr

/-- The error kinds (60_exceptions.md R210). -/
inductive ErrKind where
  | malformedContainer
  | emptyAlphabetPrecondition
  | illegalCommand
  | sequence
  | capacity
  | missingCode
  deriving DecidableEq, Repr

/-- A place in the tree under construction that the next node read will fill: the root, or a child of a record. -/
inductive Slot where
  | root
  | left (parent : Nat)
  | right (parent : Nat)
  deriving DecidableEq, Repr

/-- The transient state of a deserialization in progress (10_state.md R39 (b), (d); 45_bit_packer.md R167): the bits
not yet consumed, the place the next node fills, and the places after it (the traversal stack). -/
structure DeserCtx where
  bits : BitSeq
  slot : Slot
  rest : List Slot
  deriving DecidableEq, Repr

/-- One core, and the host's side of the bus. A register whose width is a parameter of R6, or follows one, is a number; the
widths are clauses of the invariant (`WidthsOk`; notes/assumptions/1.md, 22.md). -/
structure State where
  /-- The implementation parameters (00_scope.md R6): the argument the model takes. No step changes them
  (notes/assumptions/21.md). -/
  params : Params
  /-- `IN` (R21). -/
  inMem : Memory
  /-- `IN_LEN` (R21). -/
  inLen : Nat
  /-- `OUT` (R22). -/
  outMem : Memory
  /-- `OUT_LEN` (R22). -/
  outLen : Nat
  /-- `FREQ[0..255]` (R23). -/
  freq : Vector Nat 256
  /-- `SYM_COUNT` (R23). -/
  symCount : BitVec 9
  /-- `NODE[0..NODE_CAP−1]` (R24). -/
  node : List Node
  /-- `NODE_COUNT` (R24), kept whole beyond its 10 bits too (notes/assumptions/22.md). -/
  nodeCount : Nat
  /-- `ROOT` (R24). -/
  root : Nat
  /-- `CODE[0..255]` (R28). -/
  code : Vector CodeEntry 256
  /-- `TBITS` (R30). -/
  tbits : BitSeq
  /-- `TBC` (R30), kept whole beyond its 32 bits too (notes/assumptions/22.md). -/
  tbc : Nat
  /-- `ENC_BITS` (R31). -/
  encBits : Nat
  /-- `DATA_LIMIT` (R32). -/
  dataLimit : Nat
  /-- `DATA_OFF` (R33). -/
  dataOff : Nat
  /-- `STATUS` (R35). -/
  status : Status
  /-- `ERRCODE` (R36): `none` is the value 0. -/
  errcode : Option ErrKind
  /-- `CMD` (R34): the word last written; a read gives 0 whatever it holds (notes/assumptions/6.md). -/
  cmd : Word
  /-- A deserialization in progress: `none` between commands (R39; notes/assumptions/8.md). -/
  deser : Option DeserCtx
  /-- The MODEL's own: the host's bus transactions still to come, first one first (notes/assumptions/5.md). -/
  script : List Txn
  /-- The MODEL's own: the values the host's reads returned, newest first (notes/assumptions/5.md). -/
  reads : List Word
  /-- The MODEL's own: names the free values of a step; the step advances it (notes/assumptions/2.md, 3.md,
  22.md). -/
  tick : Nat
  deriving DecidableEq, Repr

/-- Why the machine stops with a fault. -/
inductive Fault where
  /-- Raised by GENCODE, SERIALIZE, DECODE, COMPRESS and DECOMPRESS when the records reached from `ROOT` are not a tree,
  so that `tree_of(ROOT)` of R24 is not defined. Safe: R25 says it never is so while `TREE_VALID` = 1
  (notes/assumptions/9.md). -/
  | nodeTableNotATree
  /-- Raised by a host write to `IN[i]` with `i ≥ IN_CAP`, a cell that does not exist (20_memory.md R60 (b)). Safe
  (notes/assumptions/14.md). -/
  | inCellDoesNotExist
  deriving DecidableEq, Repr

/-- Why a step is refused. -/
inductive Refusal where
  /-- Raised by an arm of `exec` whose instruction has no meaning yet. Safe. -/
  | notModelled (mnemonic : String)
  /-- Raised by a host access to `REG` narrower than 32 bits: "outside the interface and has no defined result"
  (20_memory.md R65, U11: refuse). Safe (notes/assumptions/4.md). -/
  | regAccessNarrow
  /-- Raised by a host access to `REG` at an offset that is not a multiple of 4 (20_memory.md R65, U11: refuse). Safe
  (notes/assumptions/4.md). -/
  | regAccessMisaligned
  deriving DecidableEq, Repr

/-- `STATUS` = 0 (R42). -/
def Status.zero : Status := ⟨false, false, false, false, false, false, false, false⟩

/-- The state right after reset (R42) of a core with parameters `p`: every register and table 0, `IN` cells without
value, `OUT` unreadable, no deserialization in progress; the host has nothing to do. -/
def State.resetWith (p : Params) : State where
  params := p
  inMem := []
  inLen := 0
  outMem := []
  outLen := 0
  freq := tabulate 256 fun _ => 0
  symCount := 0
  node := List.replicate p.nodeCap Node.zero
  nodeCount := 0
  root := 0
  code := tabulate 256 fun _ => CodeEntry.absent
  tbits := []
  tbc := 0
  encBits := 0
  dataLimit := 0
  dataOff := 0
  status := Status.zero
  errcode := none
  cmd := 0
  deser := none
  script := []
  reads := []
  tick := 0

/-- The state right after reset of a core with the default parameters of R6. -/
def State.reset : State := State.resetWith Params.default

end Sys2Proof.Machine
end

