-- ==== Sys2Proof/Machine/Flags.lean ====
section
/-! DEFINITION. `STATUS` and `ERRCODE`: their images (10_state.md R35, R36), and the flag each command requires, sets
and clears (R40). -/

namespace Sys2Proof.Machine

/-- Bit `n` of a 32-bit word, set or clear. -/
def flagBit (n : Nat) (b : Bool) : Word := BitVec.ofNat 32 (b.toNat * 2 ^ n)

/-- What a read of `STATUS` gives (R35). -/
def Status.image (f : Status) : Word :=
  flagBit 0 f.done ||| flagBit 1 f.err ||| flagBit 4 f.freqValid ||| flagBit 5 f.treeValid |||
    flagBit 6 f.codeValid ||| flagBit 7 f.tbitsValid ||| flagBit 8 f.parseValid ||| flagBit 9 f.outValid

/-- The error codes (60_exceptions.md R210). -/
def ErrKind.number : ErrKind → Word
  | .malformedContainer => 1
  | .emptyAlphabetPrecondition => 2
  | .illegalCommand => 3
  | .sequence => 4
  | .capacity => 5
  | .missingCode => 6

/-- A call error clears the call state (R219); an interface error does not (R220). -/
def ErrKind.isCallError : ErrKind → Bool
  | .malformedContainer | .emptyAlphabetPrecondition | .capacity | .missingCode => true
  | .illegalCommand | .sequence => false

/-- What a read of `ERRCODE` gives (R36). -/
def errcodeImage : Option ErrKind → Word
  | none => 0
  | some e => e.number

/-- Every command clears `DONE` and `ERR` when it starts (R40, 40_control.md R100). -/
def Status.started (f : Status) : Status := { f with done := false, err := false }

/-- A command that ended without error (R100). -/
def Status.succeeded (f : Status) : Status := { f with done := true, err := false }

/-- A command that ended with an error (60_exceptions.md R219, R220). -/
def Status.failed (f : Status) : Status := { f with done := false, err := true }

/-- The six valid flags become 0 (40_control.md R102). -/
def Status.noneValid (f : Status) : Status :=
  { f with freqValid := false, treeValid := false, codeValid := false, tbitsValid := false,
           parseValid := false, outValid := false }

/-! ## R40, column "req" -/

def Status.reqNothing (_ : Status) : Bool := true
def Status.reqBuild (f : Status) : Bool := f.freqValid
def Status.reqGencode (f : Status) : Bool := f.treeValid
def Status.reqSerialize (f : Status) : Bool := f.treeValid
def Status.reqPack (f : Status) : Bool := f.tbitsValid
def Status.reqEmit (f : Status) : Bool := f.codeValid && f.tbitsValid
def Status.reqDeserialize (f : Status) : Bool := f.tbitsValid
def Status.reqDecode (f : Status) : Bool := f.treeValid && f.parseValid

/-! ## R40, columns "on success sets" and "on success clears" -/

def Status.afterCount (f : Status) : Status := { f with freqValid := true }
def Status.afterBuild (f : Status) : Status := { f with treeValid := true }
def Status.afterGencode (f : Status) : Status := { f with codeValid := true }
def Status.afterSerialize (f : Status) : Status := { f with tbitsValid := true }
def Status.afterPack (f : Status) : Status := { f with outValid := true }
def Status.afterUnpack (f : Status) : Status := { f with tbitsValid := true }
def Status.afterEmit (f : Status) : Status := { f with outValid := true }
def Status.afterParse (f : Status) : Status := { f with tbitsValid := true, parseValid := true }
def Status.afterDeserialize (f : Status) : Status := { f with treeValid := true }
def Status.afterDecode (f : Status) : Status := { f with outValid := true }

/-- COMPRESS: the row `IN_LEN = 0` (`empty`) and the row `IN_LEN > 0`. -/
def Status.afterCompress (empty : Bool) (f : Status) : Status :=
  if empty then
    { f with freqValid := true, treeValid := false, codeValid := false, tbitsValid := false,
             parseValid := false, outValid := true }
  else
    { f with freqValid := true, treeValid := true, codeValid := true, tbitsValid := true,
             parseValid := false, outValid := true }

/-- DECOMPRESS: the row `TBC = 0` (`noTree`) and the row `TBC > 0`. -/
def Status.afterDecompress (noTree : Bool) (f : Status) : Status :=
  { f with freqValid := false, treeValid := !noTree, codeValid := false, tbitsValid := true,
           parseValid := true, outValid := true }

end Sys2Proof.Machine
end

