-- ==== Sys2Proof/Machine/Ops.lean ====
section
/-! DEFINITION. The named operations over memory and registers, the frame every command runs in (40_control.md R100),
and ending with an error (60_exceptions.md R219, R220). -/

namespace Sys2Proof.Machine

/-! ## Registers of a parameter's width -/

/-- What a register of `LEN_W` bits keeps of a number (00_scope.md R6). -/
def lenWord (p : Params) (n : Nat) : Nat := lowBits p.lenW n

/-- What a register of `BITCNT_W` bits keeps of a number (00_scope.md R6). -/
def bitCount (p : Params) (n : Nat) : Nat := lowBits p.bitcntW n

/-- The value of `ENC_BITS` for `n` encoded bits (10_state.md R31): `n`, or a free value of `BITCNT_W` bits where `n` does
not fit them, which takes codes of more than 255 bits (notes/assumptions/22.md). -/
def encBitsValue (p : Params) (tick n : Nat) : Nat :=
  if n < 2 ^ p.bitcntW then n else bitCount p (Config.freeBitCount tick)

/-- The 32-bit length field EMIT writes for `TBC` = `n` (46_codec_facade.md R181): `n`, or a free value where `n` does not fit
it, which takes a `TBITS_CAP` of 2^32 or more (notes/assumptions/22.md). -/
def lengthWord (tick n : Nat) : Word := if n < 2 ^ 32 then BitVec.ofNat 32 n else Config.freeLength tick

/-! ## Memory -/

/-- The byte a cell holds, or no value (10_state.md R21). -/
def Memory.read : Memory → Nat → Option Byte
  | [], _ => none
  | (a, b) :: m, i => if a = i then some b else Memory.read m i

/-- `MemWrite(_, i, 1, v)` (00_scope.md R9): cell `i` holds `v`, every other cell is as before. -/
def Memory.write : Memory → Nat → Byte → Memory
  | [], i, v => [(i, v)]
  | (a, b) :: m, i, v =>
    if i < a then (i, v) :: (a, b) :: m
    else if i = a then (i, v) :: m
    else (a, b) :: Memory.write m i v

/-- Bytes 0, 1, 2, … of the list written to cells `i`, `i+1`, … in order, each once (20_memory.md R66). -/
def Memory.writeFrom (m : Memory) (i : Nat) : List Byte → Memory
  | [] => m
  | v :: vs => Memory.writeFrom (Memory.write m i v) (i + 1) vs

/-- The canonical form: indices strictly rising. An unlisted cell holds no value, so no listed byte can equal it. -/
def Memory.wf : Memory → Bool
  | [] => true
  | [_] => true
  | c :: d :: m => decide (c.1 < d.1) && Memory.wf (d :: m)

/-! ## Discarding the call state, and errors -/

/-- `clear_call_state()` (40_control.md R102). `IN`, `IN_LEN` and `DATA_LIMIT` are not touched, nor are the cells of
`OUT`, which `OUT_LEN` = 0 and `OUT_VALID` = 0 make unreadable. -/
def clearCallState (s : State) : State :=
  { s with
    outLen := 0
    freq := tabulate 256 fun _ => 0
    code := tabulate 256 fun _ => CodeEntry.absent
    symCount := 0
    node := List.replicate s.params.nodeCap Node.zero
    nodeCount := 0
    root := 0
    tbits := []
    tbc := 0
    encBits := 0
    dataOff := 0
    status := s.status.noneValid }

/-- `STATUS.DONE <- 0; STATUS.ERR <- 1; ERRCODE <- code`, the whole of an interface error (R220). -/
def interfaceError (e : ErrKind) (s : State) : State :=
  { s with status := s.status.failed, errcode := some e }

/-- A call error: the call state is discarded, then the error is recorded (R219). -/
def callError (e : ErrKind) (s : State) : State := interfaceError e (clearCallState s)

/-! ## The command frame -/

/-- How the Pseudocode of a command ends: with a new state, or at a `raise` (00_scope.md R9), or because an operand is
not defined. -/
inductive Body where
  | ok (s : State)
  | raise (e : ErrKind)
  | stuck (f : Fault)
  deriving DecidableEq, Repr

/-- One body after another: "`raise` ends the command ...; nothing after it executes" (R9). -/
def Body.andThen : Body → (State → Body) → Body
  | .ok s, k => k s
  | .raise e, _ => .raise e
  | .stuck f, _ => .stuck f

/-- `STATUS.DONE <- 0; STATUS.ERR <- 0; ERRCODE <- 0` (R100). -/
def beginCommand (s : State) : State := { s with status := s.status.started, errcode := none }

/-- The command frame of R100, from the Sequence check on. `ready` is the column "req" of R40, `flags` its success
columns (read in the state the body leaves). A `raise` discards whatever the body had computed: R219 writes or keeps
every field from the state before it (notes/assumptions/16.md). -/
def runCommand (ready : Status → Bool) (flags : State → Status → Status) (body : State → Body) (s : State) :
    Host.Outcome State Fault Refusal :=
  let s0 := beginCommand s
  if ready s0.status then
    match body s0 with
    | .ok s1 => .next { s1 with status := (flags s1 s1.status).succeeded }
    | .raise e => .next (callError e s0)
    | .stuck f => .fault f
  else .next (interfaceError .sequence s0)

/-- An illegal word written to `CMD`: the command is not started (R100, 60_exceptions.md R213). -/
def illegalCommand (s : State) : State := interfaceError .illegalCommand (beginCommand s)

/-! ## Writing whole results -/

/-- `for j in 0 .. |P|-1: MemWrite(OUT, j, 1, P[j])` and `OUT_LEN <- |P|`. -/
def putOut (bytes : List Byte) (s : State) : State :=
  { s with outMem := s.outMem.writeFrom 0 bytes, outLen := bytes.length }

/-- `TBITS <- bits; TBC <- |bits|`: the buffer starts from the empty sequence (10_state.md R30). -/
def putTbits (bits : BitSeq) (s : State) : State :=
  { s with tbits := bits, tbc := bits.length }

/-- The node memory holding `records` from index 0, every other record all-zero (10_state.md R25). -/
def nodeTable (p : Params) (records : List Node) : List Node :=
  listFrom (fun i => records.getD i Node.zero) 0 p.nodeCap

/-- A whole tree written: its records, their number, and the root's index. -/
def putTree (records : List Node) (root : Nat) (s : State) : State :=
  { s with node := nodeTable s.params records, nodeCount := records.length, root := root }

end Sys2Proof.Machine
end

