-- ==== Sys2Proof/Machine/Tree.lean ====
section
/-! DEFINITION. The abstract tree (00_scope.md R10) and the tree the node records stand for (10_state.md R24). -/

namespace Sys2Proof.Machine

/-- "either a Leaf (weight: non-negative integer, symbol: Symbol) or an Internal node (weight: non-negative integer,
left: Node, right: Node)" (R10). -/
inductive Tree where
  | leaf (weight : Nat) (symbol : Byte)
  | internal (weight : Nat) (left right : Tree)
  deriving DecidableEq, Repr

/-- The weight at the root of a tree. -/
def Tree.weight : Tree → Nat
  | .leaf w _ => w
  | .internal w _ _ => w

/-- The number of nodes. -/
def Tree.size : Tree → Nat
  | .leaf _ _ => 1
  | .internal _ l r => 1 + l.size + r.size

/-- The leaves, left to right, as (weight, symbol). -/
def Tree.leaves : Tree → List (Nat × Byte)
  | .leaf w s => [(w, s)]
  | .internal _ l r => l.leaves ++ r.leaves

/-- The symbols of the leaves, left to right. -/
def Tree.symbols (t : Tree) : List Byte := t.leaves.map Prod.snd

/-- The number of steps from the root to the deepest leaf. -/
def Tree.depth : Tree → Nat
  | .leaf _ _ => 0
  | .internal _ l r => 1 + max l.depth r.depth

/-- Every weight replaced by `DESER_WEIGHT` (44_tree_codec.md R156). -/
def Tree.zeroWeights (p : Params) : Tree → Tree
  | .leaf _ s => .leaf p.deserWeight s
  | .internal _ l r => .internal p.deserWeight (l.zeroWeights p) (r.zeroWeights p)

/-- `tree_of(i)` (R24). The recursion visits records; `fuel` bounds its depth, and a tree of n records is never deeper
than n. `none` where the records reached are not a tree. -/
def treeOf (node : List Node) : Nat → Nat → Option Tree
  | 0, _ => none
  | fuel + 1, i =>
    match node[i]? with
    | none => none
    | some (.leaf w s) => some (.leaf w s)
    | some (.internal w l r) =>
      match treeOf node fuel l with
      | none => none
      | some tl =>
        match treeOf node fuel r with
        | none => none
        | some tr => some (.internal w tl tr)

/-- The indices of the records `tree_of(i)` visits, in pre-order, with the same bound on its depth (R25). -/
def visited (node : List Node) : Nat → Nat → List Nat
  | 0, _ => []
  | fuel + 1, i =>
    match node[i]? with
    | none => []
    | some (.leaf _ _) => [i]
    | some (.internal _ l r) => i :: (visited node fuel l ++ visited node fuel r)

end Sys2Proof.Machine
end

