-- ==== Sys2Proof/Machine/Operands.lean ====
section
/-! DEFINITION. The operand forms of the commands: the input range, the tree, and the data section with its LIM bit. -/

namespace Sys2Proof.Machine

/-- `MemRead(IN, i, 1)` (00_scope.md R9). A cell without value gives a free byte, the same one throughout a command
(93_implementation_defined.md U9; notes/assumptions/2.md). -/
def inByte (s : State) (i : Nat) : Byte := (s.inMem.read i).getD (Config.freeInByte s.tick i)

/-- `IN[0 .. IN_LEN−1]` in index order (10_state.md R21). -/
def inputBytes (s : State) : List Byte := (List.range s.inLen).map (inByte s)

/-- A body that reads `IN`: `IN_LEN > IN_CAP` raises Capacity before anything else (60_exceptions.md R215 (a), R218). -/
def withInput (s : State) (k : List Byte → Body) : Body :=
  if s.inLen > s.params.inCap then .raise .capacity else k (inputBytes s)

/-- `TREE = tree_of(ROOT)` (10_state.md R24). -/
def treeOperand (s : State) : Option Tree := treeOf s.node s.nodeCount s.root

/-- A body that reads `TREE`. -/
def withTree (s : State) (k : Tree → Body) : Body :=
  match treeOperand s with
  | none => .stuck .nodeTableNotATree
  | some t => k t

/-- The first `DATA_LIMIT` bits when `LIM` = 1, all of them when `LIM` = 0 (30_encoding.md R83, 46_codec_facade.md
R185: a limit larger than the section does not bind). -/
def limited (limit : Option Nat) (bits : BitSeq) : BitSeq :=
  match limit with
  | none => bits
  | some n => bits.take n

/-- The limit operand of DECODE and DECOMPRESS: `DATA_LIMIT` is read only when `LIM` = 1 (10_state.md R32). -/
def limitOperand (lim : Bool) (s : State) : Option Nat := if lim then some s.dataLimit else none

end Sys2Proof.Machine
end

