-- ==== Sys2Proof/Machine/Control.lean ====
section
/-! DEFINITION. NOP and CLEAR (40_control.md R101, R102). -/

namespace Sys2Proof.Machine

/-- NOP: empty body (R101). -/
def execNop (s : State) : Host.Outcome State Fault Refusal :=
  runCommand Status.reqNothing (fun _ f => f) (fun s0 => .ok s0) s

/-- CLEAR: discard all call-scoped state (R102). -/
def execClear (s : State) : Host.Outcome State Fault Refusal :=
  runCommand Status.reqNothing (fun _ f => f.noneValid) (fun s0 => .ok (clearCallState s0)) s

end Sys2Proof.Machine
end

