-- ==== Sys2Proof/Machine/BitPacker.lean ====
section
/-! DEFINITION. BitPacker and BitUnpacker: `pack`, `unpack`, PACK and UNPACK (45_bit_packer.md R165 to R169). -/

namespace Sys2Proof.Machine

/-- `pack(s)`: "group bits into chunks of 8, left-justify and zero-pad the final chunk, convert each chunk to one byte
(MSB first)" (R165). -/
def pack : BitSeq → List Byte
  | [] => []
  | b0 :: b1 :: b2 :: b3 :: b4 :: b5 :: b6 :: b7 :: s => byteOfBits [b0, b1, b2, b3, b4, b5, b6, b7] :: pack s
  | s => [byteOfBits s]

/-- `unpack(B) = bin8(B[0]) ++ bin8(B[1]) ++ …` (R166). -/
def unpack (bytes : List Byte) : BitSeq := bytes.flatMap bin8

/-- The Pseudocode of PACK, with the Capacity check of R215 (d) (R168). -/
def bodyPack (s : State) : Body :=
  if ceil8 s.tbc > s.params.outCap then .raise .capacity else .ok (putOut (pack s.tbits) s)

/-- PACK: pack the tree-bit buffer into the output buffer (R168). -/
def execPack (s : State) : Host.Outcome State Fault Refusal :=
  runCommand Status.reqPack (fun _ f => f.afterPack) bodyPack s

/-- The Pseudocode of UNPACK (R169). -/
def bodyUnpack (s : State) : Body :=
  withInput s fun bytes =>
    if 8 * s.inLen > s.params.tbitsCap then .raise .capacity else .ok (putTbits (unpack bytes) s)

/-- UNPACK: unpack the input buffer into the tree-bit buffer (R169). -/
def execUnpack (s : State) : Host.Outcome State Fault Refusal :=
  runCommand Status.reqNothing (fun _ f => f.afterUnpack) bodyUnpack s

end Sys2Proof.Machine
end

