-- ==== Sys2Proof/Machine/CodeTable.lean ====
section
/-! DEFINITION. CodeTableBuilder: `codes` and GENCODE (43_code_table.md R135 to R138). -/

namespace Sys2Proof.Machine

/-- `paths(t, p)`: the leaves with the path to each, left subtree first (R135). -/
def paths : Tree → BitSeq → List (Byte × BitSeq)
  | .leaf _ s, p => [(s, p)]
  | .internal _ l r, p => paths l (p ++ [false]) ++ paths r (p ++ [true])

/-- The entry for `s` after setting `table[s'] <- p` for each pair in list order: the last one wins (R135, R137). -/
def lastEntry (s : Byte) : List (Byte × BitSeq) → Option BitSeq
  | [] => none
  | (s', p) :: rest =>
    match lastEntry s rest with
    | some q => some q
    | none => if s' = s then some p else none

/-- `codes(t)[s]` (R135), with the single-leaf special case (R136). -/
def codes (t : Tree) (s : Byte) : Option BitSeq :=
  match t with
  | .leaf _ s' => if s' = s then some [false] else none
  | .internal _ _ _ => lastEntry s (paths t [])

/-- The entry of the code table for a code or for its absence (10_state.md R28). -/
def codeEntry : Option BitSeq → CodeEntry
  | none => CodeEntry.absent
  | some p => ⟨p.length, p⟩

/-- The code table of a tree (R138). -/
def codeTable (t : Tree) : Vector CodeEntry 256 :=
  tabulate 256 fun s => codeEntry (codes t (BitVec.ofNat 8 s))

/-- The Pseudocode of GENCODE (R138). -/
def bodyGencode (s : State) : Body :=
  withTree s fun t => .ok { s with code := codeTable t }

/-- GENCODE: derive the code table from the tree (R138). -/
def execGencode (s : State) : Host.Outcome State Fault Refusal :=
  runCommand Status.reqGencode (fun _ f => f.afterGencode) bodyGencode s

end Sys2Proof.Machine
end

