-- ==== Sys2Proof/Machine/FrequencyCounter.lean ====
section
/-! DEFINITION. FrequencyCounter: `histogram` and COUNT (41_frequency_counter.md R110, R111). -/

namespace Sys2Proof.Machine

/-- `h[s] = #{ i | B[i] = s }` (R110). -/
def occurrences (bytes : List Byte) (s : Nat) : Nat := bytes.countP fun b => b.toNat == s

/-- `histogram(B)` as the table of counters (R110, 10_state.md R23). No count exceeds `IN_CAP`, so each fits `CNT_W` bits. -/
def histogram (bytes : List Byte) : Vector Nat 256 :=
  tabulate 256 fun s => occurrences bytes s

/-- `#{ s | FREQ[s] >= 1 }` (R111). -/
def symbolsUsed (freq : Vector Nat 256) : Nat := freq.toList.countP fun c => c != 0

/-- The Pseudocode of COUNT (R111). -/
def bodyCount (s : State) : Body :=
  withInput s fun bytes =>
    .ok { s with freq := histogram bytes, symCount := BitVec.ofNat 9 (symbolsUsed (histogram bytes)) }

/-- COUNT: count byte frequencies of the input (R111). -/
def execCount (s : State) : Host.Outcome State Fault Refusal :=
  runCommand Status.reqNothing (fun _ f => f.afterCount) bodyCount s

end Sys2Proof.Machine
end

