-- ==== Sys2Proof/Machine/TreeBuilder.lean ====
section
/-! DEFINITION. TreeBuilder: the min-heap reduction and BUILD (42_tree_builder.md R120 to R126). -/

namespace Sys2Proof.Machine

/-- An index in the heap with its key, `NODE[i].weight` (R121). -/
structure HeapEntry where
  weight : Nat
  index : Nat
  deriving DecidableEq, Repr

/-- `TIEBREAK`: among equal weights, node `i` comes out of the heap before node `j` (R121). -/
def tieBefore (p : Params) (i j : Nat) : Bool :=
  decide (p.tieBreak.getD i 0 < p.tieBreak.getD j 0) || (p.tieBreak.getD i 0 == p.tieBreak.getD j 0 && decide (i < j))

/-- `CHILD_ORDER`: the (left, right) children made of the first and the second node popped (R122). -/
def childrenOf (p : Params) (first second : Nat) : Nat × Nat :=
  match p.childOrder with
  | .firstPoppedLeft => (first, second)
  | .secondPoppedLeft => (second, first)

/-- The heap order: smaller weight first (unsigned, R128), and `TIEBREAK` among equal weights (R121). -/
def HeapEntry.before (p : Params) (a b : HeapEntry) : Bool :=
  decide (a.weight < b.weight) || (a.weight == b.weight && tieBefore p a.index b.index)

/-- `push(HEAP, e)`. The heap is kept as the list of its entries in the order `pop_min` yields them, which R121 makes
total; its array layout is not observable (10_state.md R27). -/
def heapPush (p : Params) (e : HeapEntry) : List HeapEntry → List HeapEntry
  | [] => [e]
  | x :: h => if e.before p x then e :: x :: h else x :: heapPush p e h

/-- The leaf records: the symbols with `FREQ[s] ≥ 1` in ascending order (R120). -/
def leafRecords (freq : Vector Nat 256) : List Node :=
  (List.range 256).filterMap fun s =>
    let c := freq.getD s 0
    if c == 0 then none else some (.leaf c (BitVec.ofNat 8 s))

/-- The weight of a record. -/
def Node.weight : Node → Nat
  | .leaf w _ => w
  | .internal w _ _ => w

/-- The records `recs` inserted in order, the first of them as index `i` (R120). -/
def pushRecords (p : Params) (h : List HeapEntry) (i : Nat) : List Node → List HeapEntry
  | [] => h
  | n :: ns => pushRecords p (heapPush p ⟨n.weight, i⟩ h) (i + 1) ns

/-- `while HEAP_SIZE > 1: merge step` (R122). Each step takes one entry from the heap, so the heap's size is fuel
enough (R123: exactly k − 1 merges). -/
def mergeLoop (p : Params) : Nat → List Node → List HeapEntry → List Node × List HeapEntry
  | fuel + 1, nodes, a :: b :: heap =>
    let w := a.weight + b.weight
    let children := childrenOf p a.index b.index
    mergeLoop p fuel (nodes ++ [.internal w children.1 children.2])
      (heapPush p ⟨w, nodes.length⟩ heap)
  | _, nodes, heap => (nodes, heap)

/-- Every record BUILD makes, in the order of their indices, and the index left in the heap (R123). -/
def buildRecords (p : Params) (freq : Vector Nat 256) : List Node × Nat :=
  let leaves := leafRecords freq
  let heap := pushRecords p [] 0 leaves
  let done := mergeLoop p heap.length leaves heap
  (done.1, match done.2 with
    | [] => 0
    | e :: _ => e.index)

/-- The Pseudocode of BUILD (R126). -/
def bodyBuild (s : State) : Body :=
  if (leafRecords s.freq).isEmpty then .raise .emptyAlphabetPrecondition
  else .ok (putTree (buildRecords s.params s.freq).1 (buildRecords s.params s.freq).2 s)

/-- BUILD: build the tree from the frequency table (R126). -/
def execBuild (s : State) : Host.Outcome State Fault Refusal :=
  runCommand Status.reqBuild (fun _ f => f.afterBuild) bodyBuild s

end Sys2Proof.Machine
end

