-- ==== Sys2Proof/WellFormed.lean ====
section
/-! DEFINITION. Which parameters R6 admits, and which host transactions and instructions are inside the interface
(00_scope.md R6; 20_memory.md R60, R65). -/

namespace Sys2Proof

/-- The column "constraint" of R6, row by row, and nothing else; `DESER_WEIGHT` is a weight, so it fits `CNT_W` bits. -/
def Params.wf (p : Params) : Bool :=
  decide (p.inCap ≤ 2 ^ p.lenW - 1) && decide (p.outCap ≤ 2 ^ p.lenW - 1) && decide (4 ≤ p.outCap) &&
    decide (p.inCap ≤ 2 ^ p.cntW - 1) && decide (2559 ≤ p.tbitsCap) &&
    decide (2 * ((p.tbitsCap + 1) / 10) - 1 ≤ p.nodeCap) && decide (255 * p.inCap ≤ 2 ^ p.bitcntW - 1) &&
    decide (p.deserWeight ≤ 2 ^ p.cntW - 1)

/-- Every term of `Instr` is an instruction of the table: the widths of its fields are in its type (a LIM bit, an
8-bit symbol; 30_encoding.md R87 "every 8-bit pattern is a legal symbol"), so nothing is left to check. -/
def Instr.wf : Instr → Bool
  | .nop | .clear | .count | .build | .gencode | .serialize | .pack | .unpack | .emit | .parse
  | .deserialize | .decode _ | .compress | .decompress _ | .treeTokenLeaf _ | .treeTokenInternal => true

/-- Whether an instruction is a command of R81 (the tree tokens are "not a command"). -/
def Instr.isCommand : Instr → Bool
  | .nop | .clear | .count | .build | .gencode | .serialize | .pack | .unpack | .emit | .parse
  | .deserialize | .decode _ | .compress | .decompress _ => true
  | .treeTokenLeaf _ | .treeTokenInternal => false

/-- A register access inside the interface: a 32-bit word at an offset that is a multiple of 4 (R65). -/
def regAccessWf (size : AccessSize) (off : Word) : Bool :=
  size == .word && off.toNat % 4 == 0

/-- A host transaction inside the interface: aligned words in `REG` (R65), an existing cell in `IN` (R60 (b)). -/
def Txn.wf (p : Params) : Txn → Bool
  | .writeIn i _ => decide (i < p.inCap)
  | .writeReg size off _ => regAccessWf size off
  | .readReg size off => regAccessWf size off
  | .readOut _ => true
  | .reset => true

/-- A script line a host can write: its command is a command; its input fits `IN`, and the input's length the 32-bit word
written to `IN_LEN` (R93). -/
def HostLine.wf (p : Params) : HostLine → Bool
  | .wrin bytes => decide (bytes.length ≤ p.inCap) && decide (bytes.length < 2 ^ 32)
  | .command i => i.isCommand
  | .setLen _ | .setLim _ | .rd _ | .rdOut => true

end Sys2Proof
end

