-- ==== Sys2Proof/Decode.lean ====
section
/-! DEFINITION. The decoder, total on every 32-bit command word (30_encoding.md R80 to R83) and on every bit sequence
read as tree tokens (R86, R87), and after it the encoder. -/

namespace Sys2Proof

/-- Why a word or a bit sequence is no instruction. All of these are rejected by name; none falls through. -/
inductive DecodeError where
  /-- `OP` is `0xE` or `0xF` (R82). -/
  | reservedOp
  /-- A bit of [7:4] or [31:9] is set (R82). -/
  | reservedBits
  /-- `LIM` = 1 with `OP` other than `0xB` and `0xD` (R82). -/
  | limNotAllowed
  /-- The bit sequence ends where a tag bit is expected (60_exceptions.md R211 (c)). -/
  | noTagBit
  /-- A tag '1' is followed by fewer than 8 bits (60_exceptions.md R211 (d)). -/
  | symbolCutShort
  /-- A bit sequence given as ONE token is longer than the token. -/
  | leftoverBits
  deriving DecidableEq, Repr

/-- Field `OP`, bits 3:0 (R80). -/
def opField (w : Word) : BitVec 4 := w.extractLsb' 0 4

/-- Reserved bits 7:4 (R80). -/
def reservedLow (w : Word) : BitVec 4 := w.extractLsb' 4 4

/-- Field `LIM`, bit 8 (R80). -/
def limField (w : Word) : Bool := w.getLsbD 8

/-- Reserved bits 31:9 (R80). -/
def reservedHigh (w : Word) : BitVec 23 := w.extractLsb' 9 23

/-- The command of an operation code and a LIM bit (R81, R82). -/
def decodeOp (op : Nat) (lim : Bool) : Except DecodeError Instr :=
  match op, lim with
  | 0x0, false => .ok .nop
  | 0x1, false => .ok .clear
  | 0x2, false => .ok .count
  | 0x3, false => .ok .build
  | 0x4, false => .ok .gencode
  | 0x5, false => .ok .serialize
  | 0x6, false => .ok .pack
  | 0x7, false => .ok .unpack
  | 0x8, false => .ok .emit
  | 0x9, false => .ok .parse
  | 0xA, false => .ok .deserialize
  | 0xB, l => .ok (.decode l)
  | 0xC, false => .ok .compress
  | 0xD, l => .ok (.decompress l)
  | n, _ => .error (if n < 0xE then .limNotAllowed else .reservedOp)

/-- The command a word written to `CMD` encodes (R80 to R82). -/
def decodeCmd (w : Word) : Except DecodeError Instr :=
  if reservedLow w ≠ 0 ∨ reservedHigh w ≠ 0 then .error .reservedBits
  else decodeOp (opField w).toNat (limField w)

/-- The first token of a bit sequence and the bits after it (R86, R87, R91 (a)). -/
def decodeToken : BitSeq → Except DecodeError (Instr × BitSeq)
  | [] => .error .noTagBit
  | false :: s => .ok (.treeTokenInternal, s)
  | true :: s =>
    if s.length < 8 then .error .symbolCutShort
    else .ok (.treeTokenLeaf (BitVec.ofNat 8 (Machine.val (s.take 8))), s.drop 8)

/-- The instruction a code stands for. -/
def decode : Code → Except DecodeError Instr
  | .cmdw w => decodeCmd w
  | .token bits =>
    match decodeToken bits with
    | .error e => .error e
    | .ok (i, []) => .ok i
    | .ok (_, _ :: _) => .error .leftoverBits

/-! ## The encoder -/

/-- A command word of format CMDW: `OP` in bits 3:0, `LIM` in bit 8, every other bit 0 (R80). -/
def cmdWord (op : BitVec 4) (lim : Bool) : Word :=
  (0 : BitVec 23) ++ BitVec.ofBool lim ++ (0 : BitVec 4) ++ op

/-- The code of an instruction (R81 for the commands, R86 for the tokens). -/
def encode : Instr → Code
  | .nop => .cmdw (cmdWord 0x0 false)
  | .clear => .cmdw (cmdWord 0x1 false)
  | .count => .cmdw (cmdWord 0x2 false)
  | .build => .cmdw (cmdWord 0x3 false)
  | .gencode => .cmdw (cmdWord 0x4 false)
  | .serialize => .cmdw (cmdWord 0x5 false)
  | .pack => .cmdw (cmdWord 0x6 false)
  | .unpack => .cmdw (cmdWord 0x7 false)
  | .emit => .cmdw (cmdWord 0x8 false)
  | .parse => .cmdw (cmdWord 0x9 false)
  | .deserialize => .cmdw (cmdWord 0xA false)
  | .decode lim => .cmdw (cmdWord 0xB lim)
  | .compress => .cmdw (cmdWord 0xC false)
  | .decompress lim => .cmdw (cmdWord 0xD lim)
  | .treeTokenLeaf s => .token (true :: Machine.bin8 s)
  | .treeTokenInternal => .token [false]

/-! ## The table's numbering -/

/-- The code whose bits the opcode table numbers `w` on `nbits` bits. A command is one 32-bit word. A tree token
is written in the table as its bits, first bit leftmost (`1ssssssss`, `0`); read as one number its LAST bit is bit
0 (notes/assumptions/19.md). A number with a bit beyond the code's width is no code. -/
def codeOfTable (nbits w : Nat) : Option Code :=
  if nbits ≤ 8 then
    if w < 2 then some (.token [w.testBit 0]) else none
  else if nbits ≤ 16 then
    if w < 512 then
      some (.token [w.testBit 8, w.testBit 7, w.testBit 6, w.testBit 5, w.testBit 4, w.testBit 3,
        w.testBit 2, w.testBit 1, w.testBit 0])
    else none
  else if w < 2 ^ 32 then some (.cmdw (BitVec.ofNat 32 w)) else none

/-- The instruction the decoder reads from the bits `w` of a row of spec/opcode_table.json. -/
def decodeTableWord (nbits w : Nat) : Option Instr :=
  match codeOfTable nbits w with
  | none => none
  | some c =>
    match decode c with
    | .ok i => some i
    | .error _ => none

end Sys2Proof
end

