-- ==== Sys2Proof/Machine/TreeCodec.lean ====
section
/-! DEFINITION. TreeCodec: `serialize`, `deserialize`, SERIALIZE and DESERIALIZE (44_tree_codec.md R145 to R155), and
what the deserializer does with one tree token (30_encoding.md R86, R150, R154). -/

namespace Sys2Proof.Machine

/-! ## Serialize -/

/-- `serialize(t)` (R145). -/
def serialize : Tree → BitSeq
  | .leaf _ s => true :: bin8 s
  | .internal _ l r => false :: (serialize l ++ serialize r)

/-- The Pseudocode of SERIALIZE (R146). -/
def bodySerialize (s : State) : Body :=
  withTree s fun t => .ok (putTbits (serialize t) s)

/-- SERIALIZE: serialize the tree into the tree-bit buffer (R146). -/
def execSerialize (s : State) : Host.Outcome State Fault Refusal :=
  runCommand Status.reqSerialize (fun _ f => f.afterSerialize) bodySerialize s

/-! ## Deserialize -/

/-- `deser(bits)`: a tree and the unread rest, or failure (R150). Every recursive call has consumed a bit, so the
number of bits is fuel enough. -/
def deser (p : Params) : Nat → BitSeq → Option (Tree × BitSeq)
  | 0, _ => none
  | fuel + 1, bits =>
    match bits with
    | [] => none
    | true :: s =>
      if s.length < 8 then none
      else some (.leaf p.deserWeight (BitVec.ofNat 8 (val (s.take 8))), s.drop 8)
    | false :: s =>
      match deser p fuel s with
      | none => none
      | some (l, s1) =>
        match deser p fuel s1 with
        | none => none
        | some (r, s2) => some (.internal p.deserWeight l r, s2)

/-- `deserialize(bits)`: bits left after the tree closes are dropped (R150, R152). -/
def deserialize (p : Params) (bits : BitSeq) : Option Tree :=
  match deser p bits.length bits with
  | none => none
  | some (t, _) => some t

/-- The records of a tree in pre-order, the root at index `i`: the left child of record i is i + 1, its right child
i + 1 + the size of the left subtree, every weight `DESER_WEIGHT` (R153, R154). -/
def preorderRecords (p : Params) : Tree → Nat → List Node
  | .leaf _ s, _ => [.leaf p.deserWeight s]
  | .internal _ l r, i =>
    .internal p.deserWeight (i + 1) (i + 1 + l.size) ::
      (preorderRecords p l (i + 1) ++ preorderRecords p r (i + 1 + l.size))

/-- The Pseudocode of DESERIALIZE (R155). -/
def bodyDeserialize (s : State) : Body :=
  match deserialize s.params s.tbits with
  | none => .raise .malformedContainer
  | some t => .ok (putTree (preorderRecords s.params t 0) 0 s)

/-- DESERIALIZE: rebuild the tree from the tree-bit buffer (R155). -/
def execDeserialize (s : State) : Host.Outcome State Fault Refusal :=
  runCommand Status.reqDeserialize (fun _ f => f.afterDeserialize) bodyDeserialize s

/-! ## One token at a time

The rows TREE_TOKEN.LEAF and TREE_TOKEN.INTERNAL of the opcode table are "not a command": they are consumed by a
DESERIALIZE in progress (notes/assumptions/8.md). -/

/-- The start of DESERIALIZE on `bits`: the frame, and `NODE`, `NODE_COUNT` and `ROOT` cleared (R100, R155). -/
def startDeserialize (bits : BitSeq) (s : State) : State :=
  { putTree [] 0 (beginCommand s) with deser := some ⟨bits, .root, []⟩ }

/-- Record `p` with child index `i` put in the place `slot` names, in the node memory and in `ROOT`. -/
def fillSlot (slot : Slot) (i : Nat) (s : State) : State :=
  match slot with
  | .root => { s with root := i }
  | .left p =>
    match s.node[p]? with
    | some (.internal w _ r) => { s with node := s.node.set p (.internal w i r) }
    | _ => s
  | .right p =>
    match s.node[p]? with
    | some (.internal w l _) => { s with node := s.node.set p (.internal w l i) }
    | _ => s

/-- DESERIALIZE ends with MalformedContainer (R151, R155, 60_exceptions.md R219). -/
def failDeserialize (s : State) : State := callError .malformedContainer { s with deser := none }

/-- DESERIALIZE ends with a whole tree (R155, 10_state.md R40). -/
def finishDeserialize (s : State) : State :=
  { s with status := s.status.afterDeserialize.succeeded, deser := none }

/-- One node read: it takes the next free index (R154), the place waiting for it now holds that index, and `below` are
the places it opens itself. With no place left the tree is closed. A record beyond `NODE_CAP` (the
512th, at the defaults) can never be part of a tree that closes within `TBITS_CAP` bits, so it ends the command as
MalformedContainer (R154). -/
def placeNode (record : Node) (below : List Slot) (c : DeserCtx) (s : State) : State :=
  if s.nodeCount < s.params.nodeCap then
    let i := s.nodeCount
    let s1 := fillSlot c.slot i s
    let s2 := { s1 with node := s1.node.set i record, nodeCount := i + 1 }
    match below ++ c.rest with
    | [] => finishDeserialize s2
    | slot :: rest => { s2 with deser := some ⟨c.bits, slot, rest⟩ }
  else failDeserialize s

/-- The deserialization a token belongs to: the one in progress, or a new one of which it is the first token.
MODEL'S CHOICE (notes/assumptions/8.md): the spec says nothing of a token outside a deserialization. Starting one here
clears what the frame and DESERIALIZE clear, but makes no Sequence check of `TBITS_VALID` (10_state.md R40), since the
token is not taken from `TBITS`; the last token sets `TREE_VALID` as DESERIALIZE does. -/
def currentDeser (s : State) : DeserCtx × State :=
  match s.deser with
  | some c => (c, s)
  | none => (⟨[], .root, []⟩, startDeserialize [] s)

/-- TREE_TOKEN.LEAF: "read the next 8 bits as the symbol and return a new Leaf" (R150), placed by R154. -/
def execTreeTokenLeaf (symbol : Byte) (s : State) : Host.Outcome State Fault Refusal :=
  let (c, s0) := currentDeser s
  .next (placeNode (.leaf s.params.deserWeight symbol) [] c s0)

/-- TREE_TOKEN.INTERNAL: "recursively deserialize left subtree then right subtree and return a new Internal node
joining them" (R150), placed by R154: its left place is filled next, its right place after the left subtree. -/
def execTreeTokenInternal (s : State) : Host.Outcome State Fault Refusal :=
  let (c, s0) := currentDeser s
  .next (placeNode (.internal s.params.deserWeight 0 0) [.left s0.nodeCount, .right s0.nodeCount] c s0)

end Sys2Proof.Machine
end

