-- ==== Sys2Proof/Machine/Facade.lean ====
section
/-! DEFINITION. The codec facade: EMIT, PARSE, DECODE, COMPRESS and DECOMPRESS (46_codec_facade.md R180 to R190). -/

namespace Sys2Proof.Machine

/-! ## Compress side -/

/-- `encode(T, B)` (R180): the codes of the bytes in input order, or no code for some byte (`none`). -/
def encodeBytes (code : Byte → Option BitSeq) : List Byte → Option BitSeq
  | [] => some []
  | b :: rest =>
    match code b with
    | none => none
    | some p =>
      match encodeBytes code rest with
      | none => none
      | some e => some (p ++ e)

/-- The code of a byte in the code table: `len` = 0 means it has none (10_state.md R28, 60_exceptions.md R216). -/
def codeOf (code : Vector CodeEntry 256) (b : Byte) : Option BitSeq :=
  match code[b.toNat]? with
  | none => none
  | some e => if e.len = 0 then none else some e.bits

/-- The container: `be32(TBC) ++ pack(TBITS) ++ pack(E)` (R181, 30_encoding.md R84). -/
def container (length : Word) (tbits enc : BitSeq) : List Byte := be32 length ++ pack tbits ++ pack enc

/-- The Pseudocode of EMIT (R181). -/
def bodyEmit (s : State) : Body :=
  withInput s fun bytes =>
    match encodeBytes (codeOf s.code) bytes with
    | none => .raise .missingCode
    | some enc =>
      if 4 + ceil8 s.tbc + ceil8 enc.length > s.params.outCap then .raise .capacity
      else
        .ok { putOut (container (lengthWord s.tick s.tbc) s.tbits enc) s with
          encBits := encBitsValue s.params s.tick enc.length }

/-- EMIT: encode the input and write the container (R181). -/
def execEmit (s : State) : Host.Outcome State Fault Refusal :=
  runCommand Status.reqEmit (fun _ f => f.afterEmit) bodyEmit s

/-- The empty-input special case of COMPRESS (R188). -/
def emptyContainer (s : State) : State :=
  { putTbits [] (putOut [0, 0, 0, 0] s) with encBits := 0 }

/-- The Pseudocode of COMPRESS (R187). -/
def bodyCompress (s : State) : Body :=
  (bodyCount (clearCallState s)).andThen fun s1 =>
    if s1.inLen = 0 then .ok (emptyContainer s1)
    else (bodyBuild s1).andThen fun s2 => (bodyGencode s2).andThen fun s3 => (bodySerialize s3).andThen bodyEmit

/-- COMPRESS: `compress(bytes) -> bytes` (R187). -/
def execCompress (s : State) : Host.Outcome State Fault Refusal :=
  runCommand Status.reqNothing (fun s1 f => f.afterCompress (s1.inLen == 0)) bodyCompress s

/-! ## Decompress side -/

/-- The length field of a container, `T` (R182). -/
def lengthField : List Byte → Nat
  | b0 :: b1 :: b2 :: b3 :: _ => ube32 b0 b1 b2 b3
  | _ => 0

/-- The Pseudocode of PARSE (R182). -/
def bodyParse (s : State) : Body :=
  withInput s fun bytes =>
    if s.inLen < 4 then .raise .malformedContainer
    else
      let t := lengthField bytes
      let n := ceil8 t
      if n > s.inLen - 4 then .raise .malformedContainer
      else if t > s.params.tbitsCap then .raise .capacity
      else
        .ok { s with
          tbits := (unpack ((bytes.drop 4).take n)).take t
          tbc := t
          dataOff := 4 + n }

/-- PARSE: read the length field and the tree section of a container (R182). -/
def execParse (s : State) : Host.Outcome State Fault Refusal :=
  runCommand Status.reqNothing (fun _ f => f.afterParse) bodyParse s

/-- The tree walk from the node `cur` of the tree `t` with an Internal root (R183). -/
def walkFrom (t : Tree) : Tree → BitSeq → List Byte
  | .internal _ l r, b :: bits =>
    match (if b then r else l) with
    | .leaf _ s => s :: walkFrom t t bits
    | .internal w l' r' => walkFrom t (.internal w l' r') bits
  | _, _ => []

/-- `walk(t, bits)`: the tree walk (R183), with its own equation for a single-leaf tree, where every bit is one symbol
(R184). -/
def walk (t : Tree) (bits : BitSeq) : List Byte :=
  match t with
  | .leaf _ s => List.replicate bits.length s
  | .internal w l r => walkFrom (.internal w l r) (.internal w l r) bits

/-- The walked bits of R185: the data section `IN[DATA_OFF .. IN_LEN−1]` unpacked, limited when `LIM` = 1. -/
def walkedBits (lim : Bool) (bytes : List Byte) (s : State) : BitSeq :=
  limited (limitOperand lim s) (unpack (bytes.drop s.dataOff))

/-- The Pseudocode of DECODE (R186). -/
def bodyDecode (lim : Bool) (s : State) : Body :=
  withInput s fun bytes =>
    withTree s fun t =>
      let out := walk t (walkedBits lim bytes s)
      if out.length > s.params.outCap then .raise .capacity else .ok (putOut out s)

/-- DECODE: walk the tree over the data section (R186). -/
def execDecode (lim : Bool) (s : State) : Host.Outcome State Fault Refusal :=
  runCommand Status.reqDecode (fun _ f => f.afterDecode) (bodyDecode lim) s

/-- The Pseudocode of DECOMPRESS (R189), with the zero-length-tree special case (R190). -/
def bodyDecompress (lim : Bool) (s : State) : Body :=
  (bodyParse (clearCallState s)).andThen fun s1 =>
    if s1.tbc = 0 then .ok { s1 with outLen := 0 }
    else (bodyDeserialize s1).andThen (bodyDecode lim)

/-- DECOMPRESS: `decompress(bytes) -> bytes` (R189). -/
def execDecompress (lim : Bool) (s : State) : Host.Outcome State Fault Refusal :=
  runCommand Status.reqNothing (fun s1 f => f.afterDecompress (s1.tbc == 0)) (bodyDecompress lim) s

end Sys2Proof.Machine
end

