-- ==== Sys2Proof/Machine/Dispatch.lean ====
section
/-! DEFINITION. One arm per instruction of spec/opcode_table.json. -/

namespace Sys2Proof.Machine

def exec (i : Instr) (s : State) : Host.Outcome State Fault Refusal :=
  match i with
  | .nop => Sys2Proof.Machine.execNop s
  | .clear => Sys2Proof.Machine.execClear s
  | .count => Sys2Proof.Machine.execCount s
  | .build => Sys2Proof.Machine.execBuild s
  | .gencode => Sys2Proof.Machine.execGencode s
  | .serialize => Sys2Proof.Machine.execSerialize s
  | .pack => Sys2Proof.Machine.execPack s
  | .unpack => Sys2Proof.Machine.execUnpack s
  | .emit => Sys2Proof.Machine.execEmit s
  | .parse => Sys2Proof.Machine.execParse s
  | .deserialize => Sys2Proof.Machine.execDeserialize s
  | .decode lim => Sys2Proof.Machine.execDecode lim s
  | .compress => Sys2Proof.Machine.execCompress s
  | .decompress lim => Sys2Proof.Machine.execDecompress lim s
  | .treeTokenLeaf symbol => Sys2Proof.Machine.execTreeTokenLeaf symbol s
  | .treeTokenInternal => Sys2Proof.Machine.execTreeTokenInternal s

end Sys2Proof.Machine
end

