-- ==== Sys2Proof/Machine/Bus.lean ====
section
/-! DEFINITION. The register window and the host's accesses that start no command (10_state.md R22, R26, R29, R30, R34 to
R38; 20_memory.md R60, R65, R68). -/

namespace Sys2Proof.Machine

/-- The byte offset of a register (R37). -/
def regOffset : Reg → Nat
  | .cmd => 0x000
  | .status => 0x004
  | .errcode => 0x008
  | .inLen => 0x00C
  | .outLen => 0x010
  | .tbc => 0x014
  | .root => 0x018
  | .nodeCount => 0x01C
  | .encBitsLo => 0x020
  | .encBitsHi => 0x024
  | .dataLimitLo => 0x028
  | .dataLimitHi => 0x02C
  | .dataOff => 0x030
  | .symCount => 0x034
  | .freq s => 0x0400 + 4 * s.toNat
  | .codeLen s => 0x0800 + 4 * s.toNat
  | .codeBits s w => 0x1000 + 32 * s.toNat + 4 * w.val
  | .node i second => 0x3000 + 8 * i.val + 4 * second.toNat
  | .tbits w => 0x4000 + 4 * w.val

/-- The registers below offset `0x038`, by word number (R37). -/
def lowReg : Nat → Option Reg
  | 0 => some .cmd
  | 1 => some .status
  | 2 => some .errcode
  | 3 => some .inLen
  | 4 => some .outLen
  | 5 => some .tbc
  | 6 => some .root
  | 7 => some .nodeCount
  | 8 => some .encBitsLo
  | 9 => some .encBitsHi
  | 10 => some .dataLimitLo
  | 11 => some .dataLimitHi
  | 12 => some .dataOff
  | 13 => some .symCount
  | _ => none

/-- The register at a word-aligned byte offset; `none` at a reserved offset (R37). -/
def regAt (off : Nat) : Option Reg :=
  if off < 0x0400 then lowReg (off / 4)
  else if off < 0x0800 then some (.freq (BitVec.ofNat 8 ((off - 0x0400) / 4)))
  else if off < 0x0C00 then some (.codeLen (BitVec.ofNat 8 ((off - 0x0800) / 4)))
  else if off < 0x1000 then none
  else if off < 0x3000 then
    some (.codeBits (BitVec.ofNat 8 ((off - 0x1000) / 32)) (Fin.ofNat 8 ((off - 0x1000) / 4)))
  else if h : (off - 0x3000) / 8 < 511 then
    some (.node ⟨(off - 0x3000) / 8, h⟩ ((off - 0x3000) / 4 % 2 == 1))
  else if off < 0x4000 then none
  else if h : (off - 0x4000) / 4 < 80 then some (.tbits ⟨(off - 0x4000) / 4, h⟩)
  else none

/-- A value in a 32-bit word of the window, zero-extended (R26, R37); `none` where it does not fit. -/
def wordImage (n : Nat) : Option Word := if n < 2 ^ 32 then some (BitVec.ofNat 32 n) else none

/-- Word 0 of a record's window image: its weight (R26). -/
def Node.word0 : Node → Option Word
  | .leaf w _ => wordImage w
  | .internal w _ _ => wordImage w

/-- Word 1: bit 31 is `kind`; a Leaf has its symbol in bits 7:0, an Internal record `left` in bits 24:16 and `right`
in bits 8:0 (R26). `none` where an index does not fit its 9 bits. -/
def Node.word1 : Node → Option Word
  | .leaf _ s => some ((1 : BitVec 1) ++ (0 : BitVec 23) ++ s)
  | .internal _ l r =>
    if l < 2 ^ 9 ∧ r < 2 ^ 9 then
      some ((0 : BitVec 7) ++ BitVec.ofNat 9 l ++ (0 : BitVec 7) ++ BitVec.ofNat 9 r)
    else none

/-- The image of `CODE[s].len`: 8 bits (R28, R29). `none` where the length does not fit. -/
def CodeEntry.lenImage (e : CodeEntry) : Option Word := if e.len < 2 ^ 8 then some (BitVec.ofNat 32 e.len) else none

/-- Word `w` of the image of `CODE[s].bits`, a field of 255 bits (R28, R29). `none` where the code does not fit. -/
def CodeEntry.bitsImage (e : CodeEntry) (w : Nat) : Option Word :=
  if e.bits.length ≤ 255 then some (windowWord e.bits w) else none

/-- What the window shows of a register (R34 to R37); `none` where its value does not fit the window, which the defaults
of R6 rule out.
MODEL'S CHOICE (notes/assumptions/22.md): a `NODE_COUNT` of 1024 or more, which a `NODE_CAP` above 1023 admits, is shown whole as
long as it fits the 32-bit word, though R24 and R37 give it 10 bits; so would be a `ROOT` of 512 or more, which no command
leaves. -/
def regImage (s : State) : Reg → Option Word
  | .cmd => some 0
  | .status => some s.status.image
  | .errcode => some (errcodeImage s.errcode)
  | .inLen => wordImage s.inLen
  | .outLen => wordImage s.outLen
  | .tbc => wordImage s.tbc
  | .root => wordImage s.root
  | .nodeCount => wordImage s.nodeCount
  | .encBitsLo => wordImage (s.encBits % 2 ^ 32)
  | .encBitsHi => wordImage (s.encBits / 2 ^ 32)
  | .dataLimitLo => wordImage (s.dataLimit % 2 ^ 32)
  | .dataLimitHi => wordImage (s.dataLimit / 2 ^ 32)
  | .dataOff => wordImage s.dataOff
  | .symCount => wordImage s.symCount.toNat
  | .freq x => wordImage (s.freq.getD x.toNat 0)
  | .codeLen x => (s.code.getD x.toNat CodeEntry.absent).lenImage
  | .codeBits x w => (s.code.getD x.toNat CodeEntry.absent).bitsImage w.val
  | .node i second => if second then (s.node.getD i.val Node.zero).word1 else (s.node.getD i.val Node.zero).word0
  | .tbits w => some (windowWord s.tbits w.val)

/-- What a register holds, as numbers: what its word is made from where it does not fit (notes/assumptions/22.md). -/
def regHeld (s : State) : Reg → List Nat
  | .cmd | .status | .errcode | .tbits _ => []
  | .inLen => [s.inLen]
  | .outLen => [s.outLen]
  | .tbc => [s.tbc]
  | .root => [s.root]
  | .nodeCount => [s.nodeCount]
  | .encBitsLo | .encBitsHi => [s.encBits]
  | .dataLimitLo | .dataLimitHi => [s.dataLimit]
  | .dataOff => [s.dataOff]
  | .symCount => [s.symCount.toNat]
  | .freq x => [s.freq.getD x.toNat 0]
  | .codeLen x => [(s.code.getD x.toNat CodeEntry.absent).len]
  | .codeBits x _ => (s.code.getD x.toNat CodeEntry.absent).bits.map Bool.toNat
  | .node i _ => match s.node.getD i.val Node.zero with
    | .leaf w _ => [w]
    | .internal w l r => [w, l, r]

/-- What a read of a register gives: its image, or a free word where its value does not fit the window
(notes/assumptions/22.md). -/
def readReg (s : State) (r : Reg) : Word := (regImage s r).getD (Config.freeWord (regOffset r) (regHeld s r))

/-- A host write to a register other than `CMD`: only `IN_LEN` and the two words of `DATA_LIMIT` are writable; every
other write is ignored (R38). Bits beyond the width of the register are dropped (notes/assumptions/21.md). -/
def writeReg (s : State) (v : Word) : Reg → State
  | .inLen => { s with inLen := lenWord s.params v.toNat }
  | .dataLimitLo => { s with dataLimit := bitCount s.params (2 ^ 32 * (s.dataLimit / 2 ^ 32) + v.toNat) }
  | .dataLimitHi => { s with dataLimit := bitCount s.params (2 ^ 32 * v.toNat + s.dataLimit % 2 ^ 32) }
  | .cmd | .status | .errcode | .outLen | .tbc | .root | .nodeCount | .encBitsLo | .encBitsHi | .dataOff | .symCount
  | .freq _ | .codeLen _ | .codeBits _ _ | .node _ _ | .tbits _ => s

/-- The byte a host read of `OUT[i]` gives: the cell inside the valid part, an unspecified byte outside it (R22,
93_implementation_defined.md U10, U17; notes/assumptions/3.md). -/
def readOutByte (s : State) (i : Nat) : Byte :=
  if s.status.outValid && decide (i < s.outLen) then
    (s.outMem.read i).getD (Config.freeOutByte s.tick i)
  else Config.freeOutByte s.tick i

/-- The value of a host read, recorded for the host: the core's own state is unchanged (R38). -/
def answer (v : Word) (s : State) : State := { s with reads := v :: s.reads }

/-- A host access to `REG` checked against the interface, then done (R65, U11). -/
def regAccess (size : AccessSize) (off : Word) (k : Option Reg → State) : Host.Outcome State Fault Refusal :=
  if size ≠ .word then .refused .regAccessNarrow
  else if off.toNat % 4 ≠ 0 then .refused .regAccessMisaligned
  else .next (k (regAt off.toNat))

/-- Reset between commands: every piece of the core's state as R42 says (70_reset_and_hazards.md R240). The host's own
side goes on: what it still has to do and what it has read (notes/assumptions/15.md). -/
def resetCore (s : State) : State :=
  { State.resetWith s.params with script := s.script, reads := s.reads, tick := s.tick }

/-- A host transaction that starts no command (R68). -/
def hostAccess (t : Txn) (s : State) : Host.Outcome State Fault Refusal :=
  match t with
  | .writeIn i b =>
    if i < s.params.inCap then .next { s with inMem := s.inMem.write i b } else .fault .inCellDoesNotExist
  | .writeReg size off v =>
    regAccess size off fun r => match r with
      | none => s
      | some r => writeReg s v r
  | .readReg size off =>
    regAccess size off fun r => match r with
      | none => answer 0 s
      | some r => answer (readReg s r) s
  | .readOut i => .next (answer ((readOutByte s i).setWidth 32) s)
  | .reset => .next (resetCore s)

end Sys2Proof.Machine
end

