-- ==== Sys2Proof/Machine/Fetch.lean ====
section
/-! DEFINITION. What a step does first: which instruction it runs, or what else happens (10_state.md R34, R39; 20_memory.md
R67, R68; 40_control.md R100). -/

namespace Sys2Proof.Machine

/-- What a step finds to do: run an instruction in a state, or something that is settled without one. -/
inductive Fetched where
  | run (i : Instr) (s : State)
  | settled (o : Host.Outcome State Fault Refusal)

/-- The command word a transaction writes to `CMD`, if it does (R34: an aligned word write to offset 0). -/
def commandWord? : Txn → Option Word
  | .writeReg .word off v => if off = 0 then some v else none
  | _ => none

/-- The first transaction taken from the script; its step has a number of its own. -/
def takeTxn (rest : List Txn) (s : State) : State := { s with script := rest, tick := s.tick + 1 }

/-- A word written to `CMD`: the command it encodes runs, or it is illegal (R34, R100, R213). -/
def fetchCommand (w : Word) (s : State) : Fetched :=
  match decodeCmd w with
  | .ok i => .run i { s with cmd := w }
  | .error _ => .settled (.next (illegalCommand { s with cmd := w }))

/-- A deserialization in progress takes its next token; with no whole token left it fails (44_tree_codec.md R151). -/
def fetchToken (c : DeserCtx) (s : State) : Fetched :=
  match decodeToken c.bits with
  | .ok (i, bits) => .run i { s with deser := some { c with bits := bits } }
  | .error _ => .settled (.next (failDeserialize s))

/-- While a command is in progress the host cannot act (20_memory.md R67); else its next transaction is taken, and with
none the core holds its state (60_exceptions.md R224). -/
def fetch (s : State) : Fetched :=
  match s.deser with
  | some c => fetchToken c s
  | none =>
    match s.script with
    | [] => .settled (.next s)
    | t :: rest =>
      match commandWord? t with
      | some w => fetchCommand w (takeTxn rest s)
      | none => .settled (hostAccess t (takeTxn rest s))

/-- `s` with the code `c` placed where the next step takes its instruction: a command word as the host's next
transaction, a token as the bits of a deserialization in progress (a new one if there is none).
MODEL'S CHOICE (notes/assumptions/5.md, 8.md): a token placed while a deserialization is in progress takes the place of the
bits not yet consumed, which are dropped; the places still to be filled, `NODE`, `NODE_COUNT` and `ROOT` stay. The spec has no
token from outside: the bits are those of `TBITS` (30_encoding.md R86, 10_state.md R39 (b)).
MODEL'S CHOICE (notes/assumptions/5.md, 8.md): a command word placed while a deserialization is in progress drops it, with
`NODE`, `NODE_COUNT`, `ROOT` and `STATUS` as its tokens left them. The spec gives no such case an effect, since `CMD` cannot be
written before a step is over (40_control.md R100, 20_memory.md R67); without it the very next step would run a token. -/
def placeCode (c : Code) (s : State) : State :=
  match c with
  | .cmdw w => { s with script := .writeReg .word 0 w :: s.script, deser := none }
  | .token bits =>
    match s.deser with
    | some d => { s with deser := some { d with bits := bits } }
    | none => startDeserialize bits s

end Sys2Proof.Machine
end

