-- ==== Sys2Proof/Machine/Step.lean ====
section
/-! DEFINITION. One step of the machine. -/

namespace Sys2Proof.Machine

/-- One step: one host transaction, which is one whole command when it writes `CMD` (00_scope.md R5), or one token of a
deserialization in progress. -/
def step (s : State) : Host.Outcome State Fault Refusal :=
  match fetch s with
  | .run i s' => exec i s'
  | .settled o => o

/-- `s` with the instruction whose bits the opcode table numbers `w` placed where `step` fetches next. -/
def State.withFetchWord (s : State) (nbits w : Nat) : State :=
  match codeOfTable nbits w with
  | some c => placeCode c s
  | none => s

end Sys2Proof.Machine
end

