-- ==== Sys2Proof/Machine/Codec.lean ====
section
/-! DEFINITION. `compress` and `decompress` as functions without the registers (46_codec_facade.md R194). The machine does
not call them: they are what statements compare its commands with. -/

namespace Sys2Proof.Machine

/-- The deterministic builder of 42_tree_builder.md R120 to R123 as a function from a frequency table to a tree. -/
def buildTree (p : Params) (freq : Vector Nat 256) : Option Tree :=
  treeOf (nodeTable p (buildRecords p freq).1) (buildRecords p freq).1.length (buildRecords p freq).2

/-- The container and the exact bit count of a byte sequence with tree `t` (R194). -/
def compressWith (t : Tree) (bytes : List Byte) : Option (List Byte × Nat) :=
  match encodeBytes (codes t) bytes with
  | none => none
  | some enc => some (container (BitVec.ofNat 32 (serialize t).length) (serialize t) enc, enc.length)

/-- `compress(B)`: the container and `ENC_BITS` (R194). -/
def compress (p : Params) (bytes : List Byte) : Option (List Byte × Nat) :=
  if bytes = [] then some ([0, 0, 0, 0], 0)
  else
    match buildTree p (histogram bytes) with
    | none => none
    | some t => compressWith t bytes

/-- `decompress(C, lim)` (R194). -/
def decompress (p : Params) (c : List Byte) (lim : Option Nat) : Except ErrKind (List Byte) :=
  if c.length < 4 then .error .malformedContainer
  else
    let t := lengthField c
    let n := ceil8 t
    if n > c.length - 4 then .error .malformedContainer
    else if t > p.tbitsCap then .error .capacity
    else if t = 0 then .ok []
    else
      match deserialize p ((unpack ((c.drop 4).take n)).take t) with
      | none => .error .malformedContainer
      | some tree => .ok (walk tree (limited lim (unpack (c.drop (4 + n)))))

end Sys2Proof.Machine
end

