-- ==== Sys2Proof/Machine/Script.lean ====
section
/-! DEFINITION. The host script and its expansion into bus transactions (30_encoding.md R93). -/

namespace Sys2Proof.Machine

/-- `W REG <offset> v`. -/
def wReg (r : Reg) (v : Word) : Txn := .writeReg .word (BitVec.ofNat 32 (regOffset r)) v

/-- `R REG <offset>`. -/
def rReg (r : Reg) : Txn := .readReg .word (BitVec.ofNat 32 (regOffset r))

/-- `W IN i b` for each byte of the list, in order, from cell `i`. -/
def wInFrom (i : Nat) : List Byte → List Txn
  | [] => []
  | b :: bs => .writeIn i b :: wInFrom (i + 1) bs

/-- The transactions a script line stands for (R93; for the lines of two reads see `ScriptReg`). `outLen` is the value the read
of `OUT_LEN` in `RDOUT` gives, on which the number of its reads of `OUT` depends (notes/assumptions/20.md). -/
def expand (outLen : Nat) : HostLine → List Txn
  | .wrin bytes => wInFrom 0 bytes ++ [wReg .inLen (BitVec.ofNat 32 bytes.length)]
  | .setLen n => [wReg .inLen n]
  | .setLim n => [wReg .dataLimitLo (n.extractLsb' 0 32), wReg .dataLimitHi (n.extractLsb' 32 32)]
  | .command i =>
    match encode i with
    | .cmdw w => [wReg .cmd w]
    | .token _ => []
  | .rd (.one r) => [rReg r]
  | .rd .encBits => [rReg .encBitsLo, rReg .encBitsHi]
  | .rd .dataLimit => [rReg .dataLimitLo, rReg .dataLimitHi]
  | .rd (.node i) => [rReg (.node i false), rReg (.node i true)]
  | .rd (.code s) => [rReg (.codeLen s), rReg (.codeBits s 0)]
  | .rdOut => rReg .outLen :: (List.range outLen).map fun i => .readOut i

end Sys2Proof.Machine
end

