-- ==== Sys2Proof/Safety.lean ====
section
/-! DEFINITION. The terms the statements use: what every conforming tree builder does (42_tree_builder.md R125), and which
states are safe (10_state.md R21 to R42). -/

namespace Sys2Proof.Machine

/-! ## Tree builders -/

/-- A frequency table as a function from symbols to counts (R110). -/
def freqOf (freq : Vector Nat 256) (s : Byte) : Nat := freq.getD s.toNat 0

/-- Every symbol, in ascending order. -/
def allSymbols : List Byte := (List.range 256).map (BitVec.ofNat 8)

/-- The symbols with count ≥ 1, in ascending order: the alphabet. -/
def alphabet (h : Byte → Nat) : List Byte := allSymbols.filter fun s => h s ≠ 0

/-- The multiset `M0 = { Leaf(h[s], s) | h[s] ≥ 1 }` (R125). -/
def initialForest (h : Byte → Nat) : Multiset Tree := ((alphabet h).map fun s => Tree.leaf (h s) s : List Tree)

/-- A greedy step (R125): `a` has the least weight of all, `b` the least weight of the others, and they become the two
children of a new node, in either order. -/
inductive GreedyStep : Multiset Tree → Multiset Tree → Prop where
  | firstLeft (M : Multiset Tree) (a b : Tree) (ha : ∀ x ∈ b ::ₘ M, a.weight ≤ x.weight)
      (hb : ∀ x ∈ M, b.weight ≤ x.weight) :
      GreedyStep (a ::ₘ b ::ₘ M) (.internal (a.weight + b.weight) a b ::ₘ M)
  | firstRight (M : Multiset Tree) (a b : Tree) (ha : ∀ x ∈ b ::ₘ M, a.weight ≤ x.weight)
      (hb : ∀ x ∈ M, b.weight ≤ x.weight) :
      GreedyStep (a ::ₘ b ::ₘ M) (.internal (a.weight + b.weight) b a ::ₘ M)

/-- `HuffmanTree(h, t)`: some sequence of greedy steps leads from `M0` to the singleton of `t` (R125). -/
def HuffmanTree (h : Byte → Nat) (t : Tree) : Prop := Relation.ReflTransGen GreedyStep (initialForest h) {t}

/-- "weight of an Internal node = weight(left) + weight(right)" at every Internal node (R127 (b)). -/
def Tree.weightsAdd : Tree → Prop
  | .leaf _ _ => True
  | .internal w l r => w = l.weight + r.weight ∧ l.weightsAdd ∧ r.weightsAdd

/-- The subtree at the end of a path ('0' left, '1' right; R139 (c)). -/
def Tree.follow : Tree → BitSeq → Option Tree
  | t, [] => some t
  | .leaf _ _, _ :: _ => none
  | .internal _ l r, b :: p => Tree.follow (if b then r else l) p

/-- The leftmost leaf: its symbol and its depth (46_codec_facade.md R192 (c): the symbol whose code is all zeros). -/
def Tree.leftmost : Tree → Byte × Nat
  | .leaf _ s => (s, 0)
  | .internal _ l _ => (l.leftmost.1, l.leftmost.2 + 1)

/-- The indices a record names as its children. -/
def Node.children : Node → List Nat
  | .leaf _ _ => []
  | .internal _ l r => [l, r]

/-- The weight of the record at an index. -/
def weightAt (recs : List Node) (i : Nat) : Nat := (recs.getD i Node.zero).weight

/-- When record `j` is made, record `i` waits to be merged: it has been made, and no record made before `j` has it as a
child (42_tree_builder.md R120, R122). -/
def OpenAt (recs : List Node) (j i : Nat) : Prop :=
  i < j ∧ ∀ (m : Nat) (n : Node), m < j → recs[m]? = some n → i ∉ n.children

/-- The key of R121: smaller weight first, among equal weights `TIEBREAK`: the smaller rank, then the smaller index. -/
def KeyBefore (p : Params) (recs : List Node) (a b : Nat) : Prop :=
  weightAt recs a < weightAt recs b ∨ (weightAt recs a = weightAt recs b ∧
    (p.tieBreak.getD a 0 < p.tieBreak.getD b 0 ∨ (p.tieBreak.getD a 0 = p.tieBreak.getD b 0 ∧ a < b)))

/-- Record `j` is what the merge step of R122 makes: its children are the two least of the records that wait, `a` before
`b`, on the sides `CHILD_ORDER` gives them, and its weight is the sum of theirs. -/
def MergedAt (p : Params) (recs : List Node) (j : Nat) : Prop :=
  ∃ a b w l r : Nat, recs[j]? = some (.internal w l r) ∧
    OpenAt recs j a ∧ OpenAt recs j b ∧ KeyBefore p recs a b ∧
    (∀ x, OpenAt recs j x → x ≠ a → x ≠ b → KeyBefore p recs b x) ∧
    w = weightAt recs a + weightAt recs b ∧
    (p.childOrder = .firstPoppedLeft → l = a ∧ r = b) ∧
    (p.childOrder = .secondPoppedLeft → l = b ∧ r = a)

/-! ## Safe states -/

/-- While `FREQ_VALID` = 1: the counts add up to an input length, and `SYM_COUNT` is the size of the alphabet
(10_state.md R23). -/
def FreqOk (s : State) : Prop :=
  (allSymbols.map (freqOf s.freq)).sum ≤ s.params.inCap ∧ s.symCount.toNat = (alphabet (freqOf s.freq)).length

/-- While `TREE_VALID` = 1: the records below `NODE_COUNT` form one tree rooted at `ROOT`, every one of them reached by
exactly one path, the records above are all-zero (10_state.md R25), and the tree's bits fit `TBITS` (44_tree_codec.md R147,
R154). -/
def TreeOk (s : State) : Prop :=
  ∃ t, treeOperand s = some t ∧ t.size = s.nodeCount ∧ s.nodeCount ≤ s.params.nodeCap ∧
    (serialize t).length ≤ s.params.tbitsCap ∧
    (visited s.node s.nodeCount s.root).Perm (List.range s.nodeCount) ∧
    ∀ i, s.nodeCount ≤ i → i < s.params.nodeCap → s.node[i]? = some Node.zero

/-- Every entry of the code table has `len` bits, no more than a tree whose bits fit `TBITS` is deep (255 at the defaults), and
no code is a prefix of another (10_state.md R28, 44_tree_codec.md R147). -/
def CodeOk (s : State) : Prop :=
  (∀ (i : Nat) (e : CodeEntry), s.code[i]? = some e → e.len = e.bits.length ∧ 10 * (e.len + 1) ≤ s.params.tbitsCap + 1) ∧
    ∀ (i j : Nat) (e e' : CodeEntry), s.code[i]? = some e → s.code[j]? = some e' → i ≠ j → e.len ≠ 0 → e'.len ≠ 0 →
      ¬ e.bits <+: e'.bits

/-- `TBC` is the length of `TBITS`, at most `TBITS_CAP` (10_state.md R30). -/
def TbitsOk (s : State) : Prop := s.tbc = s.tbits.length ∧ s.tbits.length ≤ s.params.tbitsCap

/-- Both buffers are in canonical form and lie inside their address spaces (20_memory.md R60). -/
def BuffersOk (s : State) : Prop :=
  s.inMem.wf = true ∧ s.outMem.wf = true ∧ (∀ c ∈ s.inMem, c.1 < s.params.inCap) ∧ ∀ c ∈ s.outMem, c.1 < s.params.outCap

/-- While `OUT_VALID` = 1 every cell below `OUT_LEN` holds a byte (10_state.md R22). -/
def OutOk (s : State) : Prop := ∀ i, i < s.outLen → (s.outMem.read i).isSome = true

/-- Every register of a parameter's width holds a value of that width (00_scope.md R6): the lengths and `DATA_OFF`, the bit
counts, the counters and the weights; and the node memory has `NODE_CAP` records (10_state.md R24). -/
def WidthsOk (s : State) : Prop :=
  s.inLen < 2 ^ s.params.lenW ∧ s.outLen < 2 ^ s.params.lenW ∧ s.dataOff < 2 ^ s.params.lenW ∧
    s.encBits < 2 ^ s.params.bitcntW ∧ s.dataLimit < 2 ^ s.params.bitcntW ∧
    (∀ x, freqOf s.freq x < 2 ^ s.params.cntW) ∧ s.node.length = s.params.nodeCap ∧
    ∀ (i : Nat) (n : Node), s.node[i]? = some n → n.weight < 2 ^ s.params.cntW

/-- `DONE` and `ERR` are never both set, and `ERRCODE` is 0 exactly when `ERR` = 0 (10_state.md R35, R36). -/
def StatusOk (s : State) : Prop := ¬ (s.status.done = true ∧ s.status.err = true) ∧ s.errcode.isSome = s.status.err

/-- A product whose valid flag is 0 is as reset, CLEAR and a call error leave it: a table all-zero, a sequence empty, a
register 0. Only they, COMPRESS and DECOMPRESS make a flag 0, and all of them clear the call state (10_state.md R40, R42,
40_control.md R102, 60_exceptions.md R219). -/
def AbsentOk (s : State) : Prop :=
  (s.status.freqValid = false → s.freq = tabulate 256 (fun _ => 0) ∧ s.symCount = 0) ∧
    (s.status.treeValid = false → s.node = List.replicate s.params.nodeCap Node.zero ∧ s.nodeCount = 0 ∧ s.root = 0) ∧
    (s.status.codeValid = false → s.code = tabulate 256 fun _ => CodeEntry.absent) ∧
    (s.status.tbitsValid = false → s.tbits = [] ∧ s.tbc = 0) ∧
    (s.status.parseValid = false → s.dataOff = 0) ∧
    (s.status.outValid = false → s.outLen = 0 ∧ s.encBits = 0)

/-- A state of a core between commands, as the spec's invariants describe it, with parameters R6 admits. -/
structure Inv (s : State) : Prop where
  params : s.params.wf = true
  widths : WidthsOk s
  idle : s.deser = none
  buffers : BuffersOk s
  out : s.status.outValid = true → OutOk s
  freq : s.status.freqValid = true → FreqOk s
  tree : s.status.treeValid = true → TreeOk s
  code : CodeOk s
  tbits : TbitsOk s
  status : StatusOk s
  absent : AbsentOk s

/-- What the host can observe of the result of a command (46_codec_facade.md R193): `STATUS`, `ERRCODE`, `OUT_LEN`,
`ENC_BITS` and the readable bytes of `OUT`. -/
def resultOf (s : State) : Status × Option ErrKind × Nat × Nat × List (Option Byte) :=
  (s.status, s.errcode, s.outLen, s.encBits, (List.range s.outLen).map s.outMem.read)

/-- The state after `k` tokens of a deserialization in progress, or earlier if it has ended. -/
def runTokens : Nat → State → Host.Outcome State Fault Refusal
  | 0, s => .next s
  | k + 1, s =>
    match s.deser with
    | none => .next s
    | some _ =>
      match step s with
      | .next s' => runTokens k s'
      | .fault r => .fault r
      | .refused r => .refused r

end Sys2Proof.Machine
end

