-- ==== Sys2Proof/Certificates/Slice0/Obligations.lean ====
section
/-! DEFINITION. The statements for the provers. `s` is the state before an instruction, `t` the state after it. Where a
state after is given as `{ s with … }`, every field not listed is unchanged: that is the statement's frame. `s.params` are the
parameters of 00_scope.md R6; `Params.wf` is its column "constraint" (notes/assumptions/1.md). -/

open Sys2Proof Sys2Proof.Machine

/-! ## Encodings -/

/-- 30_encoding.md R81, R86: words and tokens written out from the spec's tables decode to the instructions they stand
for. -/
def Obligations.SampleCodesDecode : Prop :=
  decodeCmd 0x00000000 = .ok .nop ∧ decodeCmd 0x00000003 = .ok .build ∧ decodeCmd 0x00000009 = .ok .parse ∧
    decodeCmd 0x0000010B = .ok (.decode true) ∧ decodeCmd 0x0000000D = .ok (.decompress false) ∧
    decodeCmd 0x00000102 = .error .limNotAllowed ∧ decodeCmd 0x80000002 = .error .reservedBits ∧
    decodeCmd 0x0000000F = .error .reservedOp ∧
    decode (.token [true, false, true, true, false, false, false, false, true]) = .ok (.treeTokenLeaf 0x61) ∧
    decode (.token [false]) = .ok .treeTokenInternal

/-- 30_encoding.md R81: the operation codes, and the legal command words are exactly the sixteen. -/
def Obligations.LegalCommandWordsExactly : Prop :=
  ∀ (w : Word) (i : Instr), decodeCmd w = .ok i ↔
    (w, i) ∈ [((0x0 : Word), Instr.nop), (0x1, .clear), (0x2, .count), (0x3, .build), (0x4, .gencode),
      (0x5, .serialize), (0x6, .pack), (0x7, .unpack), (0x8, .emit), (0x9, .parse), (0xA, .deserialize),
      (0xB, .decode false), (0x10B, .decode true), (0xC, .compress), (0xD, .decompress false), (0x10D, .decompress true)]

/-- 30_encoding.md R80, R81, R86, R87: every instruction, with every operand at every value, is what its encoding decodes
to, and no other code decodes to it. -/
def Obligations.DecodeInvertsEncode : Prop :=
  ∀ (i : Instr) (c : Code), i.wf = true → (decode c = .ok i ↔ c = encode i)

/-- 30_encoding.md R86, R87, R91 (a): a tree token tells its own length, whatever bits come after it. -/
def Obligations.TreeTokensAreSelfDelimiting : Prop :=
  ∀ (i : Instr) (rest : BitSeq), i.isCommand = false →
    ∃ bits, encode i = .token bits ∧ decodeToken (bits ++ rest) = .ok (i, rest)

/-- 30_encoding.md R82, 60_exceptions.md R213, R220: a word that is no legal command word ends with IllegalCommand, and
nothing else of the core changes but `CMD` itself (with the model's script and tick, which any transaction
advances). The script is notes/assumptions/5.md, the word in `CMD` notes/assumptions/6.md. -/
def Obligations.IllegalWordIsAnInterfaceError : Prop :=
  ∀ (s : State) (w : Word) (rest : List Txn), s.deser = none → s.script = .writeReg .word 0 w :: rest →
    (w.extractLsb' 0 4 = 0xE ∨ w.extractLsb' 0 4 = 0xF ∨ w.extractLsb' 4 4 ≠ 0 ∨ w.extractLsb' 9 23 ≠ 0 ∨
      (w.getLsbD 8 = true ∧ w.extractLsb' 0 4 ≠ 0xB ∧ w.extractLsb' 0 4 ≠ 0xD)) →
    step s = .next { s with
      cmd := w, script := rest, tick := s.tick + 1,
      status := { s.status with done := false, err := true }, errcode := some .illegalCommand }

/-! ## A step -/

/-- What a step does. It runs the decoded instruction (10_state.md R34, 40_control.md R100): a legal word written to `CMD` runs
its command, in the state that holds the word (`cmd := w` is the model's choice, notes/assumptions/6.md), with the transaction
taken from the script (an illegal word is `IllegalWordIsAnInterfaceError`). Any other transaction of the host is performed as
`hostAccess` says (20_memory.md R68, 70_reset_and_hazards.md R240; the statements on the register window and on reset say
how). With nothing to do the core holds its state (60_exceptions.md R224). In a deserialization in progress the next token runs,
with its bits consumed, and bits that are no whole token end it with MalformedContainer (44_tree_codec.md R151). The script,
the tick and the token steps are the model's (notes/assumptions/5.md, 8.md). -/
def Obligations.StepRunsTheDecodedInstruction : Prop :=
  (∀ (s : State) (w : Word) (i : Instr) (rest : List Txn), s.deser = none → s.script = .writeReg .word 0 w :: rest →
      decode (.cmdw w) = .ok i →
      step s = exec i { s with cmd := w, script := rest, tick := s.tick + 1 }) ∧
    (∀ (s : State) (x : Txn) (rest : List Txn), s.deser = none → s.script = x :: rest →
      (∀ w, x ≠ .writeReg .word 0 w) → step s = hostAccess x { s with script := rest, tick := s.tick + 1 }) ∧
    (∀ s : State, s.deser = none → s.script = [] → step s = .next s) ∧
    (∀ (s : State) (c : DeserCtx) (i : Instr) (bits : BitSeq), s.deser = some c → decodeToken c.bits = .ok (i, bits) →
      step s = exec i { s with deser := some ⟨bits, c.slot, c.rest⟩ }) ∧
    ∀ (s : State) (c : DeserCtx) (e : DecodeError), s.deser = some c → decodeToken c.bits = .error e →
      step s = .next (callError .malformedContainer { s with deser := none })

/-! ## Bit sequences and bytes -/

/-- 45_bit_packer.md R165, R166: the length and every byte of `pack(s)`, and every bit of `unpack(B)`. -/
def Obligations.PackAndUnpackPlaceEveryBit : Prop :=
  (∀ s : BitSeq, (pack s).length = ceil8 s.length ∧ ∀ j, j < ceil8 s.length → ∃ b, (pack s)[j]? = some b ∧
      b.toNat = ((List.range 8).map fun i => (s.getD (8 * j + i) false).toNat * 2 ^ (7 - i)).sum) ∧
    ∀ bytes : List Byte, (unpack bytes).length = 8 * bytes.length ∧
      ∀ (j i : Nat) (b : Byte), i < 8 → bytes[j]? = some b → (unpack bytes)[8 * j + i]? = some (b.getLsbD (7 - i))

/-- 45_bit_packer.md R170: the laws of `pack` and `unpack`. -/
def Obligations.PackUnpackLaws : Prop :=
  (∀ s : BitSeq, (pack s).length = ceil8 s.length) ∧
    (∀ b : List Byte, (unpack b).length = 8 * b.length) ∧
    (∀ s : BitSeq, unpack (pack s) = s ++ List.replicate (8 * ceil8 s.length - s.length) false ∧
      8 * ceil8 s.length - s.length ≤ 7 ∧ (unpack (pack s)).take s.length = s) ∧
    (∀ b : List Byte, pack (unpack b) = b) ∧
    ∀ s t : BitSeq, s.length % 8 = 0 → pack (s ++ t) = pack s ++ pack t

/-! ## Trees -/

/-- 44_tree_codec.md R147: the length of a serialized tree. -/
def Obligations.SerializedLength : Prop :=
  ∀ t : Tree, (serialize t).length = 10 * t.leaves.length - 1 ∧ t.size = t.leaves.length + (t.leaves.length - 1)

/-- 44_tree_codec.md R156: serialize then deserialize gives the tree with its weights at `DESER_WEIGHT`, never fails and
yields the same code table; conversely what `deser` consumed is the serialization of what it gave. -/
def Obligations.TreeSerializationRoundTrip : Prop :=
  (∀ (p : Params) (t : Tree) (x : BitSeq),
      deser p (serialize t ++ x).length (serialize t ++ x) = some (t.zeroWeights p, x)) ∧
    (∀ (p : Params) (t : Tree), ∃ u, deserialize p (serialize t) = some u ∧ (∀ s, codes u s = codes t s) ∧
      u.symbols = t.symbols) ∧
    ∀ (p : Params) (b rest : BitSeq) (t : Tree), deser p b.length b = some (t, rest) → b = serialize t ++ rest

/-- 44_tree_codec.md R151, R152: `deserialize` fails exactly when the bits end before a well-formed tree is fully read;
the empty sequence and every sequence of zeros fail; bits after the closed tree are dropped without error. -/
def Obligations.DeserializeFailsOnlyWhenBitsRunOut : Prop :=
  ∀ p : Params,
    (∀ b : BitSeq, deserialize p b = none ↔ ∀ (t : Tree) (rest : BitSeq), b ≠ serialize t ++ rest) ∧
    (∀ n : Nat, deserialize p (List.replicate n false) = none) ∧
    ∀ (t : Tree) (rest : BitSeq), deserialize p (serialize t ++ rest) = some (t.zeroWeights p)

/-- 43_code_table.md R139: properties of `codes(t)`. -/
def Obligations.CodeTableProperties : Prop :=
  (∀ (t : Tree) (s : Byte) (p : BitSeq), codes t s = some p → p ≠ []) ∧
    (∀ (t : Tree) (s s' : Byte) (p q : BitSeq), s ≠ s' → codes t s = some p → codes t s' = some q → ¬ p <+: q) ∧
    (∀ t : Tree, t.symbols.Nodup → ∀ s : Byte, ((codes t s).isSome = true ↔ s ∈ t.symbols) ∧
      ∀ p, codes t s = some p → 2 ≤ t.leaves.length → ∃ w, t.follow p = some (.leaf w s)) ∧
    (∀ (w : Nat) (s : Byte), codes (.leaf w s) s = some [false]) ∧
    (∀ (p : Params) (t u : Tree), t.zeroWeights p = u.zeroWeights p → ∀ s, codes t s = codes u s) ∧
    ∀ (p : Params) (t : Tree), ∃ u, deserialize p (serialize t) = some u ∧ ∀ s, codes u s = codes t s

/-- 43_code_table.md R135, R137: with repeated symbols the entry kept is the path of the last such leaf in pre-order. -/
def Obligations.RepeatedSymbolKeepsItsLastLeaf : Prop :=
  ∀ (w : Nat) (l r : Tree) (s : Byte), codes (.internal w l r) s =
    (((paths l [false] ++ paths r [true]).filter fun x => x.1 = s).getLast?).map Prod.snd

/-- 42_tree_builder.md R125: the builder of R120 to R123 always produces one tree with `HuffmanTree(FREQ, t)`, whatever
`TIEBREAK` and `CHILD_ORDER` are. -/
def Obligations.BuilderMakesAHuffmanTree : Prop :=
  ∀ (p : Params) (freq : Vector Nat 256), p.wf = true → (∃ s, freqOf freq s ≠ 0) →
    (allSymbols.map (freqOf freq)).sum ≤ p.inCap → ∃ t, buildTree p freq = some t ∧ HuffmanTree (freqOf freq) t

/-- 42_tree_builder.md R127 (a) to (c): properties of every tree the relation admits. -/
def Obligations.HuffmanTreeProperties : Prop :=
  ∀ (h : Byte → Nat) (t : Tree), (∃ s, h s ≠ 0) → HuffmanTree h t →
    t.leaves.Perm ((alphabet h).map fun s => (h s, s)) ∧ t.symbols.Nodup ∧
      t.leaves.length = (alphabet h).length ∧ t.size = 2 * (alphabet h).length - 1 ∧
      t.weight = (allSymbols.map h).sum ∧ t.weightsAdd ∧
      ((alphabet h).length = 1 ↔ ∃ w s, t = .leaf w s)

/-- 42_tree_builder.md R120 to R124: where BUILD's records stand and what each holds. The leaves come first, in ascending
symbol order; every later record merges the two least of the records that wait, by weight and among equal weights by
`TIEBREAK` (by default the smaller index), on the sides `CHILD_ORDER` gives them (by default the first popped left). That
`TIEBREAK` is given as ranks of the indices is the model's choice (notes/assumptions/13.md). The premise on the counts is the
invariant of 10_state.md R23 (`FreqOk`). -/
def Obligations.BuildPlacesItsRecords : Prop :=
  ∀ (p : Params) (freq : Vector Nat 256), p.wf = true → (∃ s, freqOf freq s ≠ 0) →
    (allSymbols.map (freqOf freq)).sum ≤ p.inCap →
    let k := (alphabet (freqOf freq)).length
    (buildRecords p freq).1.length = 2 * k - 1 ∧ (buildRecords p freq).2 = 2 * k - 2 ∧
      (∀ (j : Nat) (s : Byte), (alphabet (freqOf freq))[j]? = some s →
        (buildRecords p freq).1[j]? = some (.leaf (freqOf freq s) s)) ∧
      ∀ j, k ≤ j → j < 2 * k - 1 → MergedAt p (buildRecords p freq).1 j

/-! ## The codec as functions -/

/-- 46_codec_facade.md R191, for every tree of the relation: in bounded mode the container gives the input back. -/
def Obligations.BoundedRoundTripForEveryHuffmanTree : Prop :=
  ∀ (p : Params) (bytes : List Byte) (t : Tree), p.wf = true → bytes ≠ [] → bytes.length ≤ p.inCap →
    HuffmanTree (fun s => bytes.count s) t →
    ∃ c e, compressWith t bytes = some (c, e) ∧ decompress p c (some e) = .ok bytes

/-- 46_codec_facade.md R192: what exhaustion mode returns, for every tree of the relation. 8 * ceil8 e - e is the number of
pad bits; with a single-leaf tree each is one more symbol, else the all-zeros code of the leftmost leaf is completed
floor(pad / d0) times. -/
def Obligations.ExhaustionModeAppendsPadSymbols : Prop :=
  ∀ p : Params, p.wf = true → decompress p [0, 0, 0, 0] none = .ok [] ∧
    ∀ (bytes : List Byte) (t : Tree), bytes ≠ [] → bytes.length ≤ p.inCap →
      HuffmanTree (fun s => bytes.count s) t →
      ∃ c e, compressWith t bytes = some (c, e) ∧
        decompress p c none = .ok (bytes ++
          if t.leftmost.2 = 0 then List.replicate (8 * ceil8 e - e) t.leftmost.1
          else List.replicate ((8 * ceil8 e - e) / t.leftmost.2) t.leftmost.1)

/-- 46_codec_facade.md R183, R184: the tree walk, on any bits. With a single-leaf tree every bit, 0 or 1, is one symbol.
With an Internal root: no bits give nothing; bits that lead from the root to a leaf give its symbol, and the walk goes on
at the root; bits that end at an Internal node give nothing, so an unfinished last code word is dropped without error. -/
def Obligations.UnfinishedCodeWordIsDropped : Prop :=
  (∀ (w : Nat) (s : Byte) (bits : BitSeq), walk (.leaf w s) bits = List.replicate bits.length s) ∧
    (∀ (w : Nat) (l r : Tree) (path rest : BitSeq) (w' : Nat) (s : Byte),
      (Tree.internal w l r).follow path = some (.leaf w' s) →
      walk (.internal w l r) (path ++ rest) = s :: walk (.internal w l r) rest) ∧
    (∀ (w : Nat) (l r : Tree) (path : BitSeq) (w' : Nat) (l' r' : Tree),
      (Tree.internal w l r).follow path = some (.internal w' l' r') → walk (.internal w l r) path = []) ∧
    ∀ (w : Nat) (l r : Tree) (bytes : List Byte) (enc p q : BitSeq) (s : Byte),
      encodeBytes (codes (.internal w l r)) bytes = some enc → codes (.internal w l r) s = some p → q <+: p → q ≠ p →
      walk (.internal w l r) (enc ++ q) = bytes

/-! ## Commands -/

/-- 40_control.md R101: NOP changes nothing but `DONE`, `ERR` and `ERRCODE`. -/
def Obligations.NopOnlyReports : Prop :=
  ∀ s : State, exec .nop s = .next { s with status := { s.status with done := true, err := false }, errcode := none }

/-- 40_control.md R102, 70_reset_and_hazards.md R241: CLEAR leaves the call state as reset has it, and keeps `IN`,
`IN_LEN`, `DATA_LIMIT` and the cells of `OUT`. That CLEAR leaves the cells of `OUT` is the model's choice
(notes/assumptions/10.md). -/
def Obligations.ClearDiscardsTheCallState : Prop :=
  ∀ s : State, ∃ t, exec .clear s = .next t ∧ t.outLen = 0 ∧ t.symCount = 0 ∧ t.nodeCount = 0 ∧ t.root = 0 ∧
    t.tbits = [] ∧ t.tbc = 0 ∧ t.encBits = 0 ∧ t.dataOff = 0 ∧ t.errcode = none ∧
    t.status = ⟨true, false, false, false, false, false, false, false⟩ ∧
    (∀ i, i < 256 → t.freq[i]? = some 0 ∧ t.code[i]? = some ⟨0, []⟩) ∧
    t.node = List.replicate s.params.nodeCap (.internal 0 0 0) ∧
    t = { s with
      outLen := t.outLen, freq := t.freq, symCount := t.symCount, node := t.node, nodeCount := t.nodeCount,
      root := t.root, code := t.code, tbits := t.tbits, tbc := t.tbc, encBits := t.encBits, dataOff := t.dataOff,
      status := t.status, errcode := t.errcode }

/-- 41_frequency_counter.md R110, R111: COUNT writes how often each byte value occurs in the input, and the number of
values that occur; the counts add up to `IN_LEN`. An input longer than `IN_CAP` is a Capacity error (60_exceptions.md
R215 (a)). -/
def Obligations.CountCountsTheInput : Prop :=
  (∀ s : State, s.inLen ≤ s.params.inCap → ∃ t, exec .count s = .next t ∧
    (∀ x : Byte, freqOf t.freq x = ((List.range s.inLen).filter fun i => inByte s i = x).length) ∧
    (allSymbols.map (freqOf t.freq)).sum = s.inLen ∧
    t.symCount.toNat = (allSymbols.filter fun x => 1 ≤ freqOf t.freq x).length ∧
    t = { s with
      freq := t.freq, symCount := t.symCount, errcode := none,
      status := { s.status with done := true, err := false, freqValid := true } }) ∧
    ∀ s : State, s.params.inCap < s.inLen → exec .count s = .next (callError .capacity s)

/-- 42_tree_builder.md R123, R126: BUILD leaves a Huffman tree of `FREQ` in the node memory, record by record the one of
`BuildPlacesItsRecords`, or ends with Sequence or EmptyAlphabetPrecondition. The premise on the counts is the invariant of
10_state.md R23 (`FreqOk`). -/
def Obligations.BuildMakesTheTree : Prop :=
  (∀ s : State, s.params.wf = true → s.status.freqValid = true → FreqOk s → (∃ x, freqOf s.freq x ≠ 0) → ∃ t u,
      exec .build s = .next t ∧ buildTree s.params s.freq = some u ∧ HuffmanTree (freqOf s.freq) u ∧
      treeOperand t = some u ∧ TreeOk t ∧
      (∀ j, j < t.nodeCount → t.node[j]? = (buildRecords s.params s.freq).1[j]?) ∧
      t.nodeCount = 2 * s.symCount.toNat - 1 ∧ t.root = 2 * s.symCount.toNat - 2 ∧
      t = { s with
        node := t.node, nodeCount := t.nodeCount, root := t.root, errcode := none,
        status := { s.status with done := true, err := false, treeValid := true } }) ∧
    (∀ s : State, s.status.freqValid = true → (∀ x, freqOf s.freq x = 0) →
      exec .build s = .next (callError .emptyAlphabetPrecondition s)) ∧
    ∀ s : State, s.status.freqValid = false →
      exec .build s = .next { s with
        status := { s.status with done := false, err := true }, errcode := some .sequence }

/-- 43_code_table.md R138: GENCODE writes `codes(TREE)` as the whole code table, or ends with Sequence. The premise is the
invariant of 10_state.md R25 (`TreeOk`). A tree of at most 256 leaves has codes of at most 255 bits (R28). That GENCODE completes
on a larger tree, which a `TBITS_CAP` above 2568 admits, and stores codes longer than the 255 bits and lengths above the 8 bits
of R28 whole, is the model's choice (notes/assumptions/22.md). -/
def Obligations.GencodeWritesTheCodeTable : Prop :=
  (∀ (s : State) (u : Tree), s.status.treeValid = true → TreeOk s → treeOperand s = some u → ∃ t,
      exec .gencode s = .next t ∧
      (∀ x : Byte, t.code[x.toNat]? = match codes u x with
        | none => some ⟨0, []⟩
        | some p => some ⟨p.length, p⟩) ∧
      (∀ (x : Byte) (p : BitSeq), codes u x = some p → 1 ≤ p.length ∧ (u.leaves.length ≤ 256 → p.length ≤ 255)) ∧
      t = { s with
        code := t.code, errcode := none, status := { s.status with done := true, err := false, codeValid := true } }) ∧
    ∀ s : State, s.status.treeValid = false →
      exec .gencode s = .next { s with
        status := { s.status with done := false, err := true }, errcode := some .sequence }

/-- 44_tree_codec.md R146: SERIALIZE writes the serialized tree and its length, whatever `TBITS` held before, or ends with
Sequence. The premise is the invariant of 10_state.md R25 (`TreeOk`). That a `TBC` of 2^32 or more, which a `TBITS_CAP` of that
size admits, is kept whole is the model's choice (notes/assumptions/22.md). -/
def Obligations.SerializeWritesTheTreeBits : Prop :=
  (∀ (s : State) (u : Tree), s.status.treeValid = true → TreeOk s → treeOperand s = some u →
      (serialize u).length ≤ s.params.tbitsCap ∧
      exec .serialize s = .next { s with
        tbits := serialize u, tbc := (serialize u).length, errcode := none,
        status := { s.status with done := true, err := false, tbitsValid := true } }) ∧
    ∀ s : State, s.status.treeValid = false →
      exec .serialize s = .next { s with
        status := { s.status with done := false, err := true }, errcode := some .sequence }

/-- 45_bit_packer.md R168, 60_exceptions.md R215 (d): PACK writes `pack(TBITS)` to `OUT` from cell 0, every other cell as
before, or ends with Capacity when the bytes do not fit, with Sequence when there are no bits. The premise is the invariant
of 10_state.md R30 (`TbitsOk`). That no other cell of `OUT` changes is the model's choice (notes/assumptions/10.md). -/
def Obligations.PackWritesThePackedBits : Prop :=
  (∀ s : State, s.status.tbitsValid = true → TbitsOk s →
      (ceil8 s.tbc ≤ s.params.outCap → ∃ t, exec .pack s = .next t ∧
        t.outLen = ceil8 s.tbc ∧
        (∀ a, a < ceil8 s.tbc → t.outMem.read a = (pack s.tbits)[a]? ∧ (t.outMem.read a).isSome = true) ∧
        (∀ a, ceil8 s.tbc ≤ a → t.outMem.read a = s.outMem.read a) ∧
        t = { s with
          outMem := t.outMem, outLen := t.outLen, errcode := none,
          status := { s.status with done := true, err := false, outValid := true } }) ∧
      (s.params.outCap < ceil8 s.tbc → exec .pack s = .next (callError .capacity s))) ∧
    ∀ s : State, s.status.tbitsValid = false →
      exec .pack s = .next { s with
        status := { s.status with done := false, err := true }, errcode := some .sequence }

/-- 45_bit_packer.md R169, 60_exceptions.md R215: UNPACK writes all 8·`IN_LEN` bits of the input, or ends with Capacity when
the input is longer than `IN_CAP` or its bits do not fit `TBITS`. That a `TBC` of 2^32 or more, which a `TBITS_CAP` of that
size admits, is kept whole is the model's choice (notes/assumptions/22.md). -/
def Obligations.UnpackWritesTheInputBits : Prop :=
  (∀ s : State, s.inLen ≤ s.params.inCap → 8 * s.inLen ≤ s.params.tbitsCap →
      exec .unpack s = .next { s with
        tbits := unpack ((List.range s.inLen).map (inByte s)), tbc := 8 * s.inLen, errcode := none,
        status := { s.status with done := true, err := false, tbitsValid := true } }) ∧
    ∀ s : State, (s.params.inCap < s.inLen ∨ s.params.tbitsCap < 8 * s.inLen) →
      exec .unpack s = .next (callError .capacity s)

/-- 46_codec_facade.md R181, 60_exceptions.md R215, R216: EMIT writes the container of the input's code words and their
exact number of bits; it ends with Capacity when the input is longer than `IN_CAP` or the container does not fit, with
MissingCode when an input byte has no code, with Sequence when a product is missing. The premises are the invariants of
10_state.md R28, R30 (`CodeOk`, `TbitsOk`). With a `TBITS_CAP` of at most 2568 (2560 by default) no code is longer than 255
bits, so `ENC_BITS` fits its width, and `TBC` fits the length field. Where they do not fit, the two are free values
(notes/assumptions/22.md), of which only the width is said. That no other cell of `OUT` changes is the model's choice
(notes/assumptions/10.md). -/
def Obligations.EmitWritesTheContainer : Prop :=
  (∀ (s : State) (enc : BitSeq), s.status.codeValid = true → s.status.tbitsValid = true →
      CodeOk s → TbitsOk s → s.inLen ≤ s.params.inCap →
      (∀ i, i < s.inLen → (s.code.getD (inByte s i).toNat CodeEntry.absent).len ≠ 0) →
      enc = (List.range s.inLen).flatMap (fun i => (s.code.getD (inByte s i).toNat CodeEntry.absent).bits) →
      let n := 4 + ceil8 s.tbc + ceil8 enc.length
      (s.params.wf = true → s.params.tbitsCap ≤ 2568 → enc.length < 2 ^ s.params.bitcntW ∧ s.tbc < 2 ^ 32) ∧
      (n ≤ s.params.outCap → ∃ (t : State) (w : Word), exec .emit s = .next t ∧
        t.outLen = n ∧ (enc.length < 2 ^ s.params.bitcntW → t.encBits = enc.length) ∧
        t.encBits < 2 ^ s.params.bitcntW ∧ (s.tbc < 2 ^ 32 → w.toNat = s.tbc) ∧
        (∀ a, a < n → t.outMem.read a = (be32 w ++ pack s.tbits ++ pack enc)[a]? ∧
          (t.outMem.read a).isSome = true) ∧
        (∀ a, n ≤ a → t.outMem.read a = s.outMem.read a) ∧
        t = { s with
          outMem := t.outMem, outLen := t.outLen, encBits := t.encBits, errcode := none,
          status := { s.status with done := true, err := false, outValid := true } }) ∧
      (s.params.outCap < n → exec .emit s = .next (callError .capacity s))) ∧
    (∀ s : State, s.status.codeValid = true → s.status.tbitsValid = true → s.inLen ≤ s.params.inCap →
      (∃ i, i < s.inLen ∧ (s.code.getD (inByte s i).toNat CodeEntry.absent).len = 0) →
      exec .emit s = .next (callError .missingCode s)) ∧
    (∀ s : State, s.status.codeValid = true → s.status.tbitsValid = true → s.params.inCap < s.inLen →
      exec .emit s = .next (callError .capacity s)) ∧
    ∀ s : State, (s.status.codeValid = false ∨ s.status.tbitsValid = false) →
      exec .emit s = .next { s with
        status := { s.status with done := false, err := true }, errcode := some .sequence }

/-- 46_codec_facade.md R182, 60_exceptions.md R211 (a), (b), R215, R218: PARSE reads the length field and the tree section;
it ends with Capacity when the input is longer than `IN_CAP`, then with MalformedContainer when the container is cut short,
then with Capacity when the tree bits do not fit `TBITS`. -/
def Obligations.ParseReadsTheTreeSection : Prop :=
  ∀ (s : State) (len n : Nat),
    len = (inByte s 0).toNat * 2 ^ 24 + (inByte s 1).toNat * 2 ^ 16 + (inByte s 2).toNat * 2 ^ 8 + (inByte s 3).toNat →
    n = (len + 7) / 8 →
    (s.params.inCap < s.inLen → exec .parse s = .next (callError .capacity s)) ∧
    (s.inLen ≤ s.params.inCap →
      (s.inLen < 4 → exec .parse s = .next (callError .malformedContainer s)) ∧
      (4 ≤ s.inLen → s.inLen - 4 < n → exec .parse s = .next (callError .malformedContainer s)) ∧
      (4 ≤ s.inLen → n ≤ s.inLen - 4 → s.params.tbitsCap < len →
        exec .parse s = .next (callError .capacity s)) ∧
      (4 ≤ s.inLen → n ≤ s.inLen - 4 → len ≤ s.params.tbitsCap → ∃ t, exec .parse s = .next t ∧
        t.tbits = (unpack ((List.range n).map fun i => inByte s (4 + i))).take len ∧ t.tbits.length = len ∧
        t.tbc = len ∧ t.dataOff = 4 + n ∧
        t = { s with
          tbits := t.tbits, tbc := t.tbc, dataOff := t.dataOff, errcode := none,
          status := { s.status with done := true, err := false, tbitsValid := true, parseValid := true } }))

/-- 44_tree_codec.md R153, R154, R155: DESERIALIZE rebuilds the tree with every weight `DESER_WEIGHT`, its records
numbered in pre-order from 0; it ends with MalformedContainer when the bits are no tree, with Sequence when there are
none. The premise is the invariant of 10_state.md R30 (`TbitsOk`). That a `NODE_COUNT` of 1024 or more, which a `NODE_CAP` above
1023 admits, is kept whole is the model's choice (notes/assumptions/22.md). -/
def Obligations.DeserializeRebuildsTheTree : Prop :=
  (∀ (s : State) (u : Tree), s.params.wf = true → s.status.tbitsValid = true → TbitsOk s →
      deserialize s.params s.tbits = some u → ∃ t,
      exec .deserialize s = .next t ∧ treeOperand t = some u ∧ u.zeroWeights s.params = u ∧ TreeOk t ∧
      t.nodeCount = u.size ∧ t.root = 0 ∧
      visited t.node t.nodeCount 0 = List.range u.size ∧
      t = { s with
        node := t.node, nodeCount := t.nodeCount, root := t.root, errcode := none,
        status := { s.status with done := true, err := false, treeValid := true } }) ∧
    (∀ s : State, s.status.tbitsValid = true → deserialize s.params s.tbits = none →
      exec .deserialize s = .next (callError .malformedContainer s)) ∧
    ∀ s : State, s.status.tbitsValid = false →
      exec .deserialize s = .next { s with
        status := { s.status with done := false, err := true }, errcode := some .sequence }

/-- 46_codec_facade.md R185, R186: DECODE, in both modes, walks the tree over the data section, all of it or its first
`DATA_LIMIT` bits (the walk itself is `UnfinishedCodeWordIsDropped`); it ends with Capacity when the input is longer than
`IN_CAP` or the symbols do not fit, with Sequence when a product is missing. The premise is the invariant of 10_state.md R25
(`TreeOk`). That no other cell of `OUT` changes is the model's choice (notes/assumptions/10.md). -/
def Obligations.DecodeWalksTheDataSection : Prop :=
  (∀ (s : State) (lim : Bool) (u : Tree) (all bits : BitSeq), s.status.treeValid = true →
      s.status.parseValid = true → TreeOk s → treeOperand s = some u → s.inLen ≤ s.params.inCap →
      all = unpack ((List.range (s.inLen - s.dataOff)).map fun i => inByte s (s.dataOff + i)) →
      bits = (if lim = true then all.take s.dataLimit else all) →
      ((walk u bits).length ≤ s.params.outCap → ∃ t, exec (.decode lim) s = .next t ∧
        t.outLen = (walk u bits).length ∧
        (∀ a, a < (walk u bits).length → t.outMem.read a = (walk u bits)[a]? ∧ (t.outMem.read a).isSome = true) ∧
        (∀ a, (walk u bits).length ≤ a → t.outMem.read a = s.outMem.read a) ∧
        t = { s with
          outMem := t.outMem, outLen := t.outLen, errcode := none,
          status := { s.status with done := true, err := false, outValid := true } }) ∧
      (s.params.outCap < (walk u bits).length → exec (.decode lim) s = .next (callError .capacity s))) ∧
    (∀ (s : State) (lim : Bool), s.status.treeValid = true → s.status.parseValid = true →
      s.params.inCap < s.inLen → exec (.decode lim) s = .next (callError .capacity s)) ∧
    ∀ (s : State) (lim : Bool), (s.status.treeValid = false ∨ s.status.parseValid = false) →
      exec (.decode lim) s = .next { s with
        status := { s.status with done := false, err := true }, errcode := some .sequence }

/-- 46_codec_facade.md R187, R194: COMPRESS of an input that is not empty computes `compress(IN)`, leaves the products
of every stage (the counts, `SYM_COUNT`, the tree, the codes, the tree bits), and ends with Capacity exactly when the input
is longer than `IN_CAP` or the container does not fit. That no other cell of `OUT` changes is the model's choice
(notes/assumptions/10.md). -/
def Obligations.CompressComputesTheContainer : Prop :=
  (∀ s : State, s.params.wf = true → s.inLen ≠ 0 → s.inLen ≤ s.params.inCap → ∃ u out e,
    buildTree s.params (histogram (inputBytes s)) = some u ∧
    HuffmanTree (fun x => (inputBytes s).count x) u ∧ compress s.params (inputBytes s) = some (out, e) ∧
    (out.length ≤ s.params.outCap → ∃ t, exec .compress s = .next t ∧
      t.outLen = out.length ∧ t.encBits = e ∧
      (∀ a, a < out.length → out[a]? = t.outMem.read a) ∧ (∀ a, out.length ≤ a → t.outMem.read a = s.outMem.read a) ∧
      (∀ x, freqOf t.freq x = (inputBytes s).count x) ∧ t.symCount.toNat = (alphabet (freqOf t.freq)).length ∧
      treeOperand t = some u ∧ TreeOk t ∧
      (∀ j, j < t.nodeCount → t.node[j]? = (buildRecords s.params t.freq).1[j]?) ∧
      (∀ x : Byte, t.code[x.toNat]? = match codes u x with
        | none => some ⟨0, []⟩
        | some p => some ⟨p.length, p⟩) ∧ t.tbits = serialize u ∧ t.tbc = (serialize u).length ∧
      t.dataOff = 0 ∧ t.status.image = 0x2F1 ∧
      t = { s with
        outMem := t.outMem, outLen := t.outLen, freq := t.freq, symCount := t.symCount, node := t.node,
        nodeCount := t.nodeCount, root := t.root, code := t.code, tbits := t.tbits, tbc := t.tbc, encBits := t.encBits,
        dataOff := t.dataOff, status := t.status, errcode := none }) ∧
    (s.params.outCap < out.length → exec .compress s = .next (callError .capacity s))) ∧
    ∀ s : State, s.params.inCap < s.inLen → exec .compress s = .next (callError .capacity s)

/-- 46_codec_facade.md R188: COMPRESS of the empty input. That no other cell of `OUT` changes is the model's choice
(notes/assumptions/10.md). -/
def Obligations.CompressOfEmptyInput : Prop :=
  ∀ s : State, s.inLen = 0 → ∃ t, exec .compress s = .next t ∧
    t.outLen = 4 ∧ (∀ a, a < 4 → t.outMem.read a = some 0) ∧ (∀ a, 4 ≤ a → t.outMem.read a = s.outMem.read a) ∧
    t.encBits = 0 ∧ t.tbc = 0 ∧ t.tbits = [] ∧ t.symCount = 0 ∧ (∀ x, freqOf t.freq x = 0) ∧ t.nodeCount = 0 ∧
    t.root = 0 ∧ t.node = List.replicate s.params.nodeCap (.internal 0 0 0) ∧
    (∀ i, i < 256 → t.code[i]? = some ⟨0, []⟩) ∧ t.dataOff = 0 ∧ t.status.image = 0x211 ∧
    t = { s with
      outMem := t.outMem, outLen := t.outLen, freq := t.freq, symCount := t.symCount, node := t.node,
      nodeCount := t.nodeCount, root := t.root, code := t.code, tbits := t.tbits, tbc := t.tbc, encBits := t.encBits,
      dataOff := t.dataOff, status := t.status, errcode := none }

/-- 46_codec_facade.md R189, R194: DECOMPRESS, in both modes, computes `decompress(IN, lim)`: its bytes go to `OUT`,
its failure is the command's error, and an input longer than `IN_CAP` or bytes that do not fit end it with Capacity. The
records of the tree stand in pre-order from 0 (44_tree_codec.md R153, R154), the root at 0 (R155). That no other cell of
`OUT` changes is the model's choice (notes/assumptions/10.md). -/
def Obligations.DecompressComputesTheBytes : Prop :=
  (∀ (s : State) (lim : Bool), s.params.wf = true → s.inLen ≤ s.params.inCap →
    let r := decompress s.params (inputBytes s) (if lim = true then some s.dataLimit else none)
    (∀ e, r = .error e → exec (.decompress lim) s = .next (callError e s)) ∧
    (∀ out, r = .ok out → s.params.outCap < out.length → exec (.decompress lim) s = .next (callError .capacity s)) ∧
    ∀ out, r = .ok out → out.length ≤ s.params.outCap → ∃ t, exec (.decompress lim) s = .next t ∧
      t.outLen = out.length ∧ (∀ a, a < out.length → out[a]? = t.outMem.read a) ∧
      (∀ a, out.length ≤ a → t.outMem.read a = s.outMem.read a) ∧
      t.tbc = lengthField (inputBytes s) ∧ t.dataOff = 4 + ceil8 t.tbc ∧
      t.encBits = 0 ∧ t.symCount = 0 ∧ (∀ x, freqOf t.freq x = 0) ∧ (∀ i, i < 256 → t.code[i]? = some ⟨0, []⟩) ∧
      t.tbits = (unpack (((inputBytes s).drop 4).take (ceil8 t.tbc))).take t.tbc ∧ t.root = 0 ∧
      (t.tbc ≠ 0 → TreeOk t ∧ deserialize s.params t.tbits = treeOperand t ∧
        visited t.node t.nodeCount 0 = List.range t.nodeCount) ∧
      (t.tbc = 0 → t.nodeCount = 0 ∧ t.node = List.replicate s.params.nodeCap (.internal 0 0 0)) ∧
      t.status.image = (if t.tbc = 0 then 0x381 else 0x3A1) ∧
      t = { s with
        outMem := t.outMem, outLen := t.outLen, freq := t.freq, symCount := t.symCount, node := t.node,
        nodeCount := t.nodeCount, root := t.root, code := t.code, tbits := t.tbits, tbc := t.tbc, encBits := t.encBits,
        dataOff := t.dataOff, status := t.status, errcode := none }) ∧
    ∀ (s : State) (lim : Bool), s.params.inCap < s.inLen →
      exec (.decompress lim) s = .next (callError .capacity s)

/-- 46_codec_facade.md R190: a zero-length tree gives empty output without a tree walk, and the bytes after the header
are ignored. That the cells of `OUT` stay is the model's choice (notes/assumptions/10.md). -/
def Obligations.ZeroLengthTreeGivesEmptyOutput : Prop :=
  ∀ (s : State) (lim : Bool), 4 ≤ s.inLen → s.inLen ≤ s.params.inCap → (∀ i, i < 4 → inByte s i = 0) → ∃ t,
    exec (.decompress lim) s = .next t ∧ t.outLen = 0 ∧ t.nodeCount = 0 ∧ t.root = 0 ∧ t.tbc = 0 ∧ t.dataOff = 4 ∧
    t.node = List.replicate s.params.nodeCap (.internal 0 0 0) ∧ t.status.image = 0x381 ∧ t.outMem = s.outMem

/-! ## Tree tokens -/

/-- 44_tree_codec.md R150, R154, the model's reading of one token (notes/assumptions/8.md): a LEAF token takes the next free
record, the place waiting for it (root, left or right) holds its index, and the tree closes when no place is left. That a
record beyond `NODE_CAP` ends the deserialization at once as MalformedContainer is the model's reading of R154
(notes/assumptions/18.md), and so is it that a `NODE_COUNT` beyond 10 bits is kept whole (notes/assumptions/22.md). The premise
on the node memory is its size, `NODE_CAP` (10_state.md R24). -/
def Obligations.LeafTokenPlacesALeaf : Prop :=
  (∀ (s : State) (c : DeserCtx) (x : Byte), s.deser = some c → s.node.length = s.params.nodeCap →
    s.nodeCount < s.params.nodeCap → ∃ t,
    exec (.treeTokenLeaf x) s = .next t ∧ t.nodeCount = s.nodeCount + 1 ∧
    t.node[s.nodeCount]? = some (.leaf s.params.deserWeight x) ∧
    (c.slot = .root → t.root = s.nodeCount) ∧
    (∀ (p l r w : Nat), c.slot = .left p → p < s.nodeCount →
      s.node[p]? = some (.internal w l r) →
      t.node[p]? = some (.internal w s.nodeCount r) ∧ t.root = s.root) ∧
    (∀ (p l r w : Nat), c.slot = .right p → p < s.nodeCount →
      s.node[p]? = some (.internal w l r) →
      t.node[p]? = some (.internal w l s.nodeCount) ∧ t.root = s.root) ∧
    (∀ i, i ≠ s.nodeCount → c.slot ≠ .left i → c.slot ≠ .right i →
      t.node[i]? = s.node[i]?) ∧
    (c.rest = [] → t.deser = none ∧
      t.status = { s.status with done := true, err := false, treeValid := true }) ∧
    (∀ (q : Slot) (qs : List Slot), c.rest = q :: qs → t.deser = some ⟨c.bits, q, qs⟩ ∧ t.status = s.status) ∧
    t = { s with
      node := t.node, nodeCount := t.nodeCount, root := t.root, status := t.status, deser := t.deser }) ∧
    (∀ (s : State) (c : DeserCtx) (x : Byte), s.deser = some c → s.params.nodeCap ≤ s.nodeCount →
      exec (.treeTokenLeaf x) s = .next (callError .malformedContainer { s with deser := none })) ∧
    ∀ (s : State) (x : Byte), s.deser = none →
      exec (.treeTokenLeaf x) s = exec (.treeTokenLeaf x) (startDeserialize [] s)

/-- 44_tree_codec.md R150, R154, the model's reading of one token (notes/assumptions/8.md): an INTERNAL token takes the next
free record, and the places to fill next are its left child, then its right child, then those that were waiting. That a
record beyond `NODE_CAP` ends the deserialization at once as MalformedContainer is the model's reading of R154
(notes/assumptions/18.md), and so is it that a `NODE_COUNT` beyond 10 bits is kept whole (notes/assumptions/22.md). The premise
on the node memory is its size, `NODE_CAP` (10_state.md R24). -/
def Obligations.InternalTokenOpensTwoPlaces : Prop :=
  (∀ (s : State) (c : DeserCtx), s.deser = some c → s.node.length = s.params.nodeCap →
    s.nodeCount < s.params.nodeCap → ∃ t,
    exec .treeTokenInternal s = .next t ∧ t.nodeCount = s.nodeCount + 1 ∧
    t.node[s.nodeCount]? = some (.internal s.params.deserWeight 0 0) ∧
    t.deser = some ⟨c.bits, .left s.nodeCount,
      .right s.nodeCount :: c.rest⟩ ∧
    (c.slot = .root → t.root = s.nodeCount) ∧
    (∀ (p l r w : Nat), c.slot = .left p → p < s.nodeCount →
      s.node[p]? = some (.internal w l r) →
      t.node[p]? = some (.internal w s.nodeCount r) ∧ t.root = s.root) ∧
    (∀ (p l r w : Nat), c.slot = .right p → p < s.nodeCount →
      s.node[p]? = some (.internal w l r) →
      t.node[p]? = some (.internal w l s.nodeCount) ∧ t.root = s.root) ∧
    (∀ i, i ≠ s.nodeCount → c.slot ≠ .left i → c.slot ≠ .right i →
      t.node[i]? = s.node[i]?) ∧
    t = { s with node := t.node, nodeCount := t.nodeCount, root := t.root, deser := t.deser }) ∧
    (∀ (s : State) (c : DeserCtx), s.deser = some c → s.params.nodeCap ≤ s.nodeCount →
      exec .treeTokenInternal s = .next (callError .malformedContainer { s with deser := none })) ∧
    ∀ s : State, s.deser = none → exec .treeTokenInternal s = exec .treeTokenInternal (startDeserialize [] s)

/-- DESERIALIZE as one atomic command (44_tree_codec.md R155) and token by token (30_encoding.md R86, R150, R154;
notes/assumptions/8.md) end in the same state, in success and in failure. -/
def Obligations.DeserializeIsItsTokensInOrder : Prop :=
  ∀ s : State, s.params.wf = true → s.deser = none → s.status.tbitsValid = true →
    s.tbits.length ≤ s.params.tbitsCap →
    runTokens (s.tbits.length + 1) (startDeserialize s.tbits s) = exec .deserialize s

/-! ## Errors -/

/-- 60_exceptions.md R219: what a call error does, field by field. -/
def Obligations.CallErrorClearsTheCallState : Prop :=
  ∀ (e : ErrKind) (s : State), e.isCallError = true →
    (callError e s).status = ⟨false, true, false, false, false, false, false, false⟩ ∧
    (callError e s).errcode = some e ∧ (callError e s).outLen = 0 ∧ (callError e s).symCount = 0 ∧
    (callError e s).nodeCount = 0 ∧ (callError e s).root = 0 ∧ (callError e s).tbits = [] ∧ (callError e s).tbc = 0 ∧
    (callError e s).encBits = 0 ∧ (callError e s).dataOff = 0 ∧
    (∀ i, i < 256 → (callError e s).freq[i]? = some 0 ∧ (callError e s).code[i]? = some ⟨0, []⟩) ∧
    (callError e s).node = List.replicate s.params.nodeCap (.internal 0 0 0) ∧
    (callError e s).inMem = s.inMem ∧ (callError e s).inLen = s.inLen ∧ (callError e s).dataLimit = s.dataLimit

/-- 60_exceptions.md R210: which commands raise which error; `ERRCODE` after a command names one of those. -/
def Obligations.ErrorsComeOnlyFromTheirCommands : Prop :=
  ∀ (i : Instr) (s t : State), s.params.wf = true → i.isCommand = true → exec i s = .next t →
    (t.errcode = some .malformedContainer → i = .parse ∨ i = .deserialize ∨ ∃ l, i = .decompress l) ∧
    (t.errcode = some .emptyAlphabetPrecondition → i = .build) ∧
    t.errcode ≠ some .illegalCommand ∧
    (t.errcode = some .sequence → i = .build ∨ i = .gencode ∨ i = .serialize ∨ i = .pack ∨ i = .emit ∨
      i = .deserialize ∨ ∃ l, i = .decode l) ∧
    (t.errcode = some .capacity → i = .count ∨ i = .unpack ∨ i = .pack ∨ i = .emit ∨ i = .parse ∨ i = .compress ∨
      (∃ l, i = .decode l) ∨ ∃ l, i = .decompress l) ∧
    (t.errcode = some .missingCode → i = .emit)

/-- 10_state.md R35, R36, 40_control.md R100: after any command exactly one of `DONE` and `ERR` is 1, and `ERRCODE` is 0
exactly when `ERR` = 0. -/
def Obligations.ExactlyOneOfDoneAndErr : Prop :=
  ∀ (i : Instr) (s t : State), i.isCommand = true → exec i s = .next t →
    t.status.err = !t.status.done ∧ t.errcode.isSome = t.status.err

/-- 60_exceptions.md R219, R220: a command that ends with an error leaves either the call state cleared (call errors)
or everything as it was (interface errors). That an error leaves the cells of `OUT` is the model's choice
(notes/assumptions/10.md). -/
def Obligations.FailedCommandLeavesNoPartialResult : Prop :=
  ∀ (i : Instr) (s t : State) (e : ErrKind), s.params.wf = true → i.isCommand = true → exec i s = .next t →
    t.errcode = some e →
    t = (if e.isCallError = true then callError e s
      else { s with status := { s.status with done := false, err := true }, errcode := some e })

/-! ## The whole machine -/

/-- 10_state.md R21, R32, 30_encoding.md R83: the engine never writes `IN`, `IN_LEN` or `DATA_LIMIT`, whatever the
instruction; nor do the parameters of 00_scope.md R6 change, which the model holds in `State` (notes/assumptions/21.md). -/
def Obligations.EngineNeverWritesItsOperands : Prop :=
  ∀ (i : Instr) (s t : State), exec i s = .next t →
    t.inMem = s.inMem ∧ t.inLen = s.inLen ∧ t.dataLimit = s.dataLimit ∧ t.params = s.params

/-- 10_state.md R22, 20_memory.md R74: only PACK, EMIT, DECODE, COMPRESS and DECOMPRESS write `OUT`. That the other
instructions leave the cells even where they make them unreadable is the model's choice (notes/assumptions/10.md). -/
def Obligations.OnlyFiveCommandsWriteOut : Prop :=
  ∀ (i : Instr) (s t : State), exec i s = .next t → i ≠ .pack → i ≠ .emit → (∀ l, i ≠ .decode l) → i ≠ .compress →
    (∀ l, i ≠ .decompress l) → ∀ a, t.outMem.read a = s.outMem.read a

/-- 46_codec_facade.md R193: what the host sees of COMPRESS depends on the input and the parameters alone; of DECOMPRESS on
the input, the LIM bit, the parameters and, when `LIM` = 1, `DATA_LIMIT`. -/
def Obligations.CompositeCommandsArePure : Prop :=
  (∀ s s' t t' : State, s.params.wf = true → s.params = s'.params → inputBytes s = inputBytes s' →
      exec .compress s = .next t → exec .compress s' = .next t' → resultOf t = resultOf t') ∧
    ∀ (lim : Bool) (s s' t t' : State), s.params.wf = true → s.params = s'.params → inputBytes s = inputBytes s' →
      (lim = true → s.dataLimit = s'.dataLimit) →
      exec (.decompress lim) s = .next t → exec (.decompress lim) s' = .next t' → resultOf t = resultOf t'

/-- 46_codec_facade.md R191 on the machine: COMPRESS, then DECOMPRESS with `LIM` = 1 and `DATA_LIMIT` = `ENC_BITS` on what
it wrote, gives the input back, also on a core with other parameters, if the container fits its `IN` and the input fits its
`OUT`. -/
def Obligations.MachineRoundTrip : Prop :=
  ∀ s s1 s2 : State, s.params.wf = true → s2.params.wf = true → exec .compress s = .next s1 → s1.errcode = none →
    s2.inLen = s1.outLen → s1.outLen ≤ s2.params.inCap → s.inLen ≤ s2.params.outCap →
    (∀ a, a < s1.outLen → s2.inMem.read a = s1.outMem.read a) → s2.dataLimit = s1.encBits →
    ∃ s3, exec (.decompress true) s2 = .next s3 ∧ s3.errcode = none ∧ s3.outLen = s.inLen ∧
      ∀ a, a < s.inLen → s3.outMem.read a = some (inByte s a)

/-! ## The register window and the host -/

/-- 10_state.md R37: every register stands at its offset, and an aligned offset that is no register's is reserved. -/
def Obligations.RegisterMapIsExact : Prop :=
  (∀ r : Reg, regAt (regOffset r) = some r ∧ regOffset r % 4 = 0) ∧
    (∀ (off : Nat) (r : Reg), off % 4 = 0 → regAt off = some r → regOffset r = off) ∧
    regAt 0x000 = some .cmd ∧ regAt 0x004 = some .status ∧ regAt 0x008 = some .errcode ∧ regAt 0x00C = some .inLen ∧
    regAt 0x010 = some .outLen ∧ regAt 0x014 = some .tbc ∧ regAt 0x018 = some .root ∧ regAt 0x01C = some .nodeCount ∧
    regAt 0x020 = some .encBitsLo ∧ regAt 0x024 = some .encBitsHi ∧ regAt 0x028 = some .dataLimitLo ∧
    regAt 0x02C = some .dataLimitHi ∧ regAt 0x030 = some .dataOff ∧ regAt 0x034 = some .symCount ∧
    (∀ s : Byte, regAt (0x0400 + 4 * s.toNat) = some (.freq s) ∧ regAt (0x0800 + 4 * s.toNat) = some (.codeLen s)) ∧
    (∀ (s : Byte) (w : Fin 8), regAt (0x1000 + 32 * s.toNat + 4 * w.val) = some (.codeBits s w)) ∧
    (∀ i : Fin 511, regAt (0x3000 + 8 * i.val) = some (.node i false) ∧
      regAt (0x3000 + 8 * i.val + 4) = some (.node i true)) ∧
    ∀ w : Fin 80, regAt (0x4000 + 4 * w.val) = some (.tbits w)

/-- 10_state.md R38, 20_memory.md R65, R68: a host read of an aligned register word gives the register, 0 at a reserved
offset, and changes no state of the core; a narrower or misaligned access is refused. The list of values read is
the model's (notes/assumptions/5.md), the refusals are notes/assumptions/4.md. -/
def Obligations.HostReadsChangeNothing : Prop :=
  ∀ (s : State) (size : AccessSize) (off : Word),
    (size = .word → off.toNat % 4 = 0 → hostAccess (.readReg size off) s =
      .next { s with reads := (match regAt off.toNat with
        | none => 0
        | some r => readReg s r) :: s.reads }) ∧
    (size ≠ .word → hostAccess (.readReg size off) s = .refused .regAccessNarrow) ∧
    (size = .word → off.toNat % 4 ≠ 0 → hostAccess (.readReg size off) s = .refused .regAccessMisaligned)

/-- 10_state.md R38, R32, 20_memory.md R65: of the registers other than `CMD` only `IN_LEN` and the two words of
`DATA_LIMIT` take a host write; at every other aligned offset nothing changes. A write narrower than 32 bits or at an
offset that is not a multiple of 4 is refused (notes/assumptions/4.md). That bits beyond the register's width are dropped
when `LEN_W` < 32 or `BITCNT_W` < 64 is the model's choice (notes/assumptions/21.md). -/
def Obligations.HostWritesOnlyOperandRegisters : Prop :=
  (∀ (s : State) (off v : Word), off ≠ 0 → off.toNat % 4 = 0 → ∃ t,
      hostAccess (.writeReg .word off v) s = .next t ∧
      t.inLen = (if off = 0x00C then v.toNat % 2 ^ s.params.lenW else s.inLen) ∧
      t.dataLimit = (if off = 0x028 then (2 ^ 32 * (s.dataLimit / 2 ^ 32) + v.toNat) % 2 ^ s.params.bitcntW
        else if off = 0x02C then (2 ^ 32 * v.toNat + s.dataLimit % 2 ^ 32) % 2 ^ s.params.bitcntW
        else s.dataLimit) ∧
      t = { s with inLen := t.inLen, dataLimit := t.dataLimit }) ∧
    ∀ (s : State) (size : AccessSize) (off v : Word),
      (size ≠ .word → hostAccess (.writeReg size off v) s = .refused .regAccessNarrow) ∧
      (size = .word → off.toNat % 4 ≠ 0 → hostAccess (.writeReg size off v) s = .refused .regAccessMisaligned)

/-- What the host reads from every register but `STATUS`. 10_state.md R34, R36 with the numbers of 60_exceptions.md R210,
R21 to R24, R28, R30 to R33: `CMD` (always 0), `ERRCODE`, the lengths and counts, the two words of `ENC_BITS` and of
`DATA_LIMIT`, `FREQ[s]`. R26, R29, R30: the window images of a node record, of a code table entry and of the tree bits,
bit by bit. A value wider than its field of the window reads as a free word, of which nothing is said; that `NODE_COUNT` and
`ROOT` are shown whole beyond their 10 and 9 bits is the model's choice (both notes/assumptions/22.md).
The last clause says that at the defaults of 00_scope.md R6, and at every parameters of no greater widths and `TBITS_CAP`, every
value fits in every state that meets the invariants: `ROOT`, `NODE_COUNT` and the child indices of every record too, since
with `TREE_VALID` = 0 they are 0 (R42, 40_control.md R102, 60_exceptions.md R219). -/
def Obligations.WindowImages : Prop :=
  (∀ s : State, readReg s .cmd = 0 ∧
      readReg s .errcode = (match s.errcode with
        | none => 0
        | some .malformedContainer => 1
        | some .emptyAlphabetPrecondition => 2
        | some .illegalCommand => 3
        | some .sequence => 4
        | some .capacity => 5
        | some .missingCode => 6) ∧
      (s.inLen < 2 ^ 32 → (readReg s .inLen).toNat = s.inLen) ∧ (s.outLen < 2 ^ 32 → (readReg s .outLen).toNat = s.outLen) ∧
      (s.tbc < 2 ^ 32 → (readReg s .tbc).toNat = s.tbc) ∧ (s.dataOff < 2 ^ 32 → (readReg s .dataOff).toNat = s.dataOff) ∧
      (s.root < 2 ^ 32 → (readReg s .root).toNat = s.root) ∧
      (s.nodeCount < 2 ^ 32 → (readReg s .nodeCount).toNat = s.nodeCount) ∧
      (readReg s .symCount).toNat = s.symCount.toNat ∧
      (readReg s .encBitsLo).toNat = s.encBits % 2 ^ 32 ∧
      (s.encBits < 2 ^ 64 → (readReg s .encBitsHi).toNat = s.encBits / 2 ^ 32) ∧
      (readReg s .dataLimitLo).toNat = s.dataLimit % 2 ^ 32 ∧
      (s.dataLimit < 2 ^ 64 → (readReg s .dataLimitHi).toNat = s.dataLimit / 2 ^ 32) ∧
      ∀ x : Byte, freqOf s.freq x < 2 ^ 32 → (readReg s (.freq x)).toNat = freqOf s.freq x) ∧
    (∀ (s : State) (i : Fin 511) (w : Nat) (x : Byte), s.node[i.val]? = some (.leaf w x) →
      (w < 2 ^ 32 → (readReg s (.node i false)).toNat = w) ∧ (readReg s (.node i true)).toNat = 2 ^ 31 + x.toNat) ∧
    (∀ (s : State) (i : Fin 511) (w l r : Nat), s.node[i.val]? = some (.internal w l r) →
      (w < 2 ^ 32 → (readReg s (.node i false)).toNat = w) ∧
      (l < 512 → r < 512 → (readReg s (.node i true)).toNat = l * 2 ^ 16 + r)) ∧
    (∀ (s : State) (x : Byte) (e : CodeEntry), s.code[x.toNat]? = some e →
      (e.len ≤ 255 → (readReg s (.codeLen x)).toNat = e.len) ∧
      (e.bits.length ≤ 255 → ∀ (j : Nat) (h : j < 256),
        (readReg s (.codeBits x ⟨j / 32, by omega⟩)).getLsbD (31 - j % 32) = e.bits.getD j false)) ∧
    (∀ (s : State) (j : Nat) (h : j < 2560),
      (readReg s (.tbits ⟨j / 32, by omega⟩)).getLsbD (31 - j % 32) = s.tbits.getD j false) ∧
    ∀ s : State, Inv s → s.params.lenW ≤ 32 → s.params.cntW ≤ 32 → s.params.bitcntW ≤ 64 → s.params.tbitsCap ≤ 2560 →
      s.inLen < 2 ^ 32 ∧ s.outLen < 2 ^ 32 ∧ s.tbc < 2 ^ 32 ∧ s.dataOff < 2 ^ 32 ∧ s.encBits < 2 ^ 64 ∧
      s.dataLimit < 2 ^ 64 ∧ (∀ x, freqOf s.freq x < 2 ^ 32) ∧ (∀ n ∈ s.node, n.weight < 2 ^ 32) ∧
      (∀ (x : Byte) (e : CodeEntry), s.code[x.toNat]? = some e → e.len ≤ 255 ∧ e.bits.length = e.len) ∧
      s.root < 512 ∧ s.nodeCount ≤ 511 ∧
      (∀ i w l r : Nat, s.node[i]? = some (.internal w l r) → l < 512 ∧ r < 512) ∧
      (s.status.treeValid = true → s.root < s.nodeCount ∧
        ∀ i w l r : Nat, i < s.nodeCount → s.node[i]? = some (.internal w l r) → l < s.nodeCount ∧ r < s.nodeCount)

/-- 10_state.md R35: the bits of `STATUS`. -/
def Obligations.StatusImage : Prop :=
  ∀ (s : State) (n : Nat), (readReg s .status).getLsbD n =
    match n with
    | 0 => s.status.done
    | 1 => s.status.err
    | 4 => s.status.freqValid
    | 5 => s.status.treeValid
    | 6 => s.status.codeValid
    | 7 => s.status.tbitsValid
    | 8 => s.status.parseValid
    | 9 => s.status.outValid
    | _ => false

/-- 10_state.md R22: the host reads the byte of `OUT[i]` in the valid part; any read of `OUT` changes no state of the
core. The byte outside the valid part is free, so nothing is said of it. The free byte is notes/assumptions/3.md,
the list of values read notes/assumptions/5.md. -/
def Obligations.HostReadsOut : Prop :=
  ∀ (s : State) (i : Nat), ∃ b : Byte,
    hostAccess (.readOut i) s = .next { s with reads := b.setWidth 32 :: s.reads } ∧
    ∀ c, s.status.outValid = true → i < s.outLen → s.outMem.read i = some c → b = c

/-- 20_memory.md R60 (b), R68, R71: a host write of `IN[i]` stores the byte there and changes nothing else, and the
engine then reads it; a cell that does not exist faults. The fault is the model's choice (notes/assumptions/14.md). -/
def Obligations.HostWritesIn : Prop :=
  ∀ (s : State) (i : Nat) (b : Byte),
    (i < s.params.inCap → ∃ t, hostAccess (.writeIn i b) s = .next t ∧ inByte t i = b ∧
      (∀ a, a ≠ i → t.inMem.read a = s.inMem.read a) ∧ t = { s with inMem := t.inMem }) ∧
    (s.params.inCap ≤ i → hostAccess (.writeIn i b) s = .fault .inCellDoesNotExist)

/-- 30_encoding.md R93: the transactions of `WRIN` load the input, whatever else the host still has to do. The length of the
input must fit `IN` and the 32-bit word written to `IN_LEN` (10_state.md R37). The script
is the model's (notes/assumptions/5.md). -/
def Obligations.WrinLoadsTheInput : Prop :=
  ∀ (s : State) (bytes : List Byte) (n : Nat) (rest : List Txn), s.params.wf = true → s.deser = none →
    bytes.length ≤ s.params.inCap → bytes.length < 2 ^ 32 →
    s.script = expand n (.wrin bytes) ++ rest → ∃ t,
    Host.Core.run Sys2Proof.core (bytes.length + 1) s = .next t ∧ t.script = rest ∧ inputBytes t = bytes ∧
    (∀ a, bytes.length ≤ a → t.inMem.read a = s.inMem.read a) ∧
    t = { s with inMem := t.inMem, inLen := t.inLen, script := rest, tick := t.tick }

/-! ## Reset and invariants -/

/-- 10_state.md R42, 70_reset_and_hazards.md R240: after reset, whatever the parameters, every register and table word reads
0, `IN` holds no value, `OUT` is unreadable and no command is in progress. -/
def Obligations.ResetReadsZero : Prop :=
  ∀ p : Params, (∀ r : Reg, readReg (State.resetWith p) r = 0) ∧ (∀ a, (State.resetWith p).inMem.read a = none) ∧
    (State.resetWith p).status.outValid = false ∧ (State.resetWith p).deser = none ∧
    (State.resetWith p).dataLimit = 0 ∧ (State.resetWith p).params = p

/-- 70_reset_and_hazards.md R240, R241: a reset between commands puts the core in the reset state, whatever it held. The
host's script, its reads and the tick are the model's own and go on (notes/assumptions/15.md). -/
def Obligations.ResetForgetsEverything : Prop :=
  ∀ (s : State) (rest : List Txn), s.deser = none → s.script = .reset :: rest →
    step s = .next { State.resetWith s.params with script := rest, reads := s.reads, tick := s.tick + 1 }

/-- The invariant of the statements below holds after reset (10_state.md R42), with every parameters 00_scope.md R6 admits,
its defaults among them. The invariant has clauses of the model's own: the buffers' canonical form, no deserialization in
progress (notes/assumptions/8.md). -/
def Obligations.InvHoldsAtReset : Prop :=
  (∀ p : Params, p.wf = true → Inv (State.resetWith p)) ∧ Inv State.reset

/-- 00_scope.md R6, 10_state.md R22, R23, R25, R28, R30, R35, R36, R39: every step keeps the invariants the spec gives the
state, the widths of its registers among them, and that a product without its valid flag is all-zero (R40, R42, 40_control.md
R102, 60_exceptions.md R219), and the parameters. The invariant has clauses of the model's own: the buffers'
canonical form, no deserialization in progress (notes/assumptions/8.md). -/
def Obligations.StepKeepsInv : Prop :=
  ∀ s t : State, Inv s → step s = .next t → Inv t ∧ t.params = s.params

/-- 40_control.md R100, 70_reset_and_hazards.md R246: in a state that meets the invariants every command ends, on any data;
no command stops the core. -/
def Obligations.EveryCommandEnds : Prop :=
  ∀ (i : Instr) (s : State), Inv s → i.isCommand = true → ∃ t, exec i s = .next t ∧ Inv t

/-- A step never stops in a state that meets the invariants, as long as the host's next transaction is inside the
interface (20_memory.md R65, R60). Which transactions stop is the model's choice (notes/assumptions/4.md,
notes/assumptions/14.md). -/
def Obligations.StepNeverStops : Prop :=
  ∀ s : State, Inv s → (∀ x, s.script.head? = some x → x.wf s.params = true) → ∃ t, step s = .next t ∧ Inv t
end

