-- ==== Sys2Proof/Laws/Bits.lean ====
section
/-! SUPPORT. Laws of tables, bit strings, bytes and words (Machine/Bits.lean): reading an entry, `val` of an append, a byte from its bits and back, a bit of a window word. -/

namespace Sys2Proof.Machine

/-! ## Tables -/

theorem listFrom_getElem? {α : Type} (f : Nat → α) (i n k : Nat) :
    (listFrom f i n)[k]? = if k < n then some (f (i + k)) else none := by
  induction n generalizing i k with
  | zero => simp [listFrom]
  | succ n ih =>
    cases k with
    | zero => simp [listFrom]
    | succ k => simp [listFrom, ih, Nat.add_assoc, Nat.add_comm 1 k]

theorem listFrom_eq_map {α : Type} (f : Nat → α) (n : Nat) : listFrom f 0 n = (List.range n).map f := by
  apply List.ext_getElem?
  intro k
  simp only [listFrom_getElem?, List.getElem?_map]
  split <;> simp_all

@[simp] theorem tabulate_getElem {α : Type} (n : Nat) (f : Nat → α) (i : Nat) (h : i < n) :
    (tabulate n f)[i] = f i := by
  have e := listFrom_getElem? f 0 n i
  rw [if_pos h, Nat.zero_add] at e
  have hl : i < (listFrom f 0 n).length := by rw [listFrom_length]; exact h
  rw [List.getElem?_eq_getElem hl] at e
  exact Option.some.inj e

theorem tabulate_getElem? {α : Type} (n : Nat) (f : Nat → α) (i : Nat) :
    (tabulate n f)[i]? = if i < n then some (f i) else none := by
  by_cases h : i < n
  · simp [h, tabulate_getElem]
  · simp [h]

theorem tabulate_getD {α : Type} (n : Nat) (f : Nat → α) (i : Nat) (d : α) :
    (tabulate n f).getD i d = if i < n then f i else d := by
  simp only [Vector.getD]
  split <;> simp_all

theorem tabulate_toList {α : Type} (n : Nat) (f : Nat → α) :
    (tabulate n f).toList = (List.range n).map f := listFrom_eq_map f n

/-! ## `val`, `bin8`, padding -/

theorem val_append (s t : BitSeq) : val (s ++ t) = val s * 2 ^ t.length + val t := by
  induction s with
  | nil => simp [val]
  | cons b s ih =>
    simp only [List.cons_append, val, ih, List.length_append, Nat.pow_add]
    ring

theorem val_lt (s : BitSeq) : val s < 2 ^ s.length := by
  induction s with
  | nil => simp [val]
  | cons b s ih => cases b <;> simp [val, Nat.pow_succ] <;> omega

@[simp] theorem bin8_length (v : Byte) : (bin8 v).length = 8 := rfl

theorem val_bin8 (v : Byte) : val (bin8 v) = v.toNat := by
  revert v; decide

theorem bin8_ofNat_val (s : BitSeq) (h : s.length = 8) : bin8 (BitVec.ofNat 8 (val s)) = s := by
  match s, h with
  | [a, b, c, d, e, f, g, i], _ => cases a <;> cases b <;> cases c <;> cases d <;> cases e <;> cases f <;> cases g <;> cases i <;> rfl

theorem ofNat_val_bin8 (v : Byte) : BitVec.ofNat 8 (val (bin8 v)) = v := by
  rw [val_bin8]; simp

@[simp] theorem padTo_length (n : Nat) (s : BitSeq) : (padTo n s).length = max n s.length := by
  simp [padTo]; omega

theorem padTo_of_length (n : Nat) (s : BitSeq) (h : s.length = n) : padTo n s = s := by
  simp [padTo, h]

theorem bin8_byteOfBits (s : BitSeq) (h : s.length ≤ 8) : bin8 (byteOfBits s) = padTo 8 s := by
  apply bin8_ofNat_val; simp; omega

theorem byteOfBits_bin8 (v : Byte) : byteOfBits (bin8 v) = v := by
  rw [byteOfBits, padTo_of_length 8 _ rfl, ofNat_val_bin8]

/-- Bit `k` of the value of a bit sequence, counted from its end. -/
theorem val_testBit (s : BitSeq) (k : Nat) :
    (val s).testBit k = if k < s.length then s.getD (s.length - 1 - k) false else false := by
  induction s with
  | nil => simp [val]
  | cons b s ih =>
    have hlt := val_lt s
    have e : b.toNat * 2 ^ s.length + val s = 2 ^ s.length * b.toNat + val s := by ring
    rw [val, e]
    rw [Nat.testBit_two_pow_mul_add _ hlt, ih]
    by_cases h1 : k < s.length
    · simp only [h1, if_true, List.length_cons]
      rw [if_pos (by omega), show s.length + 1 - 1 - k = (s.length - 1 - k) + 1 by omega]
      simp
    · simp only [h1, if_false, List.length_cons]
      by_cases h2 : k = s.length
      · subst h2; cases b <;> simp
      · rw [if_neg (by omega)]
        have : k - s.length ≠ 0 := by omega
        cases b
        · simp
        · simp only [Bool.toNat_true]
          rw [Nat.testBit_one_eq_true_iff_self_eq_zero.not.mpr this |> Bool.eq_false_iff.mpr]

/-- Bit `31 − j` of a window word is bit `j` of the 32 bits it shows (10_state.md R29, R30). -/
theorem wordOfBits_getLsbD (s : BitSeq) (hs : s.length ≤ 32) (j : Nat) (hj : j < 32) :
    (wordOfBits s).getLsbD (31 - j) = s.getD j false := by
  simp only [wordOfBits, BitVec.getLsbD_ofNat, val_testBit, padTo_length]
  have : max 32 s.length = 32 := by omega
  simp only [this]
  rw [if_pos (by omega), show 32 - 1 - (31 - j) = j by omega]
  simp only [show (31 - j < 32) by omega, decide_true, Bool.true_and]
  simp only [padTo, List.getD_eq_getElem?_getD, List.getElem?_append, List.getElem?_replicate]
  split
  · rfl
  · rename_i h
    rw [List.getElem?_eq_none (Nat.le_of_not_lt h)]
    split <;> simp

theorem windowWord_getLsbD (s : BitSeq) (w j : Nat) (hj : j < 32) :
    (windowWord s w).getLsbD (31 - j) = s.getD (32 * w + j) false := by
  rw [windowWord, wordOfBits_getLsbD _ (by simp) _ hj]
  simp [List.getD_eq_getElem?_getD, hj, List.getElem?_drop]

theorem ube32_be32 (n : Word) :
    ube32 (n.extractLsb' 24 8) (n.extractLsb' 16 8) (n.extractLsb' 8 8) (n.extractLsb' 0 8) = n.toNat := by
  simp only [ube32, BitVec.extractLsb'_toNat, Nat.shiftRight_eq_div_pow]
  have := n.isLt
  omega

theorem ube32_lt (a b c d : Byte) : ube32 a b c d < 2 ^ 32 := by
  have := a.isLt; have := b.isLt; have := c.isLt; have := d.isLt
  simp only [ube32]; omega

/-- `val` of eight bits, as the weighted sum of 00_scope.md R8. -/
theorem val_eq_sum8 (s : BitSeq) (h : s.length = 8) :
    val s = ((List.range 8).map fun i => (s.getD i false).toNat * 2 ^ (7 - i)).sum := by
  match s, h with
  | [a, b, c, d, e, f, g, i], _ => simp [val, List.range_succ]

/-- The value of a packed byte: first bit most significant (45_bit_packer.md R165). -/
theorem byteOfBits_toNat (s : BitSeq) (h : s.length ≤ 8) :
    (byteOfBits s).toNat = ((List.range 8).map fun i => (s.getD i false).toNat * 2 ^ (7 - i)).sum := by
  have h8 : (padTo 8 s).length = 8 := by simp; omega
  have : val (padTo 8 s) < 2 ^ 8 := by have := val_lt (padTo 8 s); rwa [h8] at this
  rw [byteOfBits, BitVec.toNat_ofNat, Nat.mod_eq_of_lt this, val_eq_sum8 _ h8]
  congr 1
  apply List.map_congr_left
  intro i hi
  have hi : i < 8 := by simpa using hi
  congr 2
  simp only [padTo, List.getD_eq_getElem?_getD, List.getElem?_append, List.getElem?_replicate]
  split
  · rfl
  · rename_i h; rw [List.getElem?_eq_none (Nat.le_of_not_lt h)]; split <;> simp

/-- The image of no bits is 0. -/
theorem windowWord_nil (w : Nat) : windowWord [] w = 0 := by
  simp only [windowWord, wordOfBits, List.drop_nil, List.take_nil]
  decide

end Sys2Proof.Machine
end

