-- ==== Sys2Proof/Laws/Packing.lean ====
section
/-! SUPPORT. Laws of `pack` and `unpack` (Machine/BitPacker.lean; 45_bit_packer.md R170). -/

namespace Sys2Proof.Machine

/-- One chunk of 8 bits at a time (45_bit_packer.md R165). -/
theorem pack_cons8 (c s : BitSeq) (h : c.length = 8) : pack (c ++ s) = byteOfBits c :: pack s := by
  match c, h with
  | [_, _, _, _, _, _, _, _], _ => rfl

theorem pack_short (s : BitSeq) (h0 : s ≠ []) (h : s.length < 8) : pack s = [byteOfBits s] := by
  match s, h0, h with
  | [_], _, _ => rfl
  | [_, _], _, _ => rfl
  | [_, _, _], _, _ => rfl
  | [_, _, _, _], _, _ => rfl
  | [_, _, _, _, _], _, _ => rfl
  | [_, _, _, _, _, _], _, _ => rfl
  | [_, _, _, _, _, _, _], _, _ => rfl
  | _ :: _ :: _ :: _ :: _ :: _ :: _ :: _ :: _, _, h => simp at h; omega

/-- Induction in chunks of 8 bits. -/
theorem chunk_induction {P : BitSeq → Prop} (hnil : P [])
    (hshort : ∀ s, s ≠ [] → s.length < 8 → P s)
    (hchunk : ∀ c s, c.length = 8 → P s → P (c ++ s)) (s : BitSeq) : P s := by
  induction hn : s.length using Nat.strong_induction_on generalizing s with
  | _ n ih =>
    by_cases h0 : s = []
    · subst h0; exact hnil
    · by_cases h8 : s.length < 8
      · exact hshort s h0 h8
      · rw [← List.take_append_drop 8 s]
        refine hchunk _ _ (by simp; omega) (ih (s.drop 8).length ?_ _ rfl)
        have : 0 < s.length := List.length_pos_iff.mpr h0
        simp; omega

@[simp] theorem pack_nil : pack [] = [] := rfl

/-- `|pack(s)| = ceil8(|s|)` (45_bit_packer.md R170 (a)). -/
theorem length_pack (s : BitSeq) : (pack s).length = ceil8 s.length := by
  induction s using chunk_induction with
  | hnil => rfl
  | hshort s h0 h =>
    have : 0 < s.length := List.length_pos_iff.mpr h0
    rw [pack_short s h0 h]; simp [ceil8]; omega
  | hchunk c s h ih => rw [pack_cons8 c s h]; simp [ih, h, ceil8]; omega

@[simp] theorem unpack_nil : unpack [] = [] := rfl
@[simp] theorem unpack_cons (b : Byte) (bs : List Byte) : unpack (b :: bs) = bin8 b ++ unpack bs := rfl
theorem unpack_append (a b : List Byte) : unpack (a ++ b) = unpack a ++ unpack b := by simp [unpack]

theorem length_unpack (b : List Byte) : (unpack b).length = 8 * b.length := by
  induction b with
  | nil => rfl
  | cons x b ih => simp [ih]; omega

/-- Unpacking what was packed gives the bits back, then the pad zeros (R170 (b)). -/
theorem unpack_pack_eq (s : BitSeq) :
    unpack (pack s) = s ++ List.replicate (8 * ceil8 s.length - s.length) false := by
  induction s using chunk_induction with
  | hnil => rfl
  | hshort s h0 h =>
    have : 0 < s.length := List.length_pos_iff.mpr h0
    rw [pack_short s h0 h, unpack_cons, unpack_nil, List.append_nil, bin8_byteOfBits _ (by omega), padTo]
    congr 2; simp only [ceil8]; omega
  | hchunk c s h ih =>
    rw [pack_cons8 c s h, unpack_cons, ih, bin8_byteOfBits _ (by omega), padTo_of_length _ _ h]
    rw [List.append_assoc, List.length_append, h]
    congr 3; simp only [ceil8]; omega

theorem take_unpack_pack (s : BitSeq) : (unpack (pack s)).take s.length = s := by
  rw [unpack_pack_eq, List.take_left]

theorem pack_append8 (s t : BitSeq) (h : s.length % 8 = 0) : pack (s ++ t) = pack s ++ pack t := by
  induction s using chunk_induction with
  | hnil => rfl
  | hshort s h0 hs =>
    have : 0 < s.length := List.length_pos_iff.mpr h0
    omega
  | hchunk c s hc ih =>
    rw [List.append_assoc, pack_cons8 _ _ hc, pack_cons8 _ _ hc, ih (by simp [hc] at h; omega), List.cons_append]

/-- Every byte of `pack(s)` (45_bit_packer.md R165). -/
theorem pack_getElem (s : BitSeq) : ∀ j, j < ceil8 s.length → ∃ b, (pack s)[j]? = some b ∧
      b.toNat = ((List.range 8).map fun i => (s.getD (8 * j + i) false).toNat * 2 ^ (7 - i)).sum := by
  induction s using chunk_induction with
  | hnil => intro j hj; simp [ceil8] at hj
  | hshort s h0 h =>
    intro j hj
    simp only [ceil8] at hj
    obtain rfl : j = 0 := by omega
    rw [pack_short s h0 h]
    exact ⟨_, rfl, by simpa using byteOfBits_toNat s (by omega)⟩
  | hchunk c s h ih =>
    intro j hj
    rw [pack_cons8 c s h]
    cases j with
    | zero =>
      refine ⟨_, rfl, ?_⟩
      rw [byteOfBits_toNat c (by omega)]
      congr 1
      apply List.map_congr_left
      intro i hi
      have hi : i < 8 := by simpa using hi
      simp [List.getElem?_append_left (show i < c.length by omega)]
    | succ j =>
      obtain ⟨b, hb, hv⟩ := ih j (by simp [ceil8, h] at hj ⊢; omega)
      refine ⟨b, by simpa using hb, ?_⟩
      rw [hv]
      congr 1
      apply List.map_congr_left
      intro i hi
      congr 2
      simp only [List.getD_eq_getElem?_getD]
      rw [List.getElem?_append_right (by omega)]
      congr 2; omega

/-- Every bit of `unpack(B)` (45_bit_packer.md R166). -/
theorem unpack_getElem (bytes : List Byte) (j i : Nat) (b : Byte) (hi : i < 8) (h : bytes[j]? = some b) :
    (unpack bytes)[8 * j + i]? = some (b.getLsbD (7 - i)) := by
  induction bytes generalizing j with
  | nil => simp at h
  | cons x bytes ih =>
    rw [unpack_cons]
    cases j with
    | zero =>
      simp at h; subst h
      rw [List.getElem?_append_left (by simp; omega)]
      simp only [Nat.mul_zero, Nat.zero_add]
      interval_cases i <;> rfl
    | succ j =>
      rw [List.getElem?_append_right (by simp; omega)]
      rw [← ih j (by simpa using h)]
      congr 1; simp; omega

/-- Packing what was unpacked gives the bytes back (45_bit_packer.md R170). -/
theorem pack_unpack (b : List Byte) : pack (unpack b) = b := by
  induction b with
  | nil => rfl
  | cons x b ih => rw [unpack_cons, pack_cons8 _ _ rfl, ih, byteOfBits_bin8]

/-- The padded bytes hold all the bits. -/
theorem ceil8_le (n : Nat) : n ≤ 8 * ceil8 n := by simp only [ceil8]; omega

end Sys2Proof.Machine
end

