-- ==== Sys2Proof/Laws/Params.lean ====
section
/-! SUPPORT. What `Params.wf` says of the parameters (00_scope.md R6), and that a value inside its width is kept. -/

namespace Sys2Proof

/-- The facts of `Params.wf`, in the form proofs use. -/
structure Params.Ok (p : Params) : Prop where
  inLen : p.inCap < 2 ^ p.lenW
  outLen : p.outCap < 2 ^ p.lenW
  out4 : 4 ≤ p.outCap
  inCnt : p.inCap < 2 ^ p.cntW
  tbitsLo : 2559 ≤ p.tbitsCap
  /-- A tree of `l` leaves whose bits fit `TBITS` has its records in the node memory (44_tree_codec.md R147, R154). -/
  nodes : ∀ l, 10 * l ≤ p.tbitsCap + 1 → 2 * l - 1 ≤ p.nodeCap
  inBits : 255 * p.inCap < 2 ^ p.bitcntW
  weight : p.deserWeight < 2 ^ p.cntW

theorem Params.ok_of_wf {p : Params} (h : p.wf = true) : p.Ok := by
  simp only [Params.wf, Bool.and_eq_true, decide_eq_true_eq] at h
  obtain ⟨⟨⟨⟨⟨⟨⟨h1, h2⟩, h3⟩, h4⟩, h5⟩, h6⟩, h7⟩, h8⟩ := h
  have a1 : 0 < 2 ^ p.lenW := Nat.pow_pos (by omega)
  have a2 : 0 < 2 ^ p.cntW := Nat.pow_pos (by omega)
  have a3 : 0 < 2 ^ p.bitcntW := Nat.pow_pos (by omega)
  exact ⟨by omega, by omega, h3, by omega, h5, fun l hl => by omega, by omega, by omega⟩

/-- The node memory has room for every tree BUILD makes: 511 records (44_tree_codec.md R154). -/
theorem Params.Ok.nodes511 {p : Params} (h : p.Ok) : 511 ≤ p.nodeCap := h.nodes 256 (by have := h.tbitsLo; omega)

theorem Params.default_wf : Params.default.wf = true := by decide

namespace Machine

variable {p : Params}

theorem lowBits_lt (w n : Nat) : lowBits w n < 2 ^ w := Nat.mod_lt _ (Nat.pow_pos (by omega))

theorem lenWord_lt (n : Nat) : lenWord p n < 2 ^ p.lenW := lowBits_lt _ _

theorem lenWord_eq {n : Nat} (hn : n < 2 ^ p.lenW) : lenWord p n = n := Nat.mod_eq_of_lt hn

theorem bitCount_lt (n : Nat) : bitCount p n < 2 ^ p.bitcntW := lowBits_lt _ _

theorem bitCount_eq {n : Nat} (hn : n < 2 ^ p.bitcntW) : bitCount p n = n := Nat.mod_eq_of_lt hn

/-- `ENC_BITS` keeps to its width, whatever the free value is. -/
theorem encBitsValue_lt (tick n : Nat) : encBitsValue p tick n < 2 ^ p.bitcntW := by
  unfold encBitsValue
  split
  · assumption
  · exact bitCount_lt _

theorem encBitsValue_eq {tick n : Nat} (hn : n < 2 ^ p.bitcntW) : encBitsValue p tick n = n := if_pos hn

theorem lengthWord_eq {tick n : Nat} (hn : n < 2 ^ 32) : lengthWord tick n = BitVec.ofNat 32 n := if_pos hn

/-- A `TBC` that fits its field is the value of the field. -/
theorem lengthWord_toNat {tick n : Nat} (hn : n < 2 ^ 32) : (lengthWord tick n).toNat = n := by
  rw [lengthWord_eq hn, BitVec.toNat_ofNat]; omega

end Machine

end Sys2Proof
end

