-- ==== Sys2Proof/Laws/Trees.lean ====
section
/-! SUPPORT. Laws of trees and of the records they stand in (Machine/Tree.lean, 10_state.md R24, R25). -/

namespace Sys2Proof.Machine

variable {p : Params}

/-! ## Trees -/

theorem Tree.size_pos (t : Tree) : 0 < t.size := by cases t with
  | leaf => simp [Tree.size]
  | internal => simp only [Tree.size]; omega

theorem Tree.depth_lt_size (t : Tree) : t.depth < t.size := by
  induction t with
  | leaf => simp [Tree.depth, Tree.size]
  | internal w l r ihl ihr => simp only [Tree.depth, Tree.size]; omega

theorem Tree.leaves_length_pos (t : Tree) : 0 < t.leaves.length := by
  induction t with
  | leaf => simp [Tree.leaves]
  | internal w l r ihl ihr => simp only [Tree.leaves, List.length_append]; omega

/-- A tree with L leaves has 2·L − 1 nodes (10_state.md R25). -/
theorem Tree.size_eq (t : Tree) : t.size + 1 = 2 * t.leaves.length := by
  induction t with
  | leaf => simp [Tree.size, Tree.leaves]
  | internal w l r ihl ihr => simp only [Tree.size, Tree.leaves, List.length_append]; omega

/-- A tree with L leaves has depth at most L − 1 (10_state.md R28). -/
theorem Tree.depth_lt_leaves (t : Tree) : t.depth < t.leaves.length := by
  induction t with
  | leaf => simp [Tree.depth, Tree.leaves]
  | internal w l r ihl ihr => simp only [Tree.depth, Tree.leaves, List.length_append]; omega

@[simp] theorem Tree.zeroWeights_size (t : Tree) : (t.zeroWeights p).size = t.size := by
  induction t with
  | leaf => rfl
  | internal w l r ihl ihr => simp [Tree.zeroWeights, Tree.size, ihl, ihr]

@[simp] theorem Tree.zeroWeights_depth (t : Tree) : (t.zeroWeights p).depth = t.depth := by
  induction t with
  | leaf => rfl
  | internal w l r ihl ihr => simp [Tree.zeroWeights, Tree.depth, ihl, ihr]

@[simp] theorem Tree.zeroWeights_symbols (t : Tree) : (t.zeroWeights p).symbols = t.symbols := by
  induction t with
  | leaf => rfl
  | internal w l r ihl ihr =>
    simp only [Tree.symbols, Tree.zeroWeights, Tree.leaves, List.map_append] at *
    rw [ihl, ihr]

@[simp] theorem Tree.symbols_length (t : Tree) : t.symbols.length = t.leaves.length := by simp [Tree.symbols]

@[simp] theorem Tree.symbols_leaf (w : Nat) (s : Byte) : (Tree.leaf w s).symbols = [s] := rfl
@[simp] theorem Tree.symbols_internal (w : Nat) (l r : Tree) :
    (Tree.internal w l r).symbols = l.symbols ++ r.symbols := by simp [Tree.symbols, Tree.leaves]

/-! ## `tree_of` -/

/-- More fuel never changes a tree that was found. -/
theorem treeOf_mono {node : List Node} {f f' i : Nat} {t : Tree} (h : treeOf node f i = some t)
    (hf : f ≤ f') : treeOf node f' i = some t := by
  induction f generalizing f' i t with
  | zero => simp [treeOf] at h
  | succ f ih =>
    obtain ⟨f', rfl⟩ : ∃ k, f' = k + 1 := ⟨f' - 1, by omega⟩
    simp only [treeOf] at h ⊢
    split at h
    · simp at h
    · simpa using h
    · rename_i w l r _
      split at h
      · simp at h
      · rename_i tl htl
        split at h
        · simp at h
        · rename_i tr htr
          rw [ih htl (by omega)]; simp only
          rw [ih htr (by omega)]; simpa using h

/-- The records of `recs` reached from index `i` stand for `t`, and `vs` are their indices in pre-order. -/
inductive Stands (recs : List Node) : Nat → Tree → List Nat → Prop where
  | leaf {i : Nat} {w : Nat} {s : Byte} (h : recs[i]? = some (.leaf w s)) : Stands recs i (.leaf w s) [i]
  | internal {i : Nat} {w l r : Nat} {tl tr : Tree} {vl vr : List Nat}
      (h : recs[i]? = some (.internal w l r)) (hl : Stands recs l tl vl) (hr : Stands recs r tr vr) :
      Stands recs i (.internal w tl tr) (i :: (vl ++ vr))

/-- Records added at the end change nothing. -/
theorem Stands.append {recs : List Node} {i : Nat} {t : Tree} {vs : List Nat} (h : Stands recs i t vs)
    (more : List Node) : Stands (recs ++ more) i t vs := by
  have key : ∀ {j : Nat} {n : Node}, recs[j]? = some n → (recs ++ more)[j]? = some n := by
    intro j n hj
    rw [List.getElem?_append_left (List.getElem?_eq_some_iff.mp hj).1]; exact hj
  induction h with
  | leaf h => exact .leaf (key h)
  | internal h _ _ ihl ihr => exact .internal (key h) ihl ihr

theorem nodeTable_getElem? {recs : List Node} {i : Nat} {n : Node} (h : recs[i]? = some n)
    (hl : recs.length ≤ p.nodeCap) : (nodeTable p recs)[i]? = some n := by
  have := (List.getElem?_eq_some_iff.mp h).1
  rw [nodeTable, listFrom_getElem?, if_pos (by omega)]
  simp [List.getD_eq_getElem?_getD, h]

theorem Stands.treeOf {recs : List Node} {i : Nat} {t : Tree} {vs : List Nat} (h : Stands recs i t vs)
    (hl : recs.length ≤ p.nodeCap) : treeOf (nodeTable p recs) (t.depth + 1) i = some t := by
  induction h with
  | leaf h => simp [Machine.treeOf, nodeTable_getElem? h hl]
  | internal h _ _ ihl ihr =>
    simp only [Machine.treeOf, Tree.depth, nodeTable_getElem? h hl]
    rw [treeOf_mono ihl (by omega)]; simp only
    rw [treeOf_mono ihr (by omega)]

theorem Stands.treeOf_fuel {recs : List Node} {i : Nat} {t : Tree} {vs : List Nat} (h : Stands recs i t vs)
    (hl : recs.length ≤ p.nodeCap) {f : Nat} (hf : t.size ≤ f) : Machine.treeOf (nodeTable p recs) f i = some t :=
  treeOf_mono (h.treeOf hl) (by have := t.depth_lt_size; omega)

theorem Stands.length {recs : List Node} {i : Nat} {t : Tree} {vs : List Nat} (h : Stands recs i t vs) :
    vs.length = t.size := by
  induction h with
  | leaf => rfl
  | internal _ _ _ ihl ihr => simp [Tree.size, ihl, ihr]; omega

theorem Stands.visited {recs : List Node} {i : Nat} {t : Tree} {vs : List Nat} (h : Stands recs i t vs)
    (hl : recs.length ≤ p.nodeCap) {f : Nat} (hf : t.depth < f) : visited (nodeTable p recs) f i = vs := by
  induction h generalizing f with
  | leaf h =>
    obtain ⟨f, rfl⟩ : ∃ k, f = k + 1 := ⟨f - 1, by omega⟩
    simp [Machine.visited, nodeTable_getElem? h hl]
  | internal h _ _ ihl ihr =>
    obtain ⟨f, rfl⟩ : ∃ k, f = k + 1 := ⟨f - 1, by omega⟩
    simp only [Tree.depth] at hf
    simp only [Machine.visited, nodeTable_getElem? h hl]
    rw [ihl (by omega), ihr (by omega)]

/-! ## The pre-order layout -/

@[simp] theorem preorderRecords_length (t : Tree) (i : Nat) : (preorderRecords p t i).length = t.size := by
  induction t generalizing i with
  | leaf => rfl
  | internal w l r ihl ihr => simp [preorderRecords, Tree.size, ihl, ihr]; omega

/-- The pre-order records of `t`, standing from index `i` on in a record list, stand for `t` with every weight `DESER_WEIGHT`
(44_tree_codec.md R153, R154). -/
theorem preorderRecords_stands (t : Tree) (i : Nat) (before after : List Node) (hi : before.length = i) :
    Stands (before ++ preorderRecords p t i ++ after) i (t.zeroWeights p) (List.range' i t.size) := by
  induction t generalizing i before after with
  | leaf w s =>
    refine .leaf (w := p.deserWeight) ?_
    simp [preorderRecords, ← hi]
  | internal w l r ihl ihr =>
    have hl := ihl (i + 1) (before ++ [.internal p.deserWeight (i + 1) (i + 1 + l.size)])
      (preorderRecords p r (i + 1 + l.size) ++ after) (by simp [hi])
    have hr := ihr (i + 1 + l.size) (before ++ [.internal p.deserWeight (i + 1) (i + 1 + l.size)] ++
      preorderRecords p l (i + 1)) after (by simp [hi]; omega)
    have e : List.range' i (Tree.internal w l r).size =
        i :: (List.range' (i + 1) l.size ++ List.range' (i + 1 + l.size) r.size) := by
      rw [show (Tree.internal w l r).size = (l.size + r.size) + 1 by simp [Tree.size]; omega, List.range'_succ,
        ← List.range'_append_1]
    rw [e]
    simp only [preorderRecords, List.append_assoc, List.cons_append, List.nil_append] at hl hr ⊢
    refine .internal (w := p.deserWeight) (l := i + 1) (r := i + 1 + l.size) ?_ ?_ ?_
    · simp [← hi]
    · exact hl
    · exact hr

theorem preorderRecords_root_stands (t : Tree) :
    Stands (preorderRecords p t 0) 0 (t.zeroWeights p) (List.range t.size) := by
  have := preorderRecords_stands (p := p) t 0 [] [] rfl
  simpa [List.range_eq_range'] using this

end Sys2Proof.Machine
end

