-- ==== Sys2Proof/Laws/Codec.lean ====
section
/-! SUPPORT. Laws of `serialize`, `deser`, `codes` and `walk` (43_code_table.md R139, 44_tree_codec.md R156, 46_codec_facade.md R183). -/

namespace Sys2Proof.Machine

variable {par : Params}

/-! ## serialize and deser -/

theorem length_serialize (t : Tree) : (serialize t).length + 1 = 10 * t.leaves.length := by
  induction t with
  | leaf => rfl
  | internal w l r ihl ihr => simp only [serialize, Tree.leaves, List.length_cons, List.length_append]; omega

theorem size_le_length_serialize (t : Tree) : t.size ≤ (serialize t).length := by
  have := length_serialize t; have := t.size_eq; omega

/-- `deser` of a serialized tree gives the tree with every weight `DESER_WEIGHT` and the bits after it, with any fuel that is enough. -/
theorem deser_serialize_append (t : Tree) (x : BitSeq) (f : Nat) (hf : t.size ≤ f) :
    deser par f (serialize t ++ x) = some (t.zeroWeights par, x) := by
  induction t generalizing x f with
  | leaf w s =>
    obtain ⟨f, rfl⟩ : ∃ k, f = k + 1 := ⟨f - 1, by simp [Tree.size] at hf; omega⟩
    have e : serialize (.leaf w s) ++ x = true :: (bin8 s ++ x) := rfl
    simp only [e, deser]
    have h8 : ¬ (bin8 s ++ x).length < 8 := by simp
    rw [if_neg h8, List.take_left' (bin8_length s), List.drop_left' (bin8_length s), ofNat_val_bin8]
    rfl
  | internal w l r ihl ihr =>
    simp only [Tree.size] at hf
    obtain ⟨f, rfl⟩ : ∃ k, f = k + 1 := ⟨f - 1, by omega⟩
    have e : serialize (.internal w l r) ++ x = false :: (serialize l ++ (serialize r ++ x)) := by simp [serialize]
    simp only [e, deser]
    rw [ihl _ _ (by omega)]; simp only
    rw [ihr _ _ (by omega)]; rfl

/-- What `deser` consumed is the serialization of what it gave. -/
theorem serialize_of_deser {f : Nat} {bits rest : BitSeq} {t : Tree} (h : deser par f bits = some (t, rest)) :
    bits = serialize t ++ rest ∧ t.zeroWeights par = t := by
  induction f generalizing bits rest t with
  | zero => simp [deser] at h
  | succ f ih =>
    match bits with
    | [] => simp [deser] at h
    | true :: s =>
      simp only [deser] at h
      split at h
      · simp at h
      · simp only [Option.some.injEq, Prod.mk.injEq] at h
        obtain ⟨rfl, rfl⟩ := h
        refine ⟨?_, rfl⟩
        simp only [serialize]
        rw [bin8_ofNat_val _ (by simp; omega)]
        simp
    | false :: s =>
      simp only [deser] at h
      split at h
      · simp at h
      · rename_i l s1 hl
        split at h
        · simp at h
        · rename_i r s2 hr
          simp only [Option.some.injEq, Prod.mk.injEq] at h
          obtain ⟨rfl, rfl⟩ := h
          obtain ⟨e1, z1⟩ := ih hl
          obtain ⟨e2, z2⟩ := ih hr
          refine ⟨?_, ?_⟩
          · simp [serialize, e1, e2]
          · simp [Tree.zeroWeights, z1, z2]

theorem deserialize_serialize_append (t : Tree) (x : BitSeq) :
    deserialize par (serialize t ++ x) = some (t.zeroWeights par) := by
  rw [deserialize, deser_serialize_append]
  have := size_le_length_serialize t
  simp; omega

/-- A tree read from at most `TBITS_CAP` bits fits the node memory (44_tree_codec.md R154). -/
theorem size_of_deserialize (hp : par.Ok) {bits : BitSeq} {t : Tree} (h : deserialize par bits = some t)
    (hb : bits.length ≤ par.tbitsCap) :
    t.size ≤ par.nodeCap ∧ (serialize t).length ≤ par.tbitsCap ∧ t.zeroWeights par = t := by
  simp only [deserialize] at h
  split at h
  · simp at h
  · rename_i t' rest hd
    simp only [Option.some.injEq] at h; subst h
    obtain ⟨e, z⟩ := serialize_of_deser hd
    have := length_serialize t'; have := t'.size_eq
    have : bits.length = (serialize t').length + rest.length := by rw [e]; simp
    have := hp.nodes t'.leaves.length (by omega)
    exact ⟨by omega, by omega, z⟩

/-- The bits of a tree of at most 256 leaves fit `TBITS` (44_tree_codec.md R147). -/
theorem serialize_fits (hp : par.Ok) {t : Tree} (h : t.leaves.length ≤ 256) : (serialize t).length ≤ par.tbitsCap := by
  have := length_serialize t
  have := hp.tbitsLo
  omega

/-! ## paths and codes -/

theorem paths_fst (t : Tree) (p : BitSeq) : (paths t p).map Prod.fst = t.symbols := by
  induction t generalizing p with
  | leaf => rfl
  | internal w l r ihl ihr => simp [paths, ihl, ihr]

/-- Every path of a subtree extends the path to it. -/
theorem paths_prefix {t : Tree} {p : BitSeq} {x : Byte × BitSeq} (h : x ∈ paths t p) : p <+: x.2 := by
  induction t generalizing p with
  | leaf => simp [paths] at h; subst h; exact List.prefix_refl _
  | internal w l r ihl ihr =>
    simp only [paths, List.mem_append] at h
    rcases h with h | h
    · exact (List.prefix_append p _).trans (ihl h)
    · exact (List.prefix_append p _).trans (ihr h)

theorem paths_length {t : Tree} {p : BitSeq} {x : Byte × BitSeq} (h : x ∈ paths t p) :
    x.2.length ≤ p.length + t.depth := by
  induction t generalizing p with
  | leaf => simp [paths] at h; subst h; simp
  | internal w l r ihl ihr =>
    simp only [paths, List.mem_append] at h
    rcases h with h | h
    · have := ihl h; simp [Tree.depth] at *; omega
    · have := ihr h; simp [Tree.depth] at *; omega

/-- Two leaves of a tree at different places: neither path is a prefix of the other. -/
theorem paths_pairwise (t : Tree) (p : BitSeq) :
    (paths t p).Pairwise fun x y => ¬ x.2 <+: y.2 ∧ ¬ y.2 <+: x.2 := by
  induction t generalizing p with
  | leaf => simp [paths]
  | internal w l r ihl ihr =>
    simp only [paths, List.pairwise_append]
    refine ⟨ihl _, ihr _, ?_⟩
    intro x hx y hy
    have hx' := paths_prefix hx
    have hy' := paths_prefix hy
    have key : ∀ (u v : BitSeq) (b : Bool), p ++ [b] <+: u → p ++ [!b] <+: v → ¬ u <+: v := by
      intro u v b hu hv huv
      have h1 := hu.trans huv
      have := List.prefix_of_prefix_length_le h1 hv (by simp)
      rcases this with ⟨c, hc⟩
      have hlen := congrArg List.length hc
      simp at hlen
      subst hlen
      cases b <;> simp at hc
    exact ⟨key _ _ false hx' hy', key _ _ true hy' hx'⟩

theorem lastEntry_mem {s : Byte} {l : List (Byte × BitSeq)} {p : BitSeq} (h : lastEntry s l = some p) :
    (s, p) ∈ l := by
  induction l with
  | nil => simp [lastEntry] at h
  | cons x l ih =>
    obtain ⟨s', q⟩ := x
    simp only [lastEntry] at h
    split at h
    · rename_i q' hq
      simp only [Option.some.injEq] at h; subst h
      exact List.mem_cons_of_mem _ (ih hq)
    · split at h
      · rename_i hs; simp only [Option.some.injEq] at h; subst h; subst hs; simp
      · simp at h

theorem lastEntry_isSome {s : Byte} {l : List (Byte × BitSeq)} : (lastEntry s l).isSome ↔ s ∈ l.map Prod.fst := by
  induction l with
  | nil => simp [lastEntry]
  | cons x l ih =>
    obtain ⟨s', q⟩ := x
    simp only [lastEntry, List.map_cons, List.mem_cons]
    rw [← ih]
    cases h : lastEntry s l
    · by_cases hs : s' = s
      · simp [hs]
      · simp [hs, Ne.symm hs]
    · simp

/-- A symbol has a code iff it is at a leaf. -/
theorem codes_isSome (t : Tree) (s : Byte) : (codes t s).isSome ↔ s ∈ t.symbols := by
  cases t with
  | leaf w s' =>
    simp only [codes]
    by_cases h : s' = s
    · simp [h]
    · simp [h, Ne.symm h]
  | internal w l r => rw [codes, lastEntry_isSome, paths_fst]

/-- The code of a symbol is a path to one of its leaves. -/
theorem codes_mem_paths {w : Nat} {l r : Tree} {s : Byte} {p : BitSeq} (h : codes (.internal w l r) s = some p) :
    (s, p) ∈ paths (.internal w l r) [] := lastEntry_mem h

theorem codes_length {t : Tree} {s : Byte} {p : BitSeq} (h : codes t s = some p) : 1 ≤ p.length ∧ p.length ≤ max 1 t.depth := by
  cases t with
  | leaf w s' =>
    simp only [codes] at h
    split at h
    · simp only [Option.some.injEq] at h; subst h; simp
    · simp at h
  | internal w l r =>
    have hm := codes_mem_paths h
    have := paths_length hm
    refine ⟨?_, by simp at this; omega⟩
    simp only [paths, List.mem_append] at hm
    rcases hm with hm | hm
    · simpa using (paths_prefix hm).length_le
    · simpa using (paths_prefix hm).length_le

theorem codes_zeroWeights (t : Tree) (s : Byte) : codes (t.zeroWeights par) s = codes t s := by
  have hp : ∀ (t : Tree) (p : BitSeq), paths (t.zeroWeights par) p = paths t p := by
    intro t
    induction t with
    | leaf => intro p; rfl
    | internal w l r ihl ihr => intro p; simp [Tree.zeroWeights, paths, ihl, ihr]
  cases t with
  | leaf => rfl
  | internal w l r => simp only [Tree.zeroWeights, codes, paths, hp]

/-! ## The tree walk -/

theorem walk_zeroWeights (t : Tree) (bits : BitSeq) : walk (t.zeroWeights par) bits = walk t bits := by
  have hw : ∀ (bits : BitSeq) (root cur : Tree),
      walkFrom (root.zeroWeights par) (cur.zeroWeights par) bits = walkFrom root cur bits := by
    intro bits
    induction bits with
    | nil => intro root cur; cases cur <;> rfl
    | cons b bits ih =>
      intro root cur
      cases cur with
      | leaf => rfl
      | internal w l r =>
        cases b
        · cases l with
          | leaf w' s => simp [Tree.zeroWeights, walkFrom, ih]
          | internal w' l' r' =>
            have := ih root (.internal w' l' r')
            simpa [Tree.zeroWeights, walkFrom] using this
        · cases r with
          | leaf w' s => simp [Tree.zeroWeights, walkFrom, ih]
          | internal w' l' r' =>
            have := ih root (.internal w' l' r')
            simpa [Tree.zeroWeights, walkFrom] using this
  cases t with
  | leaf => rfl
  | internal w l r => exact hw bits (.internal w l r) (.internal w l r)

/-- Following a path of a subtree `t` of the walked tree from `t` emits its symbol and returns to the root. -/
theorem walkFrom_path {root t : Tree} {p : BitSeq} {s : Byte} {q : BitSeq} (h : (s, q) ∈ paths t p) (rest : BitSeq)
    (ht : ∀ w s, t ≠ .leaf w s) :
    walkFrom root t (q.drop p.length ++ rest) = s :: walkFrom root root rest := by
  induction t generalizing p with
  | leaf w s => exact absurd rfl (ht w s)
  | internal w l r ihl ihr =>
    have key : ∀ (b : Bool) (c : Tree), (b = false → c = l) → (b = true → c = r) →
        (s, q) ∈ paths c (p ++ [b]) →
        ((∀ w s, c ≠ .leaf w s) → walkFrom root c (q.drop (p ++ [b]).length ++ rest) = s :: walkFrom root root rest) →
        walkFrom root (.internal w l r) (q.drop p.length ++ rest) = s :: walkFrom root root rest := by
      intro b c hcl hcr hm hrec
      obtain ⟨u, hu⟩ := paths_prefix hm
      have hq : q = p ++ (b :: u) := by have hu : p ++ [b] ++ u = q := hu; rw [← hu]; simp
      have e1 : q.drop p.length = b :: u := by rw [hq]; simp
      have e2 : q.drop (p ++ [b]).length = u := by rw [hq]; simp [List.drop_append]
      have hc : (if b = true then r else l) = c := by cases b <;> simp_all
      rw [e1, List.cons_append, walkFrom, hc]
      cases c with
      | leaf w' s' =>
        simp only [paths, List.mem_singleton, Prod.mk.injEq] at hm
        obtain ⟨rfl, hq2⟩ := hm
        have : u = [] := by rw [hq] at hq2; simpa using hq2
        simp [this]
      | internal w' l' r' =>
        have := hrec (by intro w s; simp)
        rw [e2] at this
        exact this
    simp only [paths, List.mem_append] at h
    rcases h with h | h
    · exact key false l (fun _ => rfl) (by simp) h (fun hn => ihl h hn)
    · exact key true r (by simp) (fun _ => rfl) h (fun hn => ihr h hn)

/-- Walking encoded bits from an Internal root gives the bytes back, then whatever the rest of the bits gives
(46_codec_facade.md R191). -/
theorem walk_encode_append {w : Nat} {l r : Tree} {bytes : List Byte} {enc : BitSeq}
    (h : encodeBytes (codes (.internal w l r)) bytes = some enc) (rest : BitSeq) :
    walk (.internal w l r) (enc ++ rest) = bytes ++ walk (.internal w l r) rest := by
  induction bytes generalizing enc with
  | nil => simp [encodeBytes] at h; subst h; rfl
  | cons b bytes ih =>
    simp only [encodeBytes] at h
    split at h
    · simp at h
    · rename_i p hp
      split at h
      · simp at h
      · rename_i e he
        simp only [Option.some.injEq] at h; subst h
        have := walkFrom_path (root := .internal w l r) (codes_mem_paths hp) (e ++ rest) (by intro w s; simp)
        simp only [List.length_nil, List.drop_zero] at this
        simp only [walk, List.append_assoc] at ih ⊢
        rw [this, ih he]; rfl

theorem walk_encode_leaf {w : Nat} {s : Byte} {bytes : List Byte} {enc : BitSeq}
    (h : encodeBytes (codes (.leaf w s)) bytes = some enc) :
    enc = List.replicate bytes.length false ∧ bytes = List.replicate bytes.length s := by
  induction bytes generalizing enc with
  | nil => simp [encodeBytes] at h; subst h; simp
  | cons b bytes ih =>
    simp only [encodeBytes, codes] at h
    split at h
    · simp at h
    · rename_i p hp
      split at h
      · simp at h
      · rename_i e he
        simp only [Option.some.injEq] at h; subst h
        split at hp
        · rename_i hs
          simp only [Option.some.injEq] at hp; subst hp; subst hs
          obtain ⟨e1, e2⟩ := ih (by simpa [codes] using he)
          refine ⟨?_, ?_⟩
          · rw [e1]; simp [List.replicate_succ]
          · conv_lhs => rw [e2]
            simp [List.replicate_succ]
        · simp at hp

/-- Every byte with a code: the encoding exists. -/
theorem encodeBytes_isSome {code : Byte → Option BitSeq} {bytes : List Byte} (h : ∀ b ∈ bytes, (code b).isSome) :
    (encodeBytes code bytes).isSome := by
  induction bytes with
  | nil => rfl
  | cons b bytes ih =>
    obtain ⟨p, hp⟩ := Option.isSome_iff_exists.mp (h b (by simp))
    obtain ⟨e, he⟩ := Option.isSome_iff_exists.mp (ih fun b hb => h b (List.mem_cons_of_mem _ hb))
    simp [encodeBytes, hp, he]

theorem encodeBytes_congr {c c' : Byte → Option BitSeq} (h : ∀ b, c b = c' b) (bytes : List Byte) :
    encodeBytes c bytes = encodeBytes c' bytes := by
  rw [show c = c' from funext h]

/-- No code is a prefix of another symbol's code (43_code_table.md R139 (b)). -/
theorem codes_prefix_free {t : Tree} {s s' : Byte} {p q : BitSeq} (hne : s ≠ s') (hp : codes t s = some p)
    (hq : codes t s' = some q) : ¬ p <+: q := by
  cases t with
  | leaf w x =>
    simp only [codes] at hp hq
    split at hp <;> split at hq <;> simp_all
  | internal w l r =>
    have h1 := codes_mem_paths hp
    have h2 := codes_mem_paths hq
    have hpw := paths_pairwise (.internal w l r) []
    have hsym : Std.Symm (fun x y : Byte × BitSeq => ¬ x.2 <+: y.2 ∧ ¬ y.2 <+: x.2) := ⟨fun _ _ h => ⟨h.2, h.1⟩⟩
    exact (hpw.forall h1 h2 (by simp [hne])).1

/-- `serialize` does not see weights. -/
theorem serialize_zeroWeights (t : Tree) : serialize (t.zeroWeights par) = serialize t := by
  induction t with
  | leaf => rfl
  | internal w l r ihl ihr => simp [Tree.zeroWeights, serialize, ihl, ihr]

/-- A path in two parts. -/
theorem Tree.follow_append (t u : Tree) (p q : BitSeq) (h : t.follow p = some u) : t.follow (p ++ q) = u.follow q := by
  induction p generalizing t with
  | nil => simp [Tree.follow] at h; subst h; rfl
  | cons b p ih =>
    cases t with
    | leaf => simp [Tree.follow] at h
    | internal w l r => simp only [List.cons_append, Tree.follow] at h ⊢; exact ih _ h

/-- Every listed path leads to its leaf. -/
theorem follow_of_paths {t : Tree} {p q : BitSeq} {s : Byte} (h : (s, q) ∈ paths t p) :
    ∃ r w, q = p ++ r ∧ t.follow r = some (.leaf w s) := by
  induction t generalizing p with
  | leaf w s' => simp [paths] at h; obtain ⟨rfl, rfl⟩ := h; exact ⟨[], w, by simp, rfl⟩
  | internal w l r ihl ihr =>
    simp only [paths, List.mem_append] at h
    rcases h with h | h
    · obtain ⟨x, v, rfl, hx⟩ := ihl h
      exact ⟨false :: x, v, by simp, by simpa [Tree.follow] using hx⟩
    · obtain ⟨x, v, rfl, hx⟩ := ihr h
      exact ⟨true :: x, v, by simp, by simpa [Tree.follow] using hx⟩

/-- The last entry set for a symbol is the one that stays. -/
theorem lastEntry_eq (s : Byte) (l : List (Byte × BitSeq)) :
    lastEntry s l = ((l.filter fun x => x.1 = s).getLast?).map Prod.snd := by
  induction l with
  | nil => rfl
  | cons x l ih =>
    obtain ⟨s', p⟩ := x
    simp only [lastEntry, ih, List.filter_cons]
    by_cases h : s' = s
    · simp only [h, decide_true, if_true]
      cases hl : (l.filter fun x => x.1 = s) with
      | nil => simp
      | cons y m => simp [List.getLast?_cons]
    · simp only [h, decide_false, Bool.false_eq_true, if_false]
      cases ((l.filter fun x => x.1 = s).getLast?) <;> rfl

/-- The length field read back (46_codec_facade.md R182). -/
theorem lengthField_be32 (n : Word) (rest : List Byte) : lengthField (be32 n ++ rest) = n.toNat := by
  simp only [be32, lengthField, List.cons_append, List.nil_append]
  exact ube32_be32 n

@[simp] theorem length_be32 (n : Word) : (be32 n).length = 4 := rfl

/-- Reading back a container whose tree section is the serialized tree. -/
theorem decompress_container (t : Tree) (hleaves : t.leaves.length ≤ 256) (hcap : 2559 ≤ par.tbitsCap) (enc : BitSeq) (lim : Option Nat) :
    decompress par (container (BitVec.ofNat 32 (serialize t).length) (serialize t) enc) lim =
      .ok (walk t (limited lim (unpack (pack enc)))) := by
  have hlen := length_serialize t
  have hpos := t.leaves_length_pos
  have hn : (BitVec.ofNat 32 (serialize t).length).toNat = (serialize t).length := by
    rw [BitVec.toNat_ofNat]; omega
  have hc : container (BitVec.ofNat 32 (serialize t).length) (serialize t) enc =
    be32 (BitVec.ofNat 32 (serialize t).length) ++ (pack (serialize t) ++ pack enc) := by simp [container]
  rw [hc]
  generalize hw : BitVec.ofNat 32 (serialize t).length = w at *
  have hlf : lengthField (be32 w ++ (pack (serialize t) ++ pack enc)) = (serialize t).length := by
    rw [lengthField_be32, hn]
  have hpl := length_pack (serialize t)
  have hd : (be32 w ++ (pack (serialize t) ++ pack enc)).drop 4 = pack (serialize t) ++ pack enc := by
    rw [List.drop_append_of_le_length (by simp)]; rfl
  have hd2 : (be32 w ++ (pack (serialize t) ++ pack enc)).drop (4 + ceil8 (serialize t).length) = pack enc := by
    rw [← List.drop_drop, hd, List.drop_append_of_le_length (by omega), List.drop_eq_nil_of_le (by omega)]; rfl
  have ht : (unpack ((pack (serialize t) ++ pack enc).take (ceil8 (serialize t).length))).take (serialize t).length =
      serialize t := by
    rw [List.take_append_of_le_length (by omega), List.take_of_length_le (l := pack (serialize t)) (by omega), take_unpack_pack]
  have hds : deserialize par (serialize t) = some (t.zeroWeights par) := by simpa using deserialize_serialize_append t []
  unfold decompress
  rw [if_neg (by simp)]
  simp only [hlf, hd, hd2, ht, hds, walk_zeroWeights]
  rw [if_neg (by simp; omega), if_neg (by omega), if_neg (by omega)]

/-- Limited to their exact number, the bits come back without the pad. -/
theorem limited_exact (enc : BitSeq) : limited (some enc.length) (unpack (pack enc)) = enc := take_unpack_pack enc

/-- Walking the code words of some bytes gives the bytes (46_codec_facade.md R183). -/
theorem walk_encode {t : Tree} {bytes : List Byte} {enc : BitSeq} (h : encodeBytes (codes t) bytes = some enc) :
    walk t enc = bytes := by
  cases t with
  | leaf w s =>
    obtain ⟨h1, h2⟩ := walk_encode_leaf h
    rw [h1, h2]; simp [walk]
  | internal w l r => simpa [walk, walkFrom] using walk_encode_append h []

/-- The leftmost leaf has the code of zeros only. -/
theorem leftmost_paths (t : Tree) (p : BitSeq) : (t.leftmost.1, p ++ List.replicate t.leftmost.2 false) ∈ paths t p := by
  induction t generalizing p with
  | leaf => simp [Tree.leftmost, paths]
  | internal w l r ihl _ =>
    simp only [Tree.leftmost, paths, List.mem_append]
    left
    have := ihl (p ++ [false])
    simpa [List.replicate_succ] using this

/-- Too few zeros for the leftmost leaf give no symbol. -/
theorem walkFrom_short {root t : Tree} (n : Nat) (h : n < t.leftmost.2) : walkFrom root t (List.replicate n false) = [] := by
  induction n generalizing t with
  | zero => cases t <;> simp [walkFrom]
  | succ n ih =>
    cases t with
    | leaf => simp [Tree.leftmost] at h
    | internal w l r =>
      simp only [Tree.leftmost] at h
      simp only [List.replicate_succ, walkFrom, Bool.false_eq_true, if_false]
      cases l with
      | leaf => simp [Tree.leftmost] at h
      | internal w' l' r' => simp only; exact ih (by omega)

/-- What pad zeros decode to (46_codec_facade.md R192 (c)). -/
theorem walk_zeros (w : Nat) (l r : Tree) (n : Nat) :
    walk (.internal w l r) (List.replicate n false) =
      List.replicate (n / (Tree.internal w l r).leftmost.2) (Tree.internal w l r).leftmost.1 := by
  have hpos : 0 < (Tree.internal w l r).leftmost.2 := by simp [Tree.leftmost]
  generalize ht : Tree.internal w l r = t at *
  have hroot : ∀ w s, t ≠ .leaf w s := by intro w s; rw [← ht]; simp
  have hwalk : ∀ b, walk t b = walkFrom t t b := by intro b; rw [← ht]; rfl
  rw [hwalk]
  induction n using Nat.strong_induction_on with
  | _ n ih =>
    by_cases h : n < t.leftmost.2
    · rw [walkFrom_short n h, Nat.div_eq_of_lt h]; rfl
    · have h1 : List.replicate n false = (List.replicate t.leftmost.2 false).drop ([] : BitSeq).length ++ List.replicate (n - t.leftmost.2) false := by
        simp; omega
      have hm := leftmost_paths t []
      rw [List.nil_append] at hm
      rw [h1, walkFrom_path hm _ hroot, ih _ (by omega)]
      rw [show n / t.leftmost.2 = (n - t.leftmost.2) / t.leftmost.2 + 1 by
        rw [← Nat.add_div_right _ hpos]; congr 1; omega]
      simp [List.replicate_succ]

/-- A path cut short gives no symbol (46_codec_facade.md R183). -/
theorem walkFrom_unfinished {root t : Tree} {p q : BitSeq} {s : Byte} {x : BitSeq} (h : (s, p ++ q ++ x) ∈ paths t p)
    (hx : x ≠ []) : walkFrom root t q = [] := by
  induction t generalizing p q with
  | leaf w s' =>
    simp [paths] at h
    exact absurd h.2.2 hx
  | internal w l r ihl ihr =>
    cases q with
    | nil => simp [walkFrom]
    | cons b q =>
      have hlr : (b = false ∧ (s, p ++ [false] ++ q ++ x) ∈ paths l (p ++ [false])) ∨ (b = true ∧ (s, p ++ [true] ++ q ++ x) ∈ paths r (p ++ [true])) := by
        simp only [paths, List.mem_append] at h
        rcases h with h | h
        · have := paths_prefix h
          have hb : b = false := by
            obtain ⟨z, hz⟩ := this
            simp at hz; exact hz.1
          subst hb; left; exact ⟨rfl, by simpa using h⟩
        · have := paths_prefix h
          have hb : b = true := by
            obtain ⟨z, hz⟩ := this
            simp at hz; exact hz.1
          subst hb; right; exact ⟨rfl, by simpa using h⟩
      rcases hlr with ⟨rfl, hm⟩ | ⟨rfl, hm⟩
      · simp only [walkFrom, Bool.false_eq_true, if_false]
        cases l with
        | leaf w' s' => simp [paths] at hm; exact absurd hm.2.2 hx
        | internal w' l' r' => simp only; exact ihl hm
      · simp only [walkFrom, if_true]
        cases r with
        | leaf w' s' => simp [paths] at hm; exact absurd hm.2.2 hx
        | internal w' l' r' => simp only; exact ihr hm

/-- A length field has 32 bits. -/
theorem lengthField_lt {bytes : List Byte} : lengthField bytes < 2 ^ 32 := by
  match bytes with
  | a :: b :: d :: e :: _ => exact ube32_lt a b d e
  | [] | [_] | [_, _] | [_, _, _] => simp [lengthField]

end Sys2Proof.Machine
end

