-- ==== Sys2Proof/Laws/Build.lean ====
section
/-! SUPPORT. Laws of the tree builder: the heap yields a least entry, every merge is a greedy step, and what `buildRecords` leaves (42_tree_builder.md R121 to R125). -/

namespace Sys2Proof.Machine

variable {p : Params}

/-! ## The heap -/

/-- Heap entries by weight alone: what a pop promises (42_tree_builder.md R121). -/
def HeapSorted (h : List HeapEntry) : Prop := h.Pairwise fun a b => a.weight ≤ b.weight

theorem HeapEntry.le_of_before {a b : HeapEntry} (h : a.before p b = true) : a.weight ≤ b.weight := by
  simp only [HeapEntry.before, Bool.or_eq_true, decide_eq_true_eq, Bool.and_eq_true, beq_iff_eq] at h
  rcases h with h | h
  · omega
  · rw [h.1]

theorem HeapEntry.le_of_not_before {a b : HeapEntry} (h : ¬ a.before p b = true) : b.weight ≤ a.weight := by
  simp only [HeapEntry.before, Bool.or_eq_true, decide_eq_true_eq] at h
  omega

theorem heapPush_perm (e : HeapEntry) (h : List HeapEntry) : (heapPush p e h).Perm (e :: h) := by
  induction h with
  | nil => exact .refl _
  | cons x h ih =>
    simp only [heapPush]
    split
    · exact .refl _
    · exact (ih.cons x).trans (.swap e x h)

@[simp] theorem heapPush_length (e : HeapEntry) (h : List HeapEntry) : (heapPush p e h).length = h.length + 1 := by
  simpa using (heapPush_perm e h).length_eq

theorem heapPush_sorted (e : HeapEntry) {h : List HeapEntry} (hs : HeapSorted h) : HeapSorted (heapPush p e h) := by
  induction h with
  | nil => simp [heapPush, HeapSorted]
  | cons x h ih =>
    simp only [HeapSorted, List.pairwise_cons] at hs
    simp only [heapPush]
    split
    · rename_i hb
      have hle := HeapEntry.le_of_before hb
      simp only [HeapSorted, List.pairwise_cons]
      refine ⟨?_, hs⟩
      intro y hy
      rcases List.mem_cons.mp hy with rfl | hy
      · exact hle
      · exact Nat.le_trans hle (hs.1 y hy)
    · rename_i hb
      have hle := HeapEntry.le_of_not_before hb
      simp only [HeapSorted, List.pairwise_cons]
      refine ⟨?_, ih hs.2⟩
      intro y hy
      rcases List.mem_cons.mp ((heapPush_perm e h).mem_iff.mp hy) with rfl | hy
      · exact hle
      · exact hs.1 y hy

/-! ## The forest a heap stands for

`Forest recs heap forest`: entry by entry, the records reached from the entry's index stand for the tree, whose weight is
the entry's key. A tree comes with the indices of its records. -/

/-- One heap entry and the tree it stands for. -/
structure EntryOk (recs : List Node) (e : HeapEntry) (x : Tree × List Nat) : Prop where
  stands : Stands recs e.index x.1 x.2
  weight : e.weight = x.1.weight
  index : e.index < recs.length

/-- The state of the reduction: the heap in order, the trees it stands for, no record in two of them and every record in
one, and weights that add up to `total`. -/
structure Reduction (recs : List Node) (heap : List HeapEntry) (forest : List (Tree × List Nat)) (total : Nat) : Prop where
  entries : List.Forall₂ (EntryOk recs) heap forest
  sorted : HeapSorted heap
  cover : (forest.flatMap Prod.snd).Perm (List.range recs.length)
  total : (forest.map fun x => x.1.weight).sum = total
  adds : ∀ x ∈ forest, x.1.weightsAdd

theorem EntryOk.append {recs : List Node} {e : HeapEntry} {x : Tree × List Nat} (h : EntryOk recs e x) (more : List Node) :
    EntryOk (recs ++ more) e x :=
  ⟨h.stands.append more, h.weight, by simp; have := h.index; omega⟩

/-- A push puts the new tree at the same place among the trees as its entry among the entries. -/
theorem forest_push {recs : List Node} {e : HeapEntry} {x : Tree × List Nat} (hx : EntryOk recs e x)
    {heap : List HeapEntry} {forest : List (Tree × List Nat)} (h : List.Forall₂ (EntryOk recs) heap forest) :
    ∃ forest', List.Forall₂ (EntryOk recs) (heapPush p e heap) forest' ∧ forest'.Perm (x :: forest) := by
  induction h with
  | nil => exact ⟨[x], .cons hx .nil, .refl _⟩
  | @cons a y heap forest ha htail ih =>
    simp only [heapPush]
    split
    · exact ⟨x :: y :: forest, .cons hx (.cons ha htail), .refl _⟩
    · obtain ⟨f', hf, hp⟩ := ih
      exact ⟨y :: f', .cons ha hf, (hp.cons y).trans (.swap x y forest)⟩

/-- The trees of a forest as a multiset. -/
def treesOf (forest : List (Tree × List Nat)) : Multiset Tree := (forest.map Prod.fst : List Tree)

theorem treesOf_perm {f f' : List (Tree × List Nat)} (h : f.Perm f') : treesOf f = treesOf f' :=
  Quotient.sound (h.map Prod.fst)

/-- In a sorted heap the first entry's tree weighs no more than any other. -/
theorem forest_first_least {recs : List Node} {a : HeapEntry} {x : Tree × List Nat} {heap : List HeapEntry}
    {forest : List (Tree × List Nat)} (ha : EntryOk recs a x) (h : List.Forall₂ (EntryOk recs) heap forest)
    (hs : ∀ b ∈ heap, a.weight ≤ b.weight) : ∀ t ∈ treesOf forest, x.1.weight ≤ t.weight := by
  induction h with
  | nil => simp [treesOf]
  | @cons b y heap forest hb _ ih =>
    intro t ht
    have e : treesOf (y :: forest) = y.1 ::ₘ treesOf forest := rfl
    rw [e, Multiset.mem_cons] at ht
    rcases ht with rfl | ht
    · rw [← ha.weight, ← hb.weight]; exact hs b (by simp)
    · exact ih (fun b hb => hs b (List.mem_cons_of_mem _ hb)) t ht

/-- One merge step (42_tree_builder.md R122) is a greedy step on the trees (R125), whichever child the node popped first
becomes, and keeps the state of the reduction. -/
theorem Reduction.merge {recs : List Node} {a b : HeapEntry} {heap : List HeapEntry} {x y : Tree × List Nat}
    {forest : List (Tree × List Nat)} {total : Nat} (h : Reduction recs (a :: b :: heap) (x :: y :: forest) total) :
    ∃ forest', Reduction
        (recs ++ [.internal (a.weight + b.weight)
          (childrenOf p a.index b.index).1 (childrenOf p a.index b.index).2])
        (heapPush p ⟨(a.weight + b.weight), recs.length⟩ heap) forest' total ∧
      GreedyStep (treesOf (x :: y :: forest)) (treesOf forest') := by
  obtain ⟨hent, hsort, hcov, htotal, hadds⟩ := h
  cases hent with
  | cons ha hent =>
  cases hent with
  | cons hb hent =>
  have hsum : x.1.weight + y.1.weight + (forest.map fun x => x.1.weight).sum = total := by
    simpa [Nat.add_assoc] using htotal
  have hw : a.weight + b.weight = x.1.weight + y.1.weight := by rw [ha.weight, hb.weight]
  have hst : HeapSorted (b :: heap) := (List.pairwise_cons.mp hsort).2
  have hsh : HeapSorted heap := (List.pairwise_cons.mp hst).2
  have hx : ∀ u ∈ treesOf (y :: forest), x.1.weight ≤ u.weight :=
    forest_first_least ha (.cons hb hent) (List.pairwise_cons.mp hsort).1
  have hy : ∀ u ∈ treesOf forest, y.1.weight ≤ u.weight := forest_first_least hb hent (List.pairwise_cons.mp hst).1
  generalize a.weight + b.weight = w at hw ⊢
  -- the two children in their order, with what they stand for
  obtain ⟨l, r, tl, tr, hc, hl, hr, hwt, hvs, hal, har, hg⟩ : ∃ (l r : HeapEntry) (tl tr : Tree × List Nat),
      childrenOf p a.index b.index = (l.index, r.index) ∧ EntryOk recs l tl ∧ EntryOk recs r tr ∧
      x.1.weight + y.1.weight = tl.1.weight + tr.1.weight ∧ (tl.2 ++ tr.2).Perm (x.2 ++ y.2) ∧
      tl.1.weightsAdd ∧ tr.1.weightsAdd ∧
      GreedyStep (treesOf (x :: y :: forest)) (.internal (x.1.weight + y.1.weight) tl.1 tr.1 ::ₘ treesOf forest) := by
    have hax := hadds x (by simp)
    have hay := hadds y (by simp)
    cases hco : p.childOrder with
    | firstPoppedLeft =>
      exact ⟨a, b, x, y, by simp [childrenOf, hco], ha, hb, rfl, .refl _, hax, hay,
        .firstLeft (treesOf forest) x.1 y.1 hx hy⟩
    | secondPoppedLeft =>
      exact ⟨b, a, y, x, by simp [childrenOf, hco], hb, ha, Nat.add_comm _ _, List.perm_append_comm, hay, hax,
        .firstRight (treesOf forest) x.1 y.1 hx hy⟩
  rw [hc]
  let z : Tree × List Nat := (.internal (x.1.weight + y.1.weight) tl.1 tr.1, recs.length :: (tl.2 ++ tr.2))
  let n : Node := .internal w l.index r.index
  have hz : EntryOk (recs ++ [n]) ⟨w, recs.length⟩ z := by
    refine ⟨?_, hw, by simp⟩
    have key : Stands (recs ++ [n]) recs.length (.internal w tl.1 tr.1) (recs.length :: (tl.2 ++ tr.2)) :=
      .internal (l := l.index) (r := r.index) (by simp [n]) (hl.stands.append _) (hr.stands.append _)
    rw [hw] at key; exact key
  have hent' : List.Forall₂ (EntryOk (recs ++ [n])) heap forest := hent.imp fun _ _ h => h.append _
  obtain ⟨forest', hf', hperm⟩ := forest_push hz hent'
  refine ⟨forest', ⟨hf', heapPush_sorted _ hsh, ?_, ?_, ?_⟩, ?_⟩
  · refine (hperm.flatMap_right _).trans ?_
    have e : (z :: forest).flatMap Prod.snd = recs.length :: ((tl.2 ++ tr.2) ++ forest.flatMap Prod.snd) := by simp [z]
    have e' : (x :: y :: forest).flatMap Prod.snd = (x.2 ++ y.2) ++ forest.flatMap Prod.snd := by simp
    rw [e, List.length_append, List.length_singleton, List.range_succ]
    rw [e'] at hcov
    exact (((hvs.append_right _).trans hcov).cons _).trans (List.perm_append_singleton _ _).symm
  · have := (hperm.map fun x : Tree × List Nat => x.1.weight).sum_eq
    have hz1 : z.1.weight = x.1.weight + y.1.weight := rfl
    rw [this, List.map_cons, List.sum_cons, hz1, hsum]
  · intro u hu
    rcases List.mem_cons.mp (hperm.mem_iff.mp hu) with rfl | hu
    · exact ⟨hwt, hal, har⟩
    · exact hadds u (by simp [hu])
  · rw [treesOf_perm hperm]; exact hg

/-- The whole loop (42_tree_builder.md R122, R123). -/
theorem mergeLoop_reduction {recs : List Node} {heap : List HeapEntry} {forest : List (Tree × List Nat)} {total : Nat}
    (fuel : Nat) (h : Reduction recs heap forest total)
    (hf : heap.length ≤ fuel + 1) (hne : heap ≠ []) :
    ∃ e x, (mergeLoop p fuel recs heap).2 = [e] ∧
      Reduction (mergeLoop p fuel recs heap).1 [e] [x] total ∧
      (mergeLoop p fuel recs heap).1.length = recs.length + (heap.length - 1) ∧
      recs <+: (mergeLoop p fuel recs heap).1 ∧
      Relation.ReflTransGen GreedyStep (treesOf forest) {x.1} := by
  induction fuel generalizing recs heap forest with
  | zero =>
    match heap, h, hne, hf with
    | [e], h, _, _ =>
      obtain ⟨x, rfl⟩ : ∃ x, forest = [x] := by
        cases h.entries with
        | cons hx ht => cases ht; exact ⟨_, rfl⟩
      exact ⟨e, x, rfl, h, by simp [mergeLoop], List.prefix_refl _, .refl⟩
    | _ :: _ :: _, _, _, hf => simp at hf
  | succ fuel ih =>
    match heap, h, hne, hf with
    | [e], h, _, _ =>
      obtain ⟨x, rfl⟩ : ∃ x, forest = [x] := by
        cases h.entries with
        | cons hx ht => cases ht; exact ⟨_, rfl⟩
      exact ⟨e, x, rfl, h, by simp [mergeLoop], List.prefix_refl _, .refl⟩
    | a :: b :: heap, h, _, hf =>
      obtain ⟨x, y, forest, rfl⟩ : ∃ x y f, forest = x :: y :: f := by
        cases h.entries with
        | cons hx ht => cases ht; exact ⟨_, _, _, rfl⟩
      simp only [List.length_cons] at hf
      obtain ⟨forest', hr, hg⟩ := h.merge
      obtain ⟨e, x', h1, h2, h3, h4, h5⟩ := ih hr (by simp; omega)
        (by intro hc; have := congrArg List.length hc; simp at this)
      refine ⟨e, x', h1, h2, ?_, ?_, .head hg h5⟩
      · simp only [mergeLoop]
        have h3' := h3
        simp only [List.length_append, List.length_singleton, heapPush_length] at h3'
        rw [h3']; simp; omega
      · exact (List.prefix_append _ _).trans h4

/-! ## The leaves -/

theorem mem_allSymbols (s : Byte) : s ∈ allSymbols := by
  simp only [allSymbols, List.mem_map, List.mem_range]
  exact ⟨s.toNat, s.isLt, by simp⟩

theorem allSymbols_nodup : allSymbols.Nodup := by
  refine List.Nodup.map_on ?_ List.nodup_range
  intro a ha b hb h
  have := congrArg BitVec.toNat h
  simp only [List.mem_range] at ha hb
  simp only [BitVec.toNat_ofNat] at this
  omega

/-- The leaf records are those of the alphabet in ascending order (42_tree_builder.md R120). -/
theorem leafRecords_eq (freq : Vector Nat 256) :
    leafRecords freq = (alphabet (freqOf freq)).map fun s => .leaf (freq.getD s.toNat 0) s := by
  have key : ∀ l : List Nat, (∀ i ∈ l, i < 256) →
      l.filterMap (fun s => if freq.getD s 0 == 0 then none else some (Node.leaf (freq.getD s 0) (BitVec.ofNat 8 s))) =
        ((l.map (BitVec.ofNat 8)).filter fun s => freqOf freq s ≠ 0).map fun s => .leaf (freq.getD s.toNat 0) s := by
    intro l hl
    induction l with
    | nil => rfl
    | cons i l ih =>
      have hi := hl i (by simp)
      have e : (BitVec.ofNat 8 i).toNat = i := by rw [BitVec.toNat_ofNat, Nat.mod_eq_of_lt (by omega)]
      have ih' := ih fun j hj => hl j (List.mem_cons_of_mem _ hj)
      rw [List.map_cons, List.filterMap_cons, List.filter_cons]
      have hf : freqOf freq (BitVec.ofNat 8 i) = freq.getD i 0 := by rw [freqOf, e]
      have hz : decide (freqOf freq (BitVec.ofNat 8 i) ≠ 0) = !(freq.getD i 0 == 0) := by
        rw [hf]
        by_cases h : freq.getD i 0 = 0
        · rw [h]; rfl
        · have h1 : freq.getD i 0 ≠ 0 := fun h0 => h h0
          have h2 : (freq.getD i 0 == 0) = false := beq_eq_false_iff_ne.mpr h
          rw [h2, Bool.not_false]; exact decide_eq_true h1
      rw [hz]
      cases h : (freq.getD i 0 == 0)
      · simp only [Bool.false_eq_true, if_false, Bool.not_false, if_true, List.map_cons, e]
        rw [ih']
      · simp only [if_true, Bool.not_true, Bool.false_eq_true, if_false]
        exact ih'
  exact key (List.range 256) (by simp)

theorem leafRecords_length_le (freq : Vector Nat 256) : (leafRecords freq).length ≤ 256 := by
  rw [leafRecords_eq, List.length_map, alphabet]
  exact (List.length_filter_le _ _).trans (by simp [allSymbols])

/-- Pushing the leaf records one after another, with the state of the reduction. -/
theorem pushRecords_reduction (all done todo : List Node) (hall : all = done ++ todo)
    (hleaf : ∀ n ∈ all, ∃ w s, n = .leaf w s) (heap : List HeapEntry) (forest : List (Tree × List Nat))
    (hent : List.Forall₂ (EntryOk all) heap forest) (hs : HeapSorted heap)
    (hcov : (forest.flatMap Prod.snd).Perm (List.range done.length)) (hadds : ∀ x ∈ forest, x.1.weightsAdd) :
    ∃ forest', List.Forall₂ (EntryOk all) (pushRecords p heap done.length todo) forest' ∧
      HeapSorted (pushRecords p heap done.length todo) ∧
      (forest'.flatMap Prod.snd).Perm (List.range all.length) ∧ (∀ x ∈ forest', x.1.weightsAdd) ∧
      (pushRecords p heap done.length todo).length = heap.length + todo.length ∧
      (forest'.map Prod.fst).Perm (todo.map (fun n => match n with
        | .leaf w s => Tree.leaf w s
        | .internal _ _ _ => Tree.leaf 0 0) ++ forest.map Prod.fst) := by
  induction todo generalizing done heap forest with
  | nil =>
    simp only [List.append_nil] at hall; subst hall
    exact ⟨forest, hent, hs, hcov, hadds, by simp [pushRecords], by simp⟩
  | cons n todo ih =>
    obtain ⟨w, s, rfl⟩ := hleaf n (by simp [hall])
    have hidx : all[done.length]? = some (.leaf w s) := by simp [hall]
    have hx : EntryOk all ⟨w, done.length⟩ (.leaf w s, [done.length]) :=
      ⟨.leaf hidx, rfl, by simp [hall]⟩
    obtain ⟨f1, hf1, hp1⟩ := forest_push hx hent
    have hcov1 : (f1.flatMap Prod.snd).Perm (List.range (done ++ [Node.leaf w s]).length) := by
      refine (hp1.flatMap_right _).trans ?_
      rw [List.length_append, List.length_singleton, List.range_succ]
      simp only [List.flatMap_cons, List.singleton_append]
      exact (hcov.cons _).trans (List.perm_append_singleton _ _).symm
    have hadds1 : ∀ x ∈ f1, x.1.weightsAdd := by
      intro x hx
      rcases List.mem_cons.mp (hp1.mem_iff.mp hx) with rfl | hx
      · trivial
      · exact hadds x hx
    obtain ⟨f2, h1, h2, h3, h4, h5, h6⟩ := ih (done ++ [.leaf w s]) (by simp [hall])
      (heapPush p ⟨w, done.length⟩ heap) f1 hf1 (heapPush_sorted _ hs) hcov1 hadds1
    have e : pushRecords p heap done.length (.leaf w s :: todo) =
        pushRecords p (heapPush p ⟨w, done.length⟩ heap) (done ++ [Node.leaf w s]).length todo := by
      simp [pushRecords, Node.weight]
    rw [e]
    refine ⟨f2, h1, h2, h3, h4, by rw [h5]; simp; omega, h6.trans ?_⟩
    have := (hp1.map Prod.fst).append_left (todo.map (fun n => match n with
        | .leaf w s => Tree.leaf w s
        | .internal _ _ _ => Tree.leaf 0 0))
    refine this.trans ?_
    simp only [List.map_cons, List.cons_append]
    exact List.perm_middle

/-- What BUILD makes from a table that is not empty: the records stand for one
tree with the heap's root index, that tree is a Huffman tree of the table, no record is left out or shared, and there are
2·k − 1 of them for an alphabet of k (42_tree_builder.md R120 to R125). -/
theorem buildRecords_spec (freq : Vector Nat 256) (hne : leafRecords freq ≠ []) :
    ∃ t vs, Stands (buildRecords p freq).1 (buildRecords p freq).2 t vs ∧
      vs.Perm (List.range (buildRecords p freq).1.length) ∧
      (buildRecords p freq).1.length + 1 = 2 * (leafRecords freq).length ∧
      (buildRecords p freq).2 < (buildRecords p freq).1.length ∧
      leafRecords freq <+: (buildRecords p freq).1 ∧
      t.size = (buildRecords p freq).1.length ∧ t.weightsAdd ∧
      HuffmanTree (freqOf freq) t := by
  have hle := leafRecords_length_le freq
  have hpos : 0 < (leafRecords freq).length := List.length_pos_iff.mpr hne
  obtain ⟨forest, hent, hs, hcov, hadds, hlen, hperm⟩ :=
    pushRecords_reduction (p := p) (leafRecords freq) [] (leafRecords freq) rfl
      (by rw [leafRecords_eq]; intro n hn; simp only [List.mem_map] at hn; obtain ⟨s, _, rfl⟩ := hn; exact ⟨_, _, rfl⟩)
      [] [] .nil .nil (by simp) (by simp)
  simp only [List.length_nil, Nat.zero_add, List.map_nil, List.append_nil] at hent hs hlen hperm
  have htrees : treesOf forest = initialForest (freqOf freq) := by
    refine (Quotient.sound hperm).trans ?_
    rw [initialForest, leafRecords_eq, List.map_map]
    rfl
  have htot : (forest.map fun x => x.1.weight).sum = ((alphabet (freqOf freq)).map (freqOf freq)).sum := by
    have h1 : (forest.map fun x => x.1.weight) = (forest.map Prod.fst).map Tree.weight := by simp
    rw [h1, (hperm.map Tree.weight).sum_eq, leafRecords_eq, List.map_map, List.map_map]
    rfl
  obtain ⟨e, x, h1, h2, h3, h4, h5⟩ := mergeLoop_reduction (p := p) (pushRecords p [] 0 (leafRecords freq)).length
    (⟨hent, hs, hcov, htot, hadds⟩ : Reduction (leafRecords freq) (pushRecords p [] 0 (leafRecords freq)) forest _)
    (by omega) (by intro h; simp [h] at hlen; omega)
  obtain ⟨hent2, -, hcov2, -, hadds2⟩ := h2
  cases hent2 with
  | cons hx _ =>
  have e1 : (buildRecords p freq).1 = (mergeLoop p (pushRecords p [] 0 (leafRecords freq)).length (leafRecords freq) (pushRecords p [] 0 (leafRecords freq))).1 := rfl
  have e2 : (buildRecords p freq).2 = e.index := by simp only [buildRecords, h1]
  rw [e1, e2]
  have hvs : x.2.Perm (List.range (mergeLoop p (pushRecords p [] 0 (leafRecords freq)).length (leafRecords freq) (pushRecords p [] 0 (leafRecords freq))).1.length) := by simpa using hcov2
  refine ⟨x.1, x.2, hx.stands, hvs, by rw [h3, hlen]; omega, hx.index, h4, ?_, hadds2 x (by simp), ?_⟩
  · rw [← hx.stands.length, hvs.length_eq, List.length_range]
  · rw [HuffmanTree, ← htrees]; exact h5

/-- Symbols that do not occur add nothing. -/
theorem sum_alphabet (h : Byte → Nat) : ((alphabet h).map h).sum = (allSymbols.map h).sum := by
  rw [alphabet]
  generalize allSymbols = l
  induction l with
  | nil => rfl
  | cons a l ih =>
    rw [List.filter_cons]
    by_cases h0 : h a = 0
    · simpa [h0] using ih
    · simpa [h0] using ih

/-- The alphabet is empty exactly when no symbol occurs. -/
theorem alphabet_ne_nil {h : Byte → Nat} : (∃ s, h s ≠ 0) ↔ alphabet h ≠ [] := by
  rw [alphabet, ne_eq, List.filter_eq_nil_iff]
  constructor
  · rintro ⟨s, hs⟩ hall; exact hall s (mem_allSymbols s) (by simpa using hs)
  · intro hn
    by_contra hc
    apply hn
    intro s _
    simp only [not_exists, not_not] at hc
    simp [hc s]

/-- Some symbol occurs, so there is a leaf record. -/
theorem leafRecords_ne {freq : Vector Nat 256} (h : ∃ s, freqOf freq s ≠ 0) : leafRecords freq ≠ [] := by
  rw [leafRecords_eq]; simpa using alphabet_ne_nil.mp h

/-- What the builder leaves (42_tree_builder.md R125). -/
theorem buildTree_spec (hp : p.Ok) (freq : Vector Nat 256) (hne : ∃ s, freqOf freq s ≠ 0) :
    ∃ t vs, Stands (buildRecords p freq).1 (buildRecords p freq).2 t vs ∧
      vs.Perm (List.range (buildRecords p freq).1.length) ∧
      (buildRecords p freq).1.length + 1 = 2 * (alphabet (freqOf freq)).length ∧
      (buildRecords p freq).1.length ≤ p.nodeCap ∧
      (buildRecords p freq).2 < (buildRecords p freq).1.length ∧
      t.size = (buildRecords p freq).1.length ∧ t.weightsAdd ∧
      HuffmanTree (freqOf freq) t ∧ buildTree p freq = some t := by
  have hle := leafRecords_length_le freq
  obtain ⟨t, vs, h1, h2, h3, h4, -, h6, h7, h8⟩ := buildRecords_spec (p := p) freq (leafRecords_ne hne)
  have hcap : (buildRecords p freq).1.length ≤ p.nodeCap := by have := hp.nodes511; omega
  refine ⟨t, vs, h1, h2, ?_, hcap, h4, h6, h7, h8, ?_⟩
  · rw [h3, leafRecords_eq, List.length_map]
  · rw [buildTree]; exact h1.treeOf_fuel hcap (by omega)

/-- All leaves of a forest. -/
def leavesOf (M : Multiset Tree) : Multiset (Nat × Byte) := M.bind fun t => (t.leaves : Multiset _)

/-- What every greedy step keeps: the leaves, the additive weights, the total (42_tree_builder.md R127). -/
structure ForestOk (h : Byte → Nat) (M : Multiset Tree) : Prop where
  leaves : leavesOf M = ((alphabet h).map fun s => (h s, s) : List _)
  adds : ∀ t ∈ M, t.weightsAdd
  total : (M.map Tree.weight).sum = (allSymbols.map h).sum

/-- The initial forest has it. -/
theorem ForestOk.initial (h : Byte → Nat) : ForestOk h (initialForest h) := by
  refine ⟨?_, ?_, ?_⟩
  · simp only [leavesOf, initialForest]
    generalize alphabet h = l
    induction l with
    | nil => rfl
    | cons a l ih =>
      simp only [List.map_cons, ← Multiset.cons_coe, Multiset.cons_bind, ih]
      rfl
  · intro t ht
    simp only [initialForest, Multiset.mem_coe, List.mem_map] at ht
    obtain ⟨s, _, rfl⟩ := ht
    trivial
  · rw [← sum_alphabet]
    simp only [initialForest, Multiset.map_coe, List.map_map, Multiset.sum_coe]
    rfl

/-- A greedy step keeps it. -/
theorem ForestOk.step {h : Byte → Nat} {M N : Multiset Tree} (hs : GreedyStep M N) (hm : ForestOk h M) : ForestOk h N := by
  obtain ⟨h1, h2, h3⟩ := hm
  cases hs with
  | firstLeft M a b ha hb =>
    refine ⟨?_, ?_, ?_⟩
    · rw [← h1]; simp [leavesOf, Tree.leaves, ← Multiset.coe_add, add_assoc]
    · intro t ht
      rw [Multiset.mem_cons] at ht
      rcases ht with rfl | ht
      · exact ⟨rfl, h2 a (by simp), h2 b (by simp)⟩
      · exact h2 t (by simp [ht])
    · rw [← h3]; simp [Tree.weight, add_assoc]
  | firstRight M a b ha hb =>
    refine ⟨?_, ?_, ?_⟩
    · rw [← h1]; simp [leavesOf, Tree.leaves, ← Multiset.coe_add, add_assoc, add_left_comm]
    · intro t ht
      rw [Multiset.mem_cons] at ht
      rcases ht with rfl | ht
      · exact ⟨Nat.add_comm _ _, h2 b (by simp), h2 a (by simp)⟩
      · exact h2 t (by simp [ht])
    · rw [← h3]; simp [Tree.weight, add_assoc]

/-- The alphabet lists every symbol once. -/
theorem alphabet_nodup (h : Byte → Nat) : (alphabet h).Nodup := allSymbols_nodup.filter _

/-- What the relation of 42_tree_builder.md R125 implies (R127). -/
theorem HuffmanTree.properties {h : Byte → Nat} {t : Tree} (ht : HuffmanTree h t) :
    t.leaves.Perm ((alphabet h).map fun s => (h s, s)) ∧ t.weight = (allSymbols.map h).sum ∧ t.weightsAdd := by
  have : ForestOk h {t} := by
    have := ForestOk.initial h
    unfold HuffmanTree at ht
    generalize initialForest h = M at *
    generalize ({t} : Multiset Tree) = N at *
    induction ht with
    | refl => exact this
    | tail _ hs ih => exact ForestOk.step hs ih
  obtain ⟨h1, h2, h3⟩ := this
  refine ⟨?_, by simpa using h3, h2 t (by simp)⟩
  simpa [leavesOf] using h1

/-- The leaves carry exactly the symbols that occur. -/
theorem HuffmanTree.symbols_perm {h : Byte → Nat} {t : Tree} (ht : HuffmanTree h t) : t.symbols.Perm (alphabet h) := by
  have := (HuffmanTree.properties ht).1.map Prod.snd
  simpa [Tree.symbols, List.map_map, Function.comp_def] using this

/-- With such a tree every input byte has a code, and the tree fits (42_tree_builder.md R127). -/
theorem HuffmanTree.encodes {bytes : List Byte} {t : Tree} (ht : HuffmanTree (fun s => bytes.count s) t) :
    (∃ enc, encodeBytes (codes t) bytes = some enc) ∧ t.leaves.length ≤ 256 := by
  have hs := HuffmanTree.symbols_perm ht
  constructor
  · have : (encodeBytes (codes t) bytes).isSome := by
      apply encodeBytes_isSome
      intro b hb
      rw [codes_isSome, hs.mem_iff, alphabet, List.mem_filter]
      refine ⟨mem_allSymbols b, by have := List.count_pos_iff.mpr hb; simp only [ne_eq, decide_eq_true_eq]; omega⟩
    exact Option.isSome_iff_exists.mp this
  · rw [← t.symbols_length, hs.length_eq]
    exact (List.length_filter_le _ _).trans (by simp [allSymbols])

/-- What a push adds. -/
theorem mem_heapPush {e x : HeapEntry} {h : List HeapEntry} : x ∈ heapPush p e h ↔ x = e ∨ x ∈ h := by
  rw [(heapPush_perm e h).mem_iff]; simp

/-- How many records the merge loop adds, and which index is left, for any weights (42_tree_builder.md R123). -/
theorem mergeLoop_places (fuel : Nat) (recs : List Node) (heap : List HeapEntry) (hf : heap.length ≤ fuel + 1)
    (hne : heap ≠ []) :
    ∃ e more, mergeLoop p fuel recs heap = (recs ++ more, [e]) ∧ more.length = heap.length - 1 ∧
      (2 ≤ heap.length → e.index = (recs ++ more).length - 1) ∧ (heap.length = 1 → [e] = heap) := by
  induction fuel generalizing recs heap with
  | zero =>
    match heap, hne, hf with
    | [a], _, _ => exact ⟨a, [], by simp [mergeLoop], rfl, by simp, by simp⟩
  | succ fuel ih =>
    match heap, hne with
    | [a], _ => exact ⟨a, [], by simp [mergeLoop], rfl, by simp, by simp⟩
    | a :: b :: heap, _ =>
      simp only [mergeLoop]
      generalize a.weight + b.weight = w
      generalize Node.internal w _ _ = n
      simp only [List.length_cons] at hf
      obtain ⟨e, more, h1, h2, h3, h4⟩ := ih (recs ++ [n]) (heapPush p ⟨w, recs.length⟩ heap) (by simp; omega)
        (by intro h; have := congrArg List.length h; simp at this)
      refine ⟨e, n :: more, by rw [h1]; simp, by simp at h2 ⊢; omega, ?_, by simp⟩
      intro _
      by_cases h : heap = []
      · subst h
        have e1 := h4 (by simp)
        simp [heapPush] at e1 h2
        simp [e1, h2]
      · have := h3 (by have := List.length_pos_iff.mpr h; simp; omega)
        rw [this]; simp

/-- The first heap has one entry for each leaf. -/
theorem pushRecords_length (recs : List Node) : ∀ (h : List HeapEntry) (i : Nat),
    (pushRecords p h i recs).length = h.length + recs.length := by
  induction recs with
  | nil => simp [pushRecords]
  | cons n recs ih =>
    intro h i
    simp [pushRecords, ih]; omega

/-! ## Which two records a merge takes

`HeapOk`: the heap is in the order of R121, its keys are the weights of the records, and it holds exactly the records that
wait to be merged. -/

theorem HeapEntry.before_iff {a b : HeapEntry} : a.before p b = true ↔ a.weight < b.weight ∨
    (a.weight = b.weight ∧ (p.tieBreak.getD a.index 0 < p.tieBreak.getD b.index 0 ∨
      (p.tieBreak.getD a.index 0 = p.tieBreak.getD b.index 0 ∧ a.index < b.index))) := by
  simp [HeapEntry.before, tieBefore]

/-- Entries with different indices are in one order or the other (42_tree_builder.md R121 "the order is total"). -/
theorem HeapEntry.before_total {a b : HeapEntry} (h : ¬ a.before p b = true) (hi : a.index ≠ b.index) :
    b.before p a = true := by
  rw [before_iff] at h ⊢; omega

theorem HeapEntry.before_trans {a b c : HeapEntry} (h : a.before p b = true) (h' : b.before p c = true) :
    a.before p c = true := by
  rw [before_iff] at h h' ⊢; omega

/-- A push of a new index keeps the order of R121. -/
theorem heapPush_ordered {e : HeapEntry} {h : List HeapEntry} (hs : h.Pairwise fun a b => a.before p b = true)
    (hn : ∀ x ∈ h, x.index ≠ e.index) : (heapPush p e h).Pairwise fun a b => a.before p b = true := by
  induction h with
  | nil => simp [heapPush]
  | cons x h ih =>
    obtain ⟨hx, hs'⟩ := List.pairwise_cons.mp hs
    simp only [heapPush]
    split
    · rename_i hb
      refine List.pairwise_cons.mpr ⟨?_, hs⟩
      intro y hy
      rcases List.mem_cons.mp hy with rfl | hy
      · exact hb
      · exact HeapEntry.before_trans hb (hx y hy)
    · rename_i hb
      refine List.pairwise_cons.mpr ⟨?_, ih hs' fun y hy => hn y (List.mem_cons_of_mem _ hy)⟩
      intro y hy
      rcases mem_heapPush.mp hy with rfl | hy
      · exact HeapEntry.before_total hb (hn x (by simp)).symm
      · exact hx y hy

/-- The heap between two merge steps. -/
structure HeapOk (p : Params) (recs : List Node) (heap : List HeapEntry) : Prop where
  ordered : heap.Pairwise fun a b => a.before p b = true
  weights : ∀ e ∈ heap, ∃ n, recs[e.index]? = some n ∧ n.weight = e.weight
  waits : ∀ i, i ∈ heap.map HeapEntry.index ↔ OpenAt recs recs.length i
  below : ∀ n ∈ recs, ∀ c ∈ n.children, c < recs.length

/-- What waits is decided by the records before. -/
theorem OpenAt.append {recs more : List Node} {j i : Nat} (hj : j ≤ recs.length) :
    OpenAt (recs ++ more) j i ↔ OpenAt recs j i := by
  constructor <;> rintro ⟨h, k⟩ <;> refine ⟨h, fun m n hm hn => k m n hm ?_⟩
  · rwa [List.getElem?_append_left (by omega)]
  · rwa [List.getElem?_append_left (by omega)] at hn

/-- What waits after a record was made: the record itself, and what waited and is no child of it. -/
theorem OpenAt.push {recs : List Node} {n : Node} (hb : ∀ m ∈ recs, ∀ c ∈ m.children, c < recs.length)
    (hn : ∀ c ∈ n.children, c < recs.length) (i : Nat) :
    OpenAt (recs ++ [n]) (recs.length + 1) i ↔ i = recs.length ∨ (OpenAt recs recs.length i ∧ i ∉ n.children) := by
  constructor
  · rintro ⟨h1, h2⟩
    by_cases hi : i = recs.length
    · exact .inl hi
    · refine .inr ⟨⟨by omega, fun m k hm hk => h2 m k (by omega) ?_⟩, h2 recs.length n (by omega) (by simp)⟩
      rwa [List.getElem?_append_left (by omega)]
  · intro h
    refine ⟨by rcases h with rfl | ⟨⟨h, _⟩, _⟩ <;> omega, fun m k hm hk => ?_⟩
    by_cases hml : m = recs.length
    · subst hml
      simp only [List.getElem?_concat_length, Option.some.injEq] at hk
      subst hk
      rcases h with rfl | ⟨_, h⟩
      · intro hc; exact absurd (hn _ hc) (by omega)
      · exact h
    · rw [List.getElem?_append_left (by omega)] at hk
      rcases h with rfl | ⟨⟨_, h⟩, _⟩
      · intro hc; exact absurd (hb k (List.mem_of_getElem? hk) _ hc) (by omega)
      · exact h m k (by omega) hk

/-- A new record and its entry: `heap` holds what waited, less the children of the new record. -/
theorem HeapOk.push {recs : List Node} {heap : List HeapEntry} {n : Node}
    (ho : heap.Pairwise fun a b => a.before p b = true)
    (hw : ∀ e ∈ heap, ∃ n, recs[e.index]? = some n ∧ n.weight = e.weight)
    (hi : ∀ i, i ∈ heap.map HeapEntry.index ↔ OpenAt recs recs.length i ∧ i ∉ n.children)
    (hb : ∀ m ∈ recs, ∀ c ∈ m.children, c < recs.length) (hn : ∀ c ∈ n.children, c < recs.length) :
    HeapOk p (recs ++ [n]) (heapPush p ⟨n.weight, recs.length⟩ heap) := by
  have hlt : ∀ e ∈ heap, e.index < recs.length := fun e he => by
    obtain ⟨k, hk, _⟩ := hw e he
    exact (List.getElem?_eq_some_iff.mp hk).1
  refine ⟨heapPush_ordered ho fun x hx => by have := hlt x hx; simp only; omega, ?_, ?_, ?_⟩
  · intro e he
    rcases mem_heapPush.mp he with rfl | he
    · exact ⟨n, by simp, rfl⟩
    · obtain ⟨k, hk, hkw⟩ := hw e he
      exact ⟨k, by rw [List.getElem?_append_left (hlt e he), hk], hkw⟩
  · intro i
    rw [List.length_append, List.length_singleton, OpenAt.push hb hn, ← hi,
      ((heapPush_perm _ _).map HeapEntry.index).mem_iff, List.map_cons, List.mem_cons]
  · intro m hm c hc
    rw [List.length_append, List.length_singleton]
    rcases List.mem_append.mp hm with hm | hm
    · have := hb m hm c hc; omega
    · rw [List.mem_singleton] at hm; subst hm; have := hn c hc; omega

/-- An entry's key is the weight of its record. -/
theorem HeapOk.weightAt {recs : List Node} {heap : List HeapEntry} (h : HeapOk p recs heap) {e : HeapEntry} (he : e ∈ heap)
    (more : List Node) : Machine.weightAt (recs ++ more) e.index = e.weight := by
  obtain ⟨n, hn, hw⟩ := h.weights e he
  rw [Machine.weightAt, List.getD_eq_getElem?_getD, List.getElem?_append_left (List.getElem?_eq_some_iff.mp hn).1, hn, ← hw]
  rfl

/-- The order of the heap is the order of the keys. -/
theorem HeapOk.keyBefore {recs : List Node} {heap : List HeapEntry} (h : HeapOk p recs heap) {e f : HeapEntry}
    (he : e ∈ heap) (hf : f ∈ heap) (hb : e.before p f = true) (more : List Node) :
    KeyBefore p (recs ++ more) e.index f.index := by
  rw [KeyBefore, h.weightAt he, h.weightAt hf]; exact HeapEntry.before_iff.mp hb

/-- The record a merge step adds, whatever is added after it (42_tree_builder.md R121, R122). -/
theorem HeapOk.mergedAt {recs : List Node} {a b : HeapEntry} {heap : List HeapEntry}
    (h : HeapOk p recs (a :: b :: heap)) {n : Node}
    (hn : n = .internal (a.weight + b.weight)
      (childrenOf p a.index b.index).1 (childrenOf p a.index b.index).2) (more : List Node) :
    MergedAt p (recs ++ n :: more) recs.length ∧ HeapOk p (recs ++ [n])
      (heapPush p ⟨(a.weight + b.weight), recs.length⟩ heap) := by
  obtain ⟨hoa, hor⟩ := List.pairwise_cons.mp h.ordered
  obtain ⟨hob, hoh⟩ := List.pairwise_cons.mp hor
  have hlt : ∀ e ∈ a :: b :: heap, e.index < recs.length := fun e he => by
    obtain ⟨k, hk, _⟩ := h.weights e he
    exact (List.getElem?_eq_some_iff.mp hk).1
  have ha : a ∈ a :: b :: heap := by simp
  have hb : b ∈ a :: b :: heap := by simp
  have hia := hlt a ha
  have hib := hlt b hb
  have hw : n.weight = (a.weight + b.weight) := by rw [hn]; rfl
  have hc : ∀ c, c ∈ n.children ↔ c = a.index ∨ c = b.index := by
    intro c
    subst hn
    cases hco : p.childOrder <;> simp only [childrenOf, hco, Node.children, List.mem_cons, List.not_mem_nil,
      or_false]
    exact or_comm
  have hne : ∀ e ∈ heap, e.index ≠ a.index ∧ e.index ≠ b.index := by
    -- two entries of one index are one entry, which does not come before itself
    have key : ∀ d ∈ a :: b :: heap, ∀ e ∈ a :: b :: heap, d.before p e = true → e.index ≠ d.index := by
      intro d hd e he hde hi
      obtain ⟨k, hk, hkw⟩ := h.weights d hd
      obtain ⟨k', hk', hkw'⟩ := h.weights e he
      rw [hi, hk] at hk'; cases hk'
      rw [HeapEntry.before_iff, ← hkw, ← hkw', hi] at hde
      omega
    exact fun e he => ⟨key a ha e (by simp [he]) (hoa e (by simp [he])), key b hb e (by simp [he]) (hob e he)⟩
  have hopen : ∀ i, OpenAt recs recs.length i ↔ i = a.index ∨ i = b.index ∨ i ∈ heap.map HeapEntry.index := by
    intro i; rw [← h.waits]; simp
  refine ⟨⟨a.index, b.index, (a.weight + b.weight), _, _, by rw [hn]; simp; exact ⟨rfl, rfl⟩,
    (OpenAt.append (by omega)).mpr ((hopen _).mpr (.inl rfl)), (OpenAt.append (by omega)).mpr ((hopen _).mpr (.inr (.inl rfl))),
    h.keyBefore ha hb (hoa b (by simp)) _, ?_, ?_, ?_, ?_⟩, ?_⟩
  · intro x hx hxa hxb
    rcases (hopen x).mp ((OpenAt.append (by omega)).mp hx) with rfl | rfl | hx
    · exact absurd rfl hxa
    · exact absurd rfl hxb
    · obtain ⟨e, he, rfl⟩ := List.mem_map.mp hx
      exact h.keyBefore hb (by simp [he]) (hob e he) _
  · rw [h.weightAt ha, h.weightAt hb]
  · intro hco
    simp [childrenOf, hco]
  · intro hco
    simp [childrenOf, hco]
  · rw [← hw]
    refine HeapOk.push hoh (fun e he => h.weights e (by simp [he])) ?_ h.below ?_
    · intro i
      rw [hc, hopen]
      constructor
      · intro hi
        obtain ⟨e, he, rfl⟩ := List.mem_map.mp hi
        have := hne e he
        exact ⟨.inr (.inr hi), by omega⟩
      · rintro ⟨rfl | rfl | hi, hn⟩
        · simp at hn
        · simp at hn
        · exact hi
    · intro c hcm
      rcases (hc c).mp hcm with rfl | rfl
      · exact hia
      · exact hib

/-- The merge loop only adds records. -/
theorem mergeLoop_append (fuel : Nat) (recs : List Node) (heap : List HeapEntry) :
    ∃ more, (mergeLoop p fuel recs heap).1 = recs ++ more := by
  induction fuel generalizing recs heap with
  | zero => exact ⟨[], by simp [mergeLoop]⟩
  | succ fuel ih =>
    match heap with
    | [] | [_] => exact ⟨[], by simp [mergeLoop]⟩
    | a :: b :: heap =>
      simp only [mergeLoop]
      obtain ⟨more, h⟩ := ih (recs ++ [_]) (heapPush p ⟨(a.weight + b.weight), recs.length⟩ heap)
      exact ⟨_ :: more, by rw [h, List.append_assoc]; rfl⟩

/-- Every record the merge loop adds merges the two least that wait (42_tree_builder.md R121, R122). -/
theorem mergeLoop_merged (fuel : Nat) {recs : List Node} {heap : List HeapEntry} (h : HeapOk p recs heap)
    {j : Nat} (hj : recs.length ≤ j)
    (hj' : j < (mergeLoop p fuel recs heap).1.length) : MergedAt p (mergeLoop p fuel recs heap).1 j := by
  induction fuel generalizing recs heap with
  | zero => simp only [mergeLoop] at hj'; omega
  | succ fuel ih =>
    match heap, h, hj' with
    | [], _, hj' => simp only [mergeLoop] at hj'; omega
    | [_], _, hj' => simp only [mergeLoop] at hj'; omega
    | a :: b :: heap, h, hj' =>
      simp only [mergeLoop] at hj' ⊢
      obtain ⟨more, hm⟩ := mergeLoop_append (p := p) fuel (recs ++ [.internal (a.weight + b.weight)
        (childrenOf p a.index b.index).1 (childrenOf p a.index b.index).2])
        (heapPush p ⟨(a.weight + b.weight), recs.length⟩ heap)
      obtain ⟨h1, h2⟩ := h.mergedAt rfl more
      by_cases he : j = recs.length
      · rw [hm, List.append_assoc, he]; exact h1
      · exact ih h2 (by simp; omega) hj'

/-- The heap of the leaves (42_tree_builder.md R120). -/
theorem pushRecords_heapOk (todo : List Node) {done : List Node} {heap : List HeapEntry} (h : HeapOk p done heap)
    (hleaf : ∀ n ∈ todo, n.children = []) :
    HeapOk p (done ++ todo) (pushRecords p heap done.length todo) := by
  induction todo generalizing done heap with
  | nil => simpa [pushRecords] using h
  | cons n todo ih =>
    have hn := hleaf n (by simp)
    have := ih (done := done ++ [n]) (HeapOk.push h.ordered h.weights (by simpa [hn] using h.waits) h.below (by simp [hn]))
      fun m hm => hleaf m (by simp [hm])
    simpa [pushRecords] using this

/-- Every internal record BUILD makes merges the two least that wait (42_tree_builder.md R120 to R123). -/
theorem buildRecords_merged (freq : Vector Nat 256) {j : Nat} (hj : (leafRecords freq).length ≤ j)
    (hj' : j < (buildRecords p freq).1.length) : MergedAt p (buildRecords p freq).1 j := by
  have h0 : HeapOk p [] [] := ⟨.nil, by simp, by simp [OpenAt], by simp⟩
  have h := pushRecords_heapOk (leafRecords freq) h0 (by
    rw [leafRecords_eq]; intro n hn; obtain ⟨s, -, rfl⟩ := List.mem_map.mp hn; rfl)
  exact mergeLoop_merged _ h hj hj'

/-- There are 256 symbols. -/
theorem alphabet_length_le (h : Byte → Nat) : (alphabet h).length ≤ 256 :=
  (List.length_filter_le _ _).trans (by simp [allSymbols])

end Sys2Proof.Machine
end

