-- ==== Sys2Proof/Laws/Command.lean ====
section
/-! SUPPORT. Laws of the command frame (Machine/Ops.lean; 40_control.md R100): the three ways a command can end, forwards
and backwards, and what its operands are. -/

namespace Sys2Proof.Machine

variable {ready : Status → Bool} {flags : State → Status → Status} {body : State → Body} {s t : State}

/-- What the frame cleared first does not show after a call error. -/
@[simp] theorem callError_beginCommand (e : ErrKind) (s : State) : callError e (beginCommand s) = callError e s := rfl

/-- What the frame cleared first does not show after an interface error. -/
@[simp] theorem interfaceError_beginCommand (e : ErrKind) (s : State) :
    interfaceError e (beginCommand s) = interfaceError e s := rfl

theorem runCommand_ok (hr : ready s.status.started = true) (hb : body (beginCommand s) = .ok t) :
    runCommand ready flags body s = .next { t with status := (flags t t.status).succeeded } := by
  simp [runCommand, beginCommand, hr] at hb ⊢
  simp [hb]

theorem runCommand_raise {e : ErrKind} (hr : ready s.status.started = true) (hb : body (beginCommand s) = .raise e) :
    runCommand ready flags body s = .next (callError e s) := by
  simp [runCommand, beginCommand, hr] at hb ⊢
  simp [hb]
  rfl

theorem runCommand_sequence (hr : ready s.status.started = false) :
    runCommand ready flags body s = .next (interfaceError .sequence s) := by
  simp [runCommand, beginCommand, hr]
  rfl

/-- The only ways a command answers a next state. -/
theorem runCommand_next (h : runCommand ready flags body s = .next t) :
    (ready s.status.started = false ∧ t = interfaceError .sequence s) ∨
      (ready s.status.started = true ∧ ∃ e, body (beginCommand s) = .raise e ∧ t = callError e s) ∨
      (ready s.status.started = true ∧ ∃ u, body (beginCommand s) = .ok u ∧
        t = { u with status := (flags u u.status).succeeded }) := by
  cases hr : ready s.status.started with
  | false => rw [runCommand_sequence hr] at h; cases h; exact .inl ⟨rfl, rfl⟩
  | true =>
    cases hb : body (beginCommand s) with
    | ok u => rw [runCommand_ok hr hb] at h; cases h; exact .inr (.inr ⟨rfl, u, rfl, rfl⟩)
    | raise e => rw [runCommand_raise hr hb] at h; cases h; exact .inr (.inl ⟨rfl, e, rfl, rfl⟩)
    | stuck f =>
      simp only [runCommand] at h
      simp [beginCommand, hr] at h hb
      simp [hb] at h

/-- A command stops only where its body has no defined operand. -/
theorem runCommand_ends (hb : ∀ f, body (beginCommand s) ≠ .stuck f) :
    ∃ t, runCommand ready flags body s = .next t := by
  cases hr : ready s.status.started with
  | false => exact ⟨_, runCommand_sequence hr⟩
  | true =>
    cases h : body (beginCommand s) with
    | ok u => exact ⟨_, runCommand_ok hr h⟩
    | raise e => exact ⟨_, runCommand_raise hr h⟩
    | stuck f => exact absurd h (hb f)

/-! ## Each command is the frame around its own Pseudocode, with its own row of 10_state.md R40 -/

theorem exec_nop : exec .nop = runCommand Status.reqNothing (fun _ f => f) (fun s0 => .ok s0) := rfl
theorem exec_clear : exec .clear =
    runCommand Status.reqNothing (fun _ f => f.noneValid) (fun s0 => .ok (clearCallState s0)) := rfl
theorem exec_count : exec .count = runCommand Status.reqNothing (fun _ f => f.afterCount) bodyCount := rfl
theorem exec_build : exec .build = runCommand Status.reqBuild (fun _ f => f.afterBuild) bodyBuild := rfl
theorem exec_gencode : exec .gencode = runCommand Status.reqGencode (fun _ f => f.afterGencode) bodyGencode := rfl
theorem exec_serialize : exec .serialize =
    runCommand Status.reqSerialize (fun _ f => f.afterSerialize) bodySerialize := rfl
theorem exec_pack : exec .pack = runCommand Status.reqPack (fun _ f => f.afterPack) bodyPack := rfl
theorem exec_unpack : exec .unpack = runCommand Status.reqNothing (fun _ f => f.afterUnpack) bodyUnpack := rfl
theorem exec_emit : exec .emit = runCommand Status.reqEmit (fun _ f => f.afterEmit) bodyEmit := rfl
theorem exec_parse : exec .parse = runCommand Status.reqNothing (fun _ f => f.afterParse) bodyParse := rfl
theorem exec_deserialize : exec .deserialize =
    runCommand Status.reqDeserialize (fun _ f => f.afterDeserialize) bodyDeserialize := rfl
theorem exec_decode (lim : Bool) : exec (.decode lim) =
    runCommand Status.reqDecode (fun _ f => f.afterDecode) (bodyDecode lim) := rfl
theorem exec_compress : exec .compress =
    runCommand Status.reqNothing (fun s1 f => f.afterCompress (s1.inLen == 0)) bodyCompress := rfl
theorem exec_decompress (lim : Bool) : exec (.decompress lim) =
    runCommand Status.reqNothing (fun s1 f => f.afterDecompress (s1.tbc == 0)) (bodyDecompress lim) := rfl

/-! ## Operands -/

/-- An input that fits `IN` is read. -/
theorem withInput_le {s : State} (h : s.inLen ≤ s.params.inCap) (k : List Byte → Body) :
    withInput s k = k (inputBytes s) := if_neg (Nat.not_lt.mpr h)

/-- A longer one is a Capacity error (60_exceptions.md R215 (a)). -/
theorem withInput_over {s : State} (h : s.params.inCap < s.inLen) (k : List Byte → Body) :
    withInput s k = .raise .capacity := if_pos h

/-- A body that reads `IN` succeeds only on an input that fits. -/
theorem withInput_ok {s t : State} {k : List Byte → Body} (h : withInput s k = .ok t) :
    s.inLen ≤ s.params.inCap ∧ k (inputBytes s) = .ok t := by
  rw [withInput] at h
  split at h
  · cases h
  · exact ⟨by omega, h⟩

/-- What a body that reads `IN` raises. -/
theorem withInput_raise {s : State} {k : List Byte → Body} {e : ErrKind} (h : withInput s k = .raise e) :
    e = .capacity ∨ (s.inLen ≤ s.params.inCap ∧ k (inputBytes s) = .raise e) := by
  rw [withInput] at h
  split at h
  · cases h; exact .inl rfl
  · exact .inr ⟨by omega, h⟩

@[simp] theorem length_inputBytes (s : State) : (inputBytes s).length = s.inLen := by simp [inputBytes]

theorem inputBytes_getElem? (s : State) (i : Nat) :
    (inputBytes s)[i]? = if i < s.inLen then some (inByte s i) else none := by
  rw [inputBytes, List.getElem?_map]
  by_cases h : i < s.inLen
  · simp [h]
  · simp [h]

/-- The operands depend on `IN`, `IN_LEN` and the step's number alone. -/
theorem inputBytes_congr {s t : State} (hm : t.inMem = s.inMem) (hl : t.inLen = s.inLen) (ht : t.tick = s.tick) :
    inputBytes t = inputBytes s := by
  have : inByte t = inByte s := by funext i; simp [inByte, hm, ht]
  simp [inputBytes, this, hl]

@[simp] theorem inByte_beginCommand (s : State) : inByte (beginCommand s) = inByte s := rfl
@[simp] theorem inputBytes_beginCommand (s : State) : inputBytes (beginCommand s) = inputBytes s := rfl
@[simp] theorem treeOperand_beginCommand (s : State) : treeOperand (beginCommand s) = treeOperand s := rfl

theorem withTree_eq {s : State} {t : Tree} (h : treeOperand s = some t) (k : Tree → Body) : withTree s k = k t := by
  simp [withTree, h]

/-! ## Whole results -/

/-- `putTree` gives a tree operand exactly when the records stand for a tree. -/
theorem putTree_node_getElem? (records : List Node) (root : Nat) (s : State) (i : Nat) (hi : i < s.params.nodeCap) :
    (putTree records root s).node[i]? = some (records.getD i Node.zero) := by
  simp only [putTree, nodeTable, listFrom_getElem?]
  simp [hi]

end Sys2Proof.Machine
end

