-- ==== Sys2Proof/Laws/State.lean ====
section
/-! SUPPORT. What each shared update of the state does to each field: one lemma per field per update. -/

namespace Sys2Proof.Machine

variable (s : State)

/-! ## `beginCommand` -/

@[simp] theorem beginCommand_params : (beginCommand s).params = s.params := rfl
@[simp] theorem beginCommand_inMem : (beginCommand s).inMem = s.inMem := rfl
@[simp] theorem beginCommand_inLen : (beginCommand s).inLen = s.inLen := rfl
@[simp] theorem beginCommand_outMem : (beginCommand s).outMem = s.outMem := rfl
@[simp] theorem beginCommand_outLen : (beginCommand s).outLen = s.outLen := rfl
@[simp] theorem beginCommand_freq : (beginCommand s).freq = s.freq := rfl
@[simp] theorem beginCommand_symCount : (beginCommand s).symCount = s.symCount := rfl
@[simp] theorem beginCommand_node : (beginCommand s).node = s.node := rfl
@[simp] theorem beginCommand_nodeCount : (beginCommand s).nodeCount = s.nodeCount := rfl
@[simp] theorem beginCommand_root : (beginCommand s).root = s.root := rfl
@[simp] theorem beginCommand_code : (beginCommand s).code = s.code := rfl
@[simp] theorem beginCommand_tbits : (beginCommand s).tbits = s.tbits := rfl
@[simp] theorem beginCommand_tbc : (beginCommand s).tbc = s.tbc := rfl
@[simp] theorem beginCommand_encBits : (beginCommand s).encBits = s.encBits := rfl
@[simp] theorem beginCommand_dataLimit : (beginCommand s).dataLimit = s.dataLimit := rfl
@[simp] theorem beginCommand_dataOff : (beginCommand s).dataOff = s.dataOff := rfl
@[simp] theorem beginCommand_status : (beginCommand s).status = s.status.started := rfl
@[simp] theorem beginCommand_errcode : (beginCommand s).errcode = none := rfl
@[simp] theorem beginCommand_cmd : (beginCommand s).cmd = s.cmd := rfl
@[simp] theorem beginCommand_deser : (beginCommand s).deser = s.deser := rfl
@[simp] theorem beginCommand_script : (beginCommand s).script = s.script := rfl
@[simp] theorem beginCommand_reads : (beginCommand s).reads = s.reads := rfl
@[simp] theorem beginCommand_tick : (beginCommand s).tick = s.tick := rfl

/-! ## `clearCallState` -/

@[simp] theorem clearCallState_params : (clearCallState s).params = s.params := rfl
@[simp] theorem clearCallState_inMem : (clearCallState s).inMem = s.inMem := rfl
@[simp] theorem clearCallState_inLen : (clearCallState s).inLen = s.inLen := rfl
@[simp] theorem clearCallState_outMem : (clearCallState s).outMem = s.outMem := rfl
@[simp] theorem clearCallState_outLen : (clearCallState s).outLen = 0 := rfl
@[simp] theorem clearCallState_freq : (clearCallState s).freq = tabulate 256 fun _ => 0 := rfl
@[simp] theorem clearCallState_symCount : (clearCallState s).symCount = 0 := rfl
@[simp] theorem clearCallState_node : (clearCallState s).node = List.replicate s.params.nodeCap Node.zero := rfl
@[simp] theorem clearCallState_nodeCount : (clearCallState s).nodeCount = 0 := rfl
@[simp] theorem clearCallState_root : (clearCallState s).root = 0 := rfl
@[simp] theorem clearCallState_code : (clearCallState s).code = tabulate 256 fun _ => CodeEntry.absent := rfl
@[simp] theorem clearCallState_tbits : (clearCallState s).tbits = [] := rfl
@[simp] theorem clearCallState_tbc : (clearCallState s).tbc = 0 := rfl
@[simp] theorem clearCallState_encBits : (clearCallState s).encBits = 0 := rfl
@[simp] theorem clearCallState_dataLimit : (clearCallState s).dataLimit = s.dataLimit := rfl
@[simp] theorem clearCallState_dataOff : (clearCallState s).dataOff = 0 := rfl
@[simp] theorem clearCallState_status : (clearCallState s).status = s.status.noneValid := rfl
@[simp] theorem clearCallState_errcode : (clearCallState s).errcode = s.errcode := rfl
@[simp] theorem clearCallState_cmd : (clearCallState s).cmd = s.cmd := rfl
@[simp] theorem clearCallState_deser : (clearCallState s).deser = s.deser := rfl
@[simp] theorem clearCallState_script : (clearCallState s).script = s.script := rfl
@[simp] theorem clearCallState_reads : (clearCallState s).reads = s.reads := rfl
@[simp] theorem clearCallState_tick : (clearCallState s).tick = s.tick := rfl

/-! ## `interfaceError` -/

@[simp] theorem interfaceError_params (e : ErrKind) : (interfaceError e s).params = s.params := rfl
@[simp] theorem interfaceError_inMem (e : ErrKind) : (interfaceError e s).inMem = s.inMem := rfl
@[simp] theorem interfaceError_inLen (e : ErrKind) : (interfaceError e s).inLen = s.inLen := rfl
@[simp] theorem interfaceError_outMem (e : ErrKind) : (interfaceError e s).outMem = s.outMem := rfl
@[simp] theorem interfaceError_outLen (e : ErrKind) : (interfaceError e s).outLen = s.outLen := rfl
@[simp] theorem interfaceError_freq (e : ErrKind) : (interfaceError e s).freq = s.freq := rfl
@[simp] theorem interfaceError_symCount (e : ErrKind) : (interfaceError e s).symCount = s.symCount := rfl
@[simp] theorem interfaceError_node (e : ErrKind) : (interfaceError e s).node = s.node := rfl
@[simp] theorem interfaceError_nodeCount (e : ErrKind) : (interfaceError e s).nodeCount = s.nodeCount := rfl
@[simp] theorem interfaceError_root (e : ErrKind) : (interfaceError e s).root = s.root := rfl
@[simp] theorem interfaceError_code (e : ErrKind) : (interfaceError e s).code = s.code := rfl
@[simp] theorem interfaceError_tbits (e : ErrKind) : (interfaceError e s).tbits = s.tbits := rfl
@[simp] theorem interfaceError_tbc (e : ErrKind) : (interfaceError e s).tbc = s.tbc := rfl
@[simp] theorem interfaceError_encBits (e : ErrKind) : (interfaceError e s).encBits = s.encBits := rfl
@[simp] theorem interfaceError_dataLimit (e : ErrKind) : (interfaceError e s).dataLimit = s.dataLimit := rfl
@[simp] theorem interfaceError_dataOff (e : ErrKind) : (interfaceError e s).dataOff = s.dataOff := rfl
@[simp] theorem interfaceError_status (e : ErrKind) : (interfaceError e s).status = s.status.failed := rfl
@[simp] theorem interfaceError_errcode (e : ErrKind) : (interfaceError e s).errcode = some e := rfl
@[simp] theorem interfaceError_cmd (e : ErrKind) : (interfaceError e s).cmd = s.cmd := rfl
@[simp] theorem interfaceError_deser (e : ErrKind) : (interfaceError e s).deser = s.deser := rfl
@[simp] theorem interfaceError_script (e : ErrKind) : (interfaceError e s).script = s.script := rfl
@[simp] theorem interfaceError_reads (e : ErrKind) : (interfaceError e s).reads = s.reads := rfl
@[simp] theorem interfaceError_tick (e : ErrKind) : (interfaceError e s).tick = s.tick := rfl

/-! ## `callError` -/

@[simp] theorem callError_params (e : ErrKind) : (callError e s).params = s.params := rfl
@[simp] theorem callError_inMem (e : ErrKind) : (callError e s).inMem = s.inMem := rfl
@[simp] theorem callError_inLen (e : ErrKind) : (callError e s).inLen = s.inLen := rfl
@[simp] theorem callError_outMem (e : ErrKind) : (callError e s).outMem = s.outMem := rfl
@[simp] theorem callError_outLen (e : ErrKind) : (callError e s).outLen = 0 := rfl
@[simp] theorem callError_freq (e : ErrKind) : (callError e s).freq = tabulate 256 fun _ => 0 := rfl
@[simp] theorem callError_symCount (e : ErrKind) : (callError e s).symCount = 0 := rfl
@[simp] theorem callError_node (e : ErrKind) : (callError e s).node = List.replicate s.params.nodeCap Node.zero := rfl
@[simp] theorem callError_nodeCount (e : ErrKind) : (callError e s).nodeCount = 0 := rfl
@[simp] theorem callError_root (e : ErrKind) : (callError e s).root = 0 := rfl
@[simp] theorem callError_code (e : ErrKind) : (callError e s).code = tabulate 256 fun _ => CodeEntry.absent := rfl
@[simp] theorem callError_tbits (e : ErrKind) : (callError e s).tbits = [] := rfl
@[simp] theorem callError_tbc (e : ErrKind) : (callError e s).tbc = 0 := rfl
@[simp] theorem callError_encBits (e : ErrKind) : (callError e s).encBits = 0 := rfl
@[simp] theorem callError_dataLimit (e : ErrKind) : (callError e s).dataLimit = s.dataLimit := rfl
@[simp] theorem callError_dataOff (e : ErrKind) : (callError e s).dataOff = 0 := rfl
@[simp] theorem callError_status (e : ErrKind) : (callError e s).status = s.status.noneValid.failed := rfl
@[simp] theorem callError_errcode (e : ErrKind) : (callError e s).errcode = some e := rfl
@[simp] theorem callError_cmd (e : ErrKind) : (callError e s).cmd = s.cmd := rfl
@[simp] theorem callError_deser (e : ErrKind) : (callError e s).deser = s.deser := rfl
@[simp] theorem callError_script (e : ErrKind) : (callError e s).script = s.script := rfl
@[simp] theorem callError_reads (e : ErrKind) : (callError e s).reads = s.reads := rfl
@[simp] theorem callError_tick (e : ErrKind) : (callError e s).tick = s.tick := rfl

/-! ## `putOut` -/

@[simp] theorem putOut_params (b : List Byte) : (putOut b s).params = s.params := rfl
@[simp] theorem putOut_inMem (b : List Byte) : (putOut b s).inMem = s.inMem := rfl
@[simp] theorem putOut_inLen (b : List Byte) : (putOut b s).inLen = s.inLen := rfl
@[simp] theorem putOut_outMem (b : List Byte) : (putOut b s).outMem = s.outMem.writeFrom 0 b := rfl
@[simp] theorem putOut_outLen (b : List Byte) : (putOut b s).outLen = b.length := rfl
@[simp] theorem putOut_freq (b : List Byte) : (putOut b s).freq = s.freq := rfl
@[simp] theorem putOut_symCount (b : List Byte) : (putOut b s).symCount = s.symCount := rfl
@[simp] theorem putOut_node (b : List Byte) : (putOut b s).node = s.node := rfl
@[simp] theorem putOut_nodeCount (b : List Byte) : (putOut b s).nodeCount = s.nodeCount := rfl
@[simp] theorem putOut_root (b : List Byte) : (putOut b s).root = s.root := rfl
@[simp] theorem putOut_code (b : List Byte) : (putOut b s).code = s.code := rfl
@[simp] theorem putOut_tbits (b : List Byte) : (putOut b s).tbits = s.tbits := rfl
@[simp] theorem putOut_tbc (b : List Byte) : (putOut b s).tbc = s.tbc := rfl
@[simp] theorem putOut_encBits (b : List Byte) : (putOut b s).encBits = s.encBits := rfl
@[simp] theorem putOut_dataLimit (b : List Byte) : (putOut b s).dataLimit = s.dataLimit := rfl
@[simp] theorem putOut_dataOff (b : List Byte) : (putOut b s).dataOff = s.dataOff := rfl
@[simp] theorem putOut_status (b : List Byte) : (putOut b s).status = s.status := rfl
@[simp] theorem putOut_errcode (b : List Byte) : (putOut b s).errcode = s.errcode := rfl
@[simp] theorem putOut_cmd (b : List Byte) : (putOut b s).cmd = s.cmd := rfl
@[simp] theorem putOut_deser (b : List Byte) : (putOut b s).deser = s.deser := rfl
@[simp] theorem putOut_script (b : List Byte) : (putOut b s).script = s.script := rfl
@[simp] theorem putOut_reads (b : List Byte) : (putOut b s).reads = s.reads := rfl
@[simp] theorem putOut_tick (b : List Byte) : (putOut b s).tick = s.tick := rfl

/-! ## `putTbits` -/

@[simp] theorem putTbits_params (b : BitSeq) : (putTbits b s).params = s.params := rfl
@[simp] theorem putTbits_inMem (b : BitSeq) : (putTbits b s).inMem = s.inMem := rfl
@[simp] theorem putTbits_inLen (b : BitSeq) : (putTbits b s).inLen = s.inLen := rfl
@[simp] theorem putTbits_outMem (b : BitSeq) : (putTbits b s).outMem = s.outMem := rfl
@[simp] theorem putTbits_outLen (b : BitSeq) : (putTbits b s).outLen = s.outLen := rfl
@[simp] theorem putTbits_freq (b : BitSeq) : (putTbits b s).freq = s.freq := rfl
@[simp] theorem putTbits_symCount (b : BitSeq) : (putTbits b s).symCount = s.symCount := rfl
@[simp] theorem putTbits_node (b : BitSeq) : (putTbits b s).node = s.node := rfl
@[simp] theorem putTbits_nodeCount (b : BitSeq) : (putTbits b s).nodeCount = s.nodeCount := rfl
@[simp] theorem putTbits_root (b : BitSeq) : (putTbits b s).root = s.root := rfl
@[simp] theorem putTbits_code (b : BitSeq) : (putTbits b s).code = s.code := rfl
@[simp] theorem putTbits_tbits (b : BitSeq) : (putTbits b s).tbits = b := rfl
@[simp] theorem putTbits_tbc (b : BitSeq) : (putTbits b s).tbc = b.length := rfl
@[simp] theorem putTbits_encBits (b : BitSeq) : (putTbits b s).encBits = s.encBits := rfl
@[simp] theorem putTbits_dataLimit (b : BitSeq) : (putTbits b s).dataLimit = s.dataLimit := rfl
@[simp] theorem putTbits_dataOff (b : BitSeq) : (putTbits b s).dataOff = s.dataOff := rfl
@[simp] theorem putTbits_status (b : BitSeq) : (putTbits b s).status = s.status := rfl
@[simp] theorem putTbits_errcode (b : BitSeq) : (putTbits b s).errcode = s.errcode := rfl
@[simp] theorem putTbits_cmd (b : BitSeq) : (putTbits b s).cmd = s.cmd := rfl
@[simp] theorem putTbits_deser (b : BitSeq) : (putTbits b s).deser = s.deser := rfl
@[simp] theorem putTbits_script (b : BitSeq) : (putTbits b s).script = s.script := rfl
@[simp] theorem putTbits_reads (b : BitSeq) : (putTbits b s).reads = s.reads := rfl
@[simp] theorem putTbits_tick (b : BitSeq) : (putTbits b s).tick = s.tick := rfl

/-! ## `putTree` -/

@[simp] theorem putTree_params (r : List Node) (i : Nat) : (putTree r i s).params = s.params := rfl
@[simp] theorem putTree_inMem (r : List Node) (i : Nat) : (putTree r i s).inMem = s.inMem := rfl
@[simp] theorem putTree_inLen (r : List Node) (i : Nat) : (putTree r i s).inLen = s.inLen := rfl
@[simp] theorem putTree_outMem (r : List Node) (i : Nat) : (putTree r i s).outMem = s.outMem := rfl
@[simp] theorem putTree_outLen (r : List Node) (i : Nat) : (putTree r i s).outLen = s.outLen := rfl
@[simp] theorem putTree_freq (r : List Node) (i : Nat) : (putTree r i s).freq = s.freq := rfl
@[simp] theorem putTree_symCount (r : List Node) (i : Nat) : (putTree r i s).symCount = s.symCount := rfl
@[simp] theorem putTree_node (r : List Node) (i : Nat) : (putTree r i s).node = nodeTable s.params r := rfl
@[simp] theorem putTree_nodeCount (r : List Node) (i : Nat) : (putTree r i s).nodeCount = r.length := rfl
@[simp] theorem putTree_root (r : List Node) (i : Nat) : (putTree r i s).root = i := rfl
@[simp] theorem putTree_code (r : List Node) (i : Nat) : (putTree r i s).code = s.code := rfl
@[simp] theorem putTree_tbits (r : List Node) (i : Nat) : (putTree r i s).tbits = s.tbits := rfl
@[simp] theorem putTree_tbc (r : List Node) (i : Nat) : (putTree r i s).tbc = s.tbc := rfl
@[simp] theorem putTree_encBits (r : List Node) (i : Nat) : (putTree r i s).encBits = s.encBits := rfl
@[simp] theorem putTree_dataLimit (r : List Node) (i : Nat) : (putTree r i s).dataLimit = s.dataLimit := rfl
@[simp] theorem putTree_dataOff (r : List Node) (i : Nat) : (putTree r i s).dataOff = s.dataOff := rfl
@[simp] theorem putTree_status (r : List Node) (i : Nat) : (putTree r i s).status = s.status := rfl
@[simp] theorem putTree_errcode (r : List Node) (i : Nat) : (putTree r i s).errcode = s.errcode := rfl
@[simp] theorem putTree_cmd (r : List Node) (i : Nat) : (putTree r i s).cmd = s.cmd := rfl
@[simp] theorem putTree_deser (r : List Node) (i : Nat) : (putTree r i s).deser = s.deser := rfl
@[simp] theorem putTree_script (r : List Node) (i : Nat) : (putTree r i s).script = s.script := rfl
@[simp] theorem putTree_reads (r : List Node) (i : Nat) : (putTree r i s).reads = s.reads := rfl
@[simp] theorem putTree_tick (r : List Node) (i : Nat) : (putTree r i s).tick = s.tick := rfl

/-! ## `takeTxn` -/

@[simp] theorem takeTxn_params (r : List Txn) : (takeTxn r s).params = s.params := rfl
@[simp] theorem takeTxn_inMem (r : List Txn) : (takeTxn r s).inMem = s.inMem := rfl
@[simp] theorem takeTxn_inLen (r : List Txn) : (takeTxn r s).inLen = s.inLen := rfl
@[simp] theorem takeTxn_outMem (r : List Txn) : (takeTxn r s).outMem = s.outMem := rfl
@[simp] theorem takeTxn_outLen (r : List Txn) : (takeTxn r s).outLen = s.outLen := rfl
@[simp] theorem takeTxn_freq (r : List Txn) : (takeTxn r s).freq = s.freq := rfl
@[simp] theorem takeTxn_symCount (r : List Txn) : (takeTxn r s).symCount = s.symCount := rfl
@[simp] theorem takeTxn_node (r : List Txn) : (takeTxn r s).node = s.node := rfl
@[simp] theorem takeTxn_nodeCount (r : List Txn) : (takeTxn r s).nodeCount = s.nodeCount := rfl
@[simp] theorem takeTxn_root (r : List Txn) : (takeTxn r s).root = s.root := rfl
@[simp] theorem takeTxn_code (r : List Txn) : (takeTxn r s).code = s.code := rfl
@[simp] theorem takeTxn_tbits (r : List Txn) : (takeTxn r s).tbits = s.tbits := rfl
@[simp] theorem takeTxn_tbc (r : List Txn) : (takeTxn r s).tbc = s.tbc := rfl
@[simp] theorem takeTxn_encBits (r : List Txn) : (takeTxn r s).encBits = s.encBits := rfl
@[simp] theorem takeTxn_dataLimit (r : List Txn) : (takeTxn r s).dataLimit = s.dataLimit := rfl
@[simp] theorem takeTxn_dataOff (r : List Txn) : (takeTxn r s).dataOff = s.dataOff := rfl
@[simp] theorem takeTxn_status (r : List Txn) : (takeTxn r s).status = s.status := rfl
@[simp] theorem takeTxn_errcode (r : List Txn) : (takeTxn r s).errcode = s.errcode := rfl
@[simp] theorem takeTxn_cmd (r : List Txn) : (takeTxn r s).cmd = s.cmd := rfl
@[simp] theorem takeTxn_deser (r : List Txn) : (takeTxn r s).deser = s.deser := rfl
@[simp] theorem takeTxn_script (r : List Txn) : (takeTxn r s).script = r := rfl
@[simp] theorem takeTxn_reads (r : List Txn) : (takeTxn r s).reads = s.reads := rfl
@[simp] theorem takeTxn_tick (r : List Txn) : (takeTxn r s).tick = s.tick + 1 := rfl

/-! ## `answer` -/

@[simp] theorem answer_params (v : Word) : (answer v s).params = s.params := rfl
@[simp] theorem answer_inMem (v : Word) : (answer v s).inMem = s.inMem := rfl
@[simp] theorem answer_inLen (v : Word) : (answer v s).inLen = s.inLen := rfl
@[simp] theorem answer_outMem (v : Word) : (answer v s).outMem = s.outMem := rfl
@[simp] theorem answer_outLen (v : Word) : (answer v s).outLen = s.outLen := rfl
@[simp] theorem answer_freq (v : Word) : (answer v s).freq = s.freq := rfl
@[simp] theorem answer_symCount (v : Word) : (answer v s).symCount = s.symCount := rfl
@[simp] theorem answer_node (v : Word) : (answer v s).node = s.node := rfl
@[simp] theorem answer_nodeCount (v : Word) : (answer v s).nodeCount = s.nodeCount := rfl
@[simp] theorem answer_root (v : Word) : (answer v s).root = s.root := rfl
@[simp] theorem answer_code (v : Word) : (answer v s).code = s.code := rfl
@[simp] theorem answer_tbits (v : Word) : (answer v s).tbits = s.tbits := rfl
@[simp] theorem answer_tbc (v : Word) : (answer v s).tbc = s.tbc := rfl
@[simp] theorem answer_encBits (v : Word) : (answer v s).encBits = s.encBits := rfl
@[simp] theorem answer_dataLimit (v : Word) : (answer v s).dataLimit = s.dataLimit := rfl
@[simp] theorem answer_dataOff (v : Word) : (answer v s).dataOff = s.dataOff := rfl
@[simp] theorem answer_status (v : Word) : (answer v s).status = s.status := rfl
@[simp] theorem answer_errcode (v : Word) : (answer v s).errcode = s.errcode := rfl
@[simp] theorem answer_cmd (v : Word) : (answer v s).cmd = s.cmd := rfl
@[simp] theorem answer_deser (v : Word) : (answer v s).deser = s.deser := rfl
@[simp] theorem answer_script (v : Word) : (answer v s).script = s.script := rfl
@[simp] theorem answer_reads (v : Word) : (answer v s).reads = v :: s.reads := rfl
@[simp] theorem answer_tick (v : Word) : (answer v s).tick = s.tick := rfl

variable (f : Status)

/-! ## `Status.started` -/

@[simp] theorem Status.started_done : f.started.done = false := rfl
@[simp] theorem Status.started_err : f.started.err = false := rfl
@[simp] theorem Status.started_freqValid : f.started.freqValid = f.freqValid := rfl
@[simp] theorem Status.started_treeValid : f.started.treeValid = f.treeValid := rfl
@[simp] theorem Status.started_codeValid : f.started.codeValid = f.codeValid := rfl
@[simp] theorem Status.started_tbitsValid : f.started.tbitsValid = f.tbitsValid := rfl
@[simp] theorem Status.started_parseValid : f.started.parseValid = f.parseValid := rfl
@[simp] theorem Status.started_outValid : f.started.outValid = f.outValid := rfl

/-! ## `Status.succeeded` -/

@[simp] theorem Status.succeeded_done : f.succeeded.done = true := rfl
@[simp] theorem Status.succeeded_err : f.succeeded.err = false := rfl
@[simp] theorem Status.succeeded_freqValid : f.succeeded.freqValid = f.freqValid := rfl
@[simp] theorem Status.succeeded_treeValid : f.succeeded.treeValid = f.treeValid := rfl
@[simp] theorem Status.succeeded_codeValid : f.succeeded.codeValid = f.codeValid := rfl
@[simp] theorem Status.succeeded_tbitsValid : f.succeeded.tbitsValid = f.tbitsValid := rfl
@[simp] theorem Status.succeeded_parseValid : f.succeeded.parseValid = f.parseValid := rfl
@[simp] theorem Status.succeeded_outValid : f.succeeded.outValid = f.outValid := rfl

/-! ## `Status.failed` -/

@[simp] theorem Status.failed_done : f.failed.done = false := rfl
@[simp] theorem Status.failed_err : f.failed.err = true := rfl
@[simp] theorem Status.failed_freqValid : f.failed.freqValid = f.freqValid := rfl
@[simp] theorem Status.failed_treeValid : f.failed.treeValid = f.treeValid := rfl
@[simp] theorem Status.failed_codeValid : f.failed.codeValid = f.codeValid := rfl
@[simp] theorem Status.failed_tbitsValid : f.failed.tbitsValid = f.tbitsValid := rfl
@[simp] theorem Status.failed_parseValid : f.failed.parseValid = f.parseValid := rfl
@[simp] theorem Status.failed_outValid : f.failed.outValid = f.outValid := rfl

/-! ## `Status.noneValid` -/

@[simp] theorem Status.noneValid_done : f.noneValid.done = f.done := rfl
@[simp] theorem Status.noneValid_err : f.noneValid.err = f.err := rfl
@[simp] theorem Status.noneValid_freqValid : f.noneValid.freqValid = false := rfl
@[simp] theorem Status.noneValid_treeValid : f.noneValid.treeValid = false := rfl
@[simp] theorem Status.noneValid_codeValid : f.noneValid.codeValid = false := rfl
@[simp] theorem Status.noneValid_tbitsValid : f.noneValid.tbitsValid = false := rfl
@[simp] theorem Status.noneValid_parseValid : f.noneValid.parseValid = false := rfl
@[simp] theorem Status.noneValid_outValid : f.noneValid.outValid = false := rfl

/-! ## `Status.afterCount` -/

@[simp] theorem Status.afterCount_done : f.afterCount.done = f.done := rfl
@[simp] theorem Status.afterCount_err : f.afterCount.err = f.err := rfl
@[simp] theorem Status.afterCount_freqValid : f.afterCount.freqValid = true := rfl
@[simp] theorem Status.afterCount_treeValid : f.afterCount.treeValid = f.treeValid := rfl
@[simp] theorem Status.afterCount_codeValid : f.afterCount.codeValid = f.codeValid := rfl
@[simp] theorem Status.afterCount_tbitsValid : f.afterCount.tbitsValid = f.tbitsValid := rfl
@[simp] theorem Status.afterCount_parseValid : f.afterCount.parseValid = f.parseValid := rfl
@[simp] theorem Status.afterCount_outValid : f.afterCount.outValid = f.outValid := rfl

/-! ## `Status.afterBuild` -/

@[simp] theorem Status.afterBuild_done : f.afterBuild.done = f.done := rfl
@[simp] theorem Status.afterBuild_err : f.afterBuild.err = f.err := rfl
@[simp] theorem Status.afterBuild_freqValid : f.afterBuild.freqValid = f.freqValid := rfl
@[simp] theorem Status.afterBuild_treeValid : f.afterBuild.treeValid = true := rfl
@[simp] theorem Status.afterBuild_codeValid : f.afterBuild.codeValid = f.codeValid := rfl
@[simp] theorem Status.afterBuild_tbitsValid : f.afterBuild.tbitsValid = f.tbitsValid := rfl
@[simp] theorem Status.afterBuild_parseValid : f.afterBuild.parseValid = f.parseValid := rfl
@[simp] theorem Status.afterBuild_outValid : f.afterBuild.outValid = f.outValid := rfl

/-! ## `Status.afterGencode` -/

@[simp] theorem Status.afterGencode_done : f.afterGencode.done = f.done := rfl
@[simp] theorem Status.afterGencode_err : f.afterGencode.err = f.err := rfl
@[simp] theorem Status.afterGencode_freqValid : f.afterGencode.freqValid = f.freqValid := rfl
@[simp] theorem Status.afterGencode_treeValid : f.afterGencode.treeValid = f.treeValid := rfl
@[simp] theorem Status.afterGencode_codeValid : f.afterGencode.codeValid = true := rfl
@[simp] theorem Status.afterGencode_tbitsValid : f.afterGencode.tbitsValid = f.tbitsValid := rfl
@[simp] theorem Status.afterGencode_parseValid : f.afterGencode.parseValid = f.parseValid := rfl
@[simp] theorem Status.afterGencode_outValid : f.afterGencode.outValid = f.outValid := rfl

/-! ## `Status.afterSerialize` -/

@[simp] theorem Status.afterSerialize_done : f.afterSerialize.done = f.done := rfl
@[simp] theorem Status.afterSerialize_err : f.afterSerialize.err = f.err := rfl
@[simp] theorem Status.afterSerialize_freqValid : f.afterSerialize.freqValid = f.freqValid := rfl
@[simp] theorem Status.afterSerialize_treeValid : f.afterSerialize.treeValid = f.treeValid := rfl
@[simp] theorem Status.afterSerialize_codeValid : f.afterSerialize.codeValid = f.codeValid := rfl
@[simp] theorem Status.afterSerialize_tbitsValid : f.afterSerialize.tbitsValid = true := rfl
@[simp] theorem Status.afterSerialize_parseValid : f.afterSerialize.parseValid = f.parseValid := rfl
@[simp] theorem Status.afterSerialize_outValid : f.afterSerialize.outValid = f.outValid := rfl

/-! ## `Status.afterPack` -/

@[simp] theorem Status.afterPack_done : f.afterPack.done = f.done := rfl
@[simp] theorem Status.afterPack_err : f.afterPack.err = f.err := rfl
@[simp] theorem Status.afterPack_freqValid : f.afterPack.freqValid = f.freqValid := rfl
@[simp] theorem Status.afterPack_treeValid : f.afterPack.treeValid = f.treeValid := rfl
@[simp] theorem Status.afterPack_codeValid : f.afterPack.codeValid = f.codeValid := rfl
@[simp] theorem Status.afterPack_tbitsValid : f.afterPack.tbitsValid = f.tbitsValid := rfl
@[simp] theorem Status.afterPack_parseValid : f.afterPack.parseValid = f.parseValid := rfl
@[simp] theorem Status.afterPack_outValid : f.afterPack.outValid = true := rfl

/-! ## `Status.afterUnpack` -/

@[simp] theorem Status.afterUnpack_done : f.afterUnpack.done = f.done := rfl
@[simp] theorem Status.afterUnpack_err : f.afterUnpack.err = f.err := rfl
@[simp] theorem Status.afterUnpack_freqValid : f.afterUnpack.freqValid = f.freqValid := rfl
@[simp] theorem Status.afterUnpack_treeValid : f.afterUnpack.treeValid = f.treeValid := rfl
@[simp] theorem Status.afterUnpack_codeValid : f.afterUnpack.codeValid = f.codeValid := rfl
@[simp] theorem Status.afterUnpack_tbitsValid : f.afterUnpack.tbitsValid = true := rfl
@[simp] theorem Status.afterUnpack_parseValid : f.afterUnpack.parseValid = f.parseValid := rfl
@[simp] theorem Status.afterUnpack_outValid : f.afterUnpack.outValid = f.outValid := rfl

/-! ## `Status.afterEmit` -/

@[simp] theorem Status.afterEmit_done : f.afterEmit.done = f.done := rfl
@[simp] theorem Status.afterEmit_err : f.afterEmit.err = f.err := rfl
@[simp] theorem Status.afterEmit_freqValid : f.afterEmit.freqValid = f.freqValid := rfl
@[simp] theorem Status.afterEmit_treeValid : f.afterEmit.treeValid = f.treeValid := rfl
@[simp] theorem Status.afterEmit_codeValid : f.afterEmit.codeValid = f.codeValid := rfl
@[simp] theorem Status.afterEmit_tbitsValid : f.afterEmit.tbitsValid = f.tbitsValid := rfl
@[simp] theorem Status.afterEmit_parseValid : f.afterEmit.parseValid = f.parseValid := rfl
@[simp] theorem Status.afterEmit_outValid : f.afterEmit.outValid = true := rfl

/-! ## `Status.afterParse` -/

@[simp] theorem Status.afterParse_done : f.afterParse.done = f.done := rfl
@[simp] theorem Status.afterParse_err : f.afterParse.err = f.err := rfl
@[simp] theorem Status.afterParse_freqValid : f.afterParse.freqValid = f.freqValid := rfl
@[simp] theorem Status.afterParse_treeValid : f.afterParse.treeValid = f.treeValid := rfl
@[simp] theorem Status.afterParse_codeValid : f.afterParse.codeValid = f.codeValid := rfl
@[simp] theorem Status.afterParse_tbitsValid : f.afterParse.tbitsValid = true := rfl
@[simp] theorem Status.afterParse_parseValid : f.afterParse.parseValid = true := rfl
@[simp] theorem Status.afterParse_outValid : f.afterParse.outValid = f.outValid := rfl

/-! ## `Status.afterDeserialize` -/

@[simp] theorem Status.afterDeserialize_done : f.afterDeserialize.done = f.done := rfl
@[simp] theorem Status.afterDeserialize_err : f.afterDeserialize.err = f.err := rfl
@[simp] theorem Status.afterDeserialize_freqValid : f.afterDeserialize.freqValid = f.freqValid := rfl
@[simp] theorem Status.afterDeserialize_treeValid : f.afterDeserialize.treeValid = true := rfl
@[simp] theorem Status.afterDeserialize_codeValid : f.afterDeserialize.codeValid = f.codeValid := rfl
@[simp] theorem Status.afterDeserialize_tbitsValid : f.afterDeserialize.tbitsValid = f.tbitsValid := rfl
@[simp] theorem Status.afterDeserialize_parseValid : f.afterDeserialize.parseValid = f.parseValid := rfl
@[simp] theorem Status.afterDeserialize_outValid : f.afterDeserialize.outValid = f.outValid := rfl

/-! ## `Status.afterDecode` -/

@[simp] theorem Status.afterDecode_done : f.afterDecode.done = f.done := rfl
@[simp] theorem Status.afterDecode_err : f.afterDecode.err = f.err := rfl
@[simp] theorem Status.afterDecode_freqValid : f.afterDecode.freqValid = f.freqValid := rfl
@[simp] theorem Status.afterDecode_treeValid : f.afterDecode.treeValid = f.treeValid := rfl
@[simp] theorem Status.afterDecode_codeValid : f.afterDecode.codeValid = f.codeValid := rfl
@[simp] theorem Status.afterDecode_tbitsValid : f.afterDecode.tbitsValid = f.tbitsValid := rfl
@[simp] theorem Status.afterDecode_parseValid : f.afterDecode.parseValid = f.parseValid := rfl
@[simp] theorem Status.afterDecode_outValid : f.afterDecode.outValid = true := rfl

end Sys2Proof.Machine
end

