-- ==== Sys2Proof/Laws/Commands.lean ====
section
/-! SUPPORT. What the Pseudocode of each command does (Machine/<Family>.lean), one lemma per way it can end; statements cite these and do not unfold the commands. -/

namespace Sys2Proof.Machine

variable {p : Params}

/-- `occurrences` counts as `List.count` does. -/
theorem occurrences_eq (bytes : List Byte) (x : Byte) : occurrences bytes x.toNat = bytes.count x := by
  simp only [occurrences, List.count]
  congr 1
  funext b
  rw [Bool.eq_iff_iff]
  simp [BitVec.toNat_inj]

/-- A counter holds its count (41_frequency_counter.md R110). -/
theorem freqOf_histogram (bytes : List Byte) (x : Byte) :
    freqOf (histogram bytes) x = bytes.count x := by
  have hx := x.isLt
  simp only [freqOf, histogram, tabulate_getD, hx, if_true, occurrences_eq]

/-- The counts of all symbols add up to the length. -/
theorem sum_count (bytes : List Byte) : (allSymbols.map fun x => bytes.count x).sum = bytes.length := by
  induction bytes with
  | nil => simp
  | cons b bytes ih =>
    have h1 : (fun x => (b :: bytes).count x) = fun x => bytes.count x + if b = x then 1 else 0 := by
      funext x; simp [List.count_cons]
    rw [h1]
    have h2 : ∀ l : List Byte, (l.map fun x => bytes.count x + if b = x then 1 else 0).sum =
        (l.map fun x => bytes.count x).sum + l.count b := by
      intro l
      induction l with
      | nil => rfl
      | cons a l ih =>
        simp only [List.map_cons, List.sum_cons, ih, List.count_cons]
        by_cases h : a = b
        · subst h; simp; omega
        · simp [h, Ne.symm h]; omega
    rw [h2, ih, List.count_eq_one_of_mem allSymbols_nodup (mem_allSymbols b)]; rfl

/-- `SYM_COUNT` is the size of the alphabet. -/
theorem symbolsUsed_eq (freq : Vector Nat 256) :
    symbolsUsed freq = (alphabet (freqOf freq)).length := by
  have h1 : freq.toList = allSymbols.map fun s => freq.getD s.toNat 0 := by
    apply List.ext_getElem
    · simp [allSymbols]
    · intro i h1 h2
      simp at h1
      have : i % 256 = i := by omega
      simp [allSymbols, Vector.getD, this, h1]
  rw [symbolsUsed, h1, List.countP_map, alphabet, List.countP_eq_length_filter]
  congr 1
  apply List.filter_congr
  intro x _
  show (freqOf freq x != 0) = decide (freqOf freq x ≠ 0)
  rw [Bool.eq_iff_iff]; simp

/-- COUNT of an input that fits. -/
theorem bodyCount_ok {s : State} (h : s.inLen ≤ s.params.inCap) : bodyCount s = .ok { s with
    freq := histogram (inputBytes s),
    symCount := BitVec.ofNat 9 (symbolsUsed (histogram (inputBytes s))) } := by
  rw [bodyCount, withInput_le h]

/-- `SYM_COUNT` has room for 256. -/
theorem symCount_toNat (freq : Vector Nat 256) : (BitVec.ofNat 9 (symbolsUsed freq)).toNat = (alphabet (freqOf freq)).length := by
  rw [symbolsUsed_eq, BitVec.toNat_ofNat]
  have := alphabet_length_le (freqOf freq)
  omega

/-- Records that stand for a tree, written whole, are the tree operand (10_state.md R24, R25). -/
theorem putTree_ok {records : List Node} {root : Nat} {t : Tree} {vs : List Nat} {s : State}
    (h : Stands records root t vs) (hvs : vs.Perm (List.range records.length)) (hl : records.length ≤ s.params.nodeCap)
    (hb : (serialize t).length ≤ s.params.tbitsCap) (hs : t.size = records.length) :
    treeOperand (putTree records root s) = some t ∧ TreeOk (putTree records root s) := by
  have e1 : (putTree records root s).nodeCount = records.length := rfl
  have e2 : (putTree records root s).root = root := rfl
  have ht : treeOperand (putTree records root s) = some t := by
    rw [treeOperand, e1, e2]; exact h.treeOf_fuel hl (by omega)
  refine ⟨ht, t, ht, by omega, by rw [e1]; exact hl, hb, ?_, ?_⟩
  · rw [e1, e2]
    have : visited (putTree records root s).node records.length root = vs :=
      h.visited hl (by have := t.depth_lt_size; omega)
    rw [this]; exact hvs
  · intro i h1 h2
    rw [putTree_node_getElem? _ _ s _ h2]
    rw [List.getD_eq_default _ _ (by omega)]

/-- The records of a tree written whole, read back one by one. -/
theorem putTree_node_records {records : List Node} {s : State} (hl : records.length ≤ s.params.nodeCap) (root : Nat) {j : Nat}
    (hj : j < records.length) : (putTree records root s).node[j]? = records[j]? := by
  rw [List.getElem?_eq_getElem hj]
  exact nodeTable_getElem? (List.getElem?_eq_getElem hj) hl

/-- BUILD with a symbol that occurs. -/
theorem bodyBuild_ok {s : State} (hne : ∃ x, freqOf s.freq x ≠ 0) :
    bodyBuild s = .ok (putTree (buildRecords s.params s.freq).1 (buildRecords s.params s.freq).2 s) := by
  have := leafRecords_ne hne
  rw [bodyBuild, if_neg (by simpa using this)]

/-- BUILD without one. -/
theorem bodyBuild_raise {s : State} (h : ∀ x, freqOf s.freq x = 0) : bodyBuild s = .raise .emptyAlphabetPrecondition := by
  have : leafRecords s.freq = [] := by
    rw [leafRecords_eq]
    have : ¬ ∃ x, freqOf s.freq x ≠ 0 := by simpa using h
    rw [alphabet_ne_nil] at this
    simpa using this
  rw [bodyBuild, if_pos (by simp [this])]

/-- The bounds on the tree in the node memory (10_state.md R25, 44_tree_codec.md R154). -/
theorem treeOk_tree {s : State} {u : Tree} (h : TreeOk s) (hu : treeOperand s = some u) :
    u.size ≤ s.params.nodeCap ∧ (serialize u).length ≤ s.params.tbitsCap := by
  obtain ⟨t, ht, hs, hc, hb, _⟩ := h
  rw [hu] at ht; cases ht
  exact ⟨by omega, hb⟩

/-- An entry of the code table. -/
theorem codeTable_getElem? (u : Tree) (x : Byte) : (codeTable u)[x.toNat]? = some (codeEntry (codes u x)) := by
  simp [codeTable, x.isLt]

/-- Every code has at least 1 bit, and at most 255 when the tree has at most 256 leaves (10_state.md R28). -/
theorem codes_len {u : Tree} {x : Byte} {p : BitSeq} (hp : codes u x = some p) :
    1 ≤ p.length ∧ (u.leaves.length ≤ 256 → p.length ≤ 255) := by
  have := codes_length hp
  have := u.depth_lt_leaves
  omega

/-- What writing a whole output does to `OUT` and `OUT_LEN`. -/
theorem putOut_spec (bytes : List Byte) (s : State) :
    (putOut bytes s).outLen = bytes.length ∧
      (∀ a, a < bytes.length → (putOut bytes s).outMem.read a = bytes[a]? ∧ ((putOut bytes s).outMem.read a).isSome = true) ∧
      ∀ a, bytes.length ≤ a → (putOut bytes s).outMem.read a = s.outMem.read a := by
  refine ⟨?_, ?_, ?_⟩
  · rfl
  · intro a ha
    simp [putOut, Memory.read_writeFrom_zero, ha]
  · intro a ha
    simp [putOut, Memory.read_writeFrom_zero, Nat.not_lt.mpr ha]

/-- The code of a byte in the code table. -/
theorem codeOf_eq (code : Vector CodeEntry 256) (x : Byte) :
    codeOf code x = if (code.getD x.toNat CodeEntry.absent).len = 0 then none else some (code.getD x.toNat CodeEntry.absent).bits := by
  have hx := x.isLt
  simp [codeOf, Vector.getD, hx]

/-- With a code for every byte, the code words one after another. -/
theorem encodeBytes_flatMap {code : Byte → Option BitSeq} {f : Byte → BitSeq} {bytes : List Byte}
    (h : ∀ b ∈ bytes, code b = some (f b)) : encodeBytes code bytes = some (bytes.flatMap f) := by
  induction bytes with
  | nil => rfl
  | cons b bytes ih =>
    rw [encodeBytes, h b (by simp)]
    simp only [ih (fun b hb => h b (by simp [hb]))]
    rfl

/-- Codes of at most 255 bits make at most 255 bits for each byte (00_scope.md R6, `BITCNT_W`). -/
theorem encodeBytes_length_le {f : Byte → Option BitSeq} (h : ∀ x p, f x = some p → p.length ≤ 255) {bytes : List Byte}
    {enc : BitSeq} (he : encodeBytes f bytes = some enc) : enc.length ≤ 255 * bytes.length := by
  induction bytes generalizing enc with
  | nil => cases he; simp
  | cons b bytes ih =>
    rw [encodeBytes] at he
    split at he
    · cases he
    · rename_i p hp
      split at he
      · cases he
      · rename_i e hE
        cases he
        have := ih hE
        have := h _ _ hp
        simp only [List.length_append, List.length_cons]; omega

/-- One byte without a code is enough to fail. -/
theorem encodeBytes_none {code : Byte → Option BitSeq} {bytes : List Byte} {b : Byte} (hb : b ∈ bytes)
    (h : code b = none) : encodeBytes code bytes = none := by
  induction bytes with
  | nil => simp at hb
  | cons a bytes ih =>
    rw [encodeBytes]
    cases ha : code a with
    | none => rfl
    | some p =>
      have hne : b ≠ a := by rintro rfl; rw [h] at ha; cases ha
      rw [ih (by simpa [hne] using hb)]

/-- The length field in terms of the input cells. -/
theorem lengthField_inputBytes {s : State} (h : 4 ≤ s.inLen) : lengthField (inputBytes s) =
    (inByte s 0).toNat * 2 ^ 24 + (inByte s 1).toNat * 2 ^ 16 + (inByte s 2).toNat * 2 ^ 8 + (inByte s 3).toNat := by
  obtain ⟨n, hn⟩ : ∃ n, s.inLen = n + 4 := ⟨s.inLen - 4, by omega⟩
  have : List.range (n + 4) = 0 :: 1 :: 2 :: 3 :: (List.range n).map (· + 4) := by
    rw [Nat.add_comm, List.range_add]
    simp [List.range_succ, Nat.add_comm]
  rw [inputBytes, hn, this]
  rfl

/-- A range of the input. -/
theorem drop_inputBytes (s : State) (k n : Nat) (h : k + n ≤ s.inLen) :
    ((inputBytes s).drop k).take n = (List.range n).map fun i => inByte s (k + i) := by
  apply List.ext_getElem?
  intro j
  rw [List.getElem?_take, List.getElem?_map]
  by_cases hj : j < n
  · rw [if_pos hj, List.getElem?_drop, inputBytes_getElem?, if_pos (by omega)]
    simp [hj]
  · simp [hj]

/-- PARSE of fewer than 4 bytes (60_exceptions.md R211 (a)). -/
theorem bodyParse_short {s : State} (hin : s.inLen ≤ s.params.inCap) (h : s.inLen < 4) : bodyParse s = .raise .malformedContainer := by
  rw [bodyParse, withInput_le hin, if_pos h]

/-- PARSE of a tree section that is cut short (60_exceptions.md R211 (b)). -/
theorem bodyParse_cut {s : State} (hin : s.inLen ≤ s.params.inCap) (h4 : 4 ≤ s.inLen) (h : s.inLen - 4 < ceil8 (lengthField (inputBytes s))) :
    bodyParse s = .raise .malformedContainer := by
  rw [bodyParse, withInput_le hin, if_neg (by omega)]
  simp only
  rw [if_pos h]

/-- PARSE of a tree section longer than `TBITS` (60_exceptions.md R215). -/
theorem bodyParse_capacity {s : State} (hin : s.inLen ≤ s.params.inCap) (h4 : 4 ≤ s.inLen)
    (h : ceil8 (lengthField (inputBytes s)) ≤ s.inLen - 4)
    (hc : s.params.tbitsCap < lengthField (inputBytes s)) : bodyParse s = .raise .capacity := by
  rw [bodyParse, withInput_le hin, if_neg (by omega)]
  simp only
  rw [if_neg (by omega), if_pos hc]

/-- PARSE of a container. -/
theorem bodyParse_ok {s : State} (hin : s.inLen ≤ s.params.inCap) (h4 : 4 ≤ s.inLen)
    (h : ceil8 (lengthField (inputBytes s)) ≤ s.inLen - 4)
    (hc : lengthField (inputBytes s) ≤ s.params.tbitsCap) : bodyParse s = .ok { s with
        tbits := (unpack (((inputBytes s).drop 4).take (ceil8 (lengthField (inputBytes s))))).take (lengthField (inputBytes s))
        tbc := lengthField (inputBytes s)
        dataOff := 4 + ceil8 (lengthField (inputBytes s)) } := by
  rw [bodyParse, withInput_le hin, if_neg (by omega)]
  simp only
  rw [if_neg (by omega), if_neg (by omega)]

/-- The records DESERIALIZE writes (44_tree_codec.md R154). -/
theorem putTree_preorder {s : State} (hp : s.params.Ok) {bits : BitSeq} {u : Tree} (h : deserialize s.params bits = some u)
    (hb : bits.length ≤ s.params.tbitsCap) :
    treeOperand (putTree (preorderRecords s.params u 0) 0 s) = some u ∧
      TreeOk (putTree (preorderRecords s.params u 0) 0 s) ∧
      (putTree (preorderRecords s.params u 0) 0 s).nodeCount = u.size ∧
      visited (putTree (preorderRecords s.params u 0) 0 s).node u.size 0 = List.range u.size := by
  obtain ⟨h1, h2, h3⟩ := size_of_deserialize hp h hb
  have hst := preorderRecords_root_stands (p := s.params) u
  rw [h3] at hst
  have hl := preorderRecords_length (p := s.params) u 0
  have hp := putTree_ok (s := s) hst (by rw [hl]) (by rw [hl]; exact h1) h2 hl.symm
  refine ⟨hp.1, hp.2, hl, ?_⟩
  · exact hst.visited (by rw [hl]; exact h1) u.depth_lt_size

/-- The input from an offset on. -/
theorem drop_inputBytes_all (s : State) (k : Nat) :
    (inputBytes s).drop k = (List.range (s.inLen - k)).map fun i => inByte s (k + i) := by
  apply List.ext_getElem?
  intro j
  rw [List.getElem?_drop, inputBytes_getElem?, List.getElem?_map]
  by_cases hj : j < s.inLen - k
  · rw [if_pos (by omega)]; simp [hj]
  · rw [if_neg (by omega)]; simp [hj]

/-- Nothing after a raise executes. -/
theorem andThen_raise {b : Body} {e : ErrKind} {k : State → Body} (h : b = .raise e) : b.andThen k = .raise e := by rw [h]; rfl

/-- The second body starts where the first ended. -/
theorem andThen_ok {b : Body} {t : State} {k : State → Body} (h : b = .ok t) : b.andThen k = k t := by rw [h]; rfl

/-- GENCODE on a tree. -/
theorem bodyGencode_ok {s : State} {u : Tree} (h : treeOperand s = some u) :
    bodyGencode s = .ok { s with code := codeTable u } := by rw [bodyGencode, withTree_eq h]

/-- SERIALIZE on a tree. -/
theorem bodySerialize_ok {s : State} {u : Tree} (h : treeOperand s = some u) :
    bodySerialize s = .ok (putTbits (serialize u) s) := by rw [bodySerialize, withTree_eq h]

/-- The code table gives back the codes it was made of. -/
theorem codeOf_codeTable (u : Tree) (x : Byte) : codeOf (codeTable u) x = codes u x := by
  rw [codeOf, codeTable_getElem?]
  cases hc : codes u x with
  | none => rfl
  | some p =>
    have := codes_length hc
    refine if_neg ?_
    intro h0
    simp only [codeEntry] at h0
    omega

/-- An input that is not empty has a symbol that occurs. -/
theorem histogram_pos {s : State} (h : s.inLen ≠ 0) :
    ∃ x, freqOf (histogram (inputBytes s)) x ≠ 0 := by
  have hpos : 0 < s.inLen := Nat.pos_of_ne_zero h
  refine ⟨inByte s 0, ?_⟩
  rw [freqOf_histogram]
  have : inByte s 0 ∈ inputBytes s := by
    simp only [inputBytes, List.mem_map, List.mem_range]; exact ⟨0, hpos, rfl⟩
  have := List.count_pos_iff.mpr this
  omega

/-- The counts of the input. -/
theorem histogram_fun (s : State) :
    freqOf (histogram (inputBytes s)) = fun x => (inputBytes s).count x := by
  funext x; exact freqOf_histogram _ x

/-- The state in which COMPRESS has counted the input. -/
def countedOf (s : State) : State :=
  { clearCallState s with
      freq := histogram (inputBytes s), symCount := BitVec.ofNat 9 (symbolsUsed (histogram (inputBytes s))) }

/-- COUNT as the first stage of COMPRESS. -/
theorem bodyCount_clear {s : State} (hin : s.inLen ≤ s.params.inCap) :
    bodyCount (clearCallState s) = .ok (countedOf s) := bodyCount_ok (s := clearCallState s) hin

/-- The state in which COMPRESS encodes: `FREQ`, the tree, the code table and the tree bits of the input. -/
def stagesOf (s : State) (u : Tree) : State :=
  putTbits (serialize u) { putTree (buildRecords s.params (histogram (inputBytes s))).1 (buildRecords s.params (histogram (inputBytes s))).2
    (countedOf s) with
    code := codeTable u }

/-- COMPRESS of an input that is not empty is EMIT in the state its stages leave (46_codec_facade.md R187). -/
theorem compress_stages {s : State} (hp : s.params.Ok) (hin : s.inLen ≤ s.params.inCap) (h : s.inLen ≠ 0) :
    ∃ u, buildTree s.params (histogram (inputBytes s)) = some u ∧
    HuffmanTree (fun x => (inputBytes s).count x) u ∧ u.leaves.length ≤ 256 ∧
    treeOperand (stagesOf s u) = some u ∧ TreeOk (stagesOf s u) ∧
    bodyCompress s = bodyEmit (stagesOf s u) := by
  have hne := histogram_pos h
  obtain ⟨u, vs, h1, h2, h3, h4, h5, h6, h7, h8, h9⟩ := buildTree_spec hp _ hne
  rw [histogram_fun] at h8
  have hle := (HuffmanTree.encodes h8).2
  have hput := putTree_ok (s := countedOf s) h1 h2 h4 (serialize_fits hp hle) h6
  refine ⟨u, h9, h8, hle, hput.1, hput.2, ?_⟩
  have hlen : (countedOf s).inLen ≠ 0 := h
  rw [bodyCompress, andThen_ok (bodyCount_clear hin)]
  refine (if_neg hlen).trans ?_
  refine (andThen_ok (bodyBuild_ok hne)).trans ?_
  refine (andThen_ok (bodyGencode_ok hput.1)).trans ?_
  exact andThen_ok (bodySerialize_ok (u := u) hput.1)

/-- EMIT when every byte has a code. -/
theorem bodyEmit_eq {s : State} {enc : BitSeq} (hin : s.inLen ≤ s.params.inCap)
    (h : encodeBytes (codeOf s.code) (inputBytes s) = some enc) :
    bodyEmit s = if 4 + ceil8 s.tbc + ceil8 enc.length > s.params.outCap then .raise .capacity
      else .ok { putOut (container (lengthWord s.tick s.tbc) s.tbits enc) s with
        encBits := encBitsValue s.params s.tick enc.length } := by
  rw [bodyEmit, withInput_le hin, h]

/-- The length of a tree BUILD can make fits the length field. -/
theorem lengthWord_serialize {u : Tree} (h : u.leaves.length ≤ 256) (tick : Nat) :
    lengthWord tick (serialize u).length = BitVec.ofNat 32 (serialize u).length := by
  have := length_serialize u
  exact lengthWord_eq (by omega)

/-- The state in which DECOMPRESS has parsed the container. -/
def parsedOf (s : State) : State :=
  { clearCallState s with
        tbits := (unpack (((inputBytes s).drop 4).take (ceil8 (lengthField (inputBytes s))))).take (lengthField (inputBytes s))
        tbc := lengthField (inputBytes s)
        dataOff := 4 + ceil8 (lengthField (inputBytes s)) }

/-- The tree bits are as many as the length field says. -/
theorem parsedOf_tbits_length {s : State} (h : ceil8 (lengthField (inputBytes s)) ≤ s.inLen - 4) :
    (parsedOf s).tbits.length = lengthField (inputBytes s) := by
  simp only [parsedOf, List.length_take, length_unpack, List.length_drop, length_inputBytes]
  have := ceil8_le (lengthField (inputBytes s))
  omega

/-! ## An input longer than `IN` (60_exceptions.md R215 (a)) -/

theorem bodyCount_over {s : State} (h : s.params.inCap < s.inLen) : bodyCount s = .raise .capacity := withInput_over h _
theorem bodyUnpack_over {s : State} (h : s.params.inCap < s.inLen) : bodyUnpack s = .raise .capacity := withInput_over h _
theorem bodyEmit_over {s : State} (h : s.params.inCap < s.inLen) : bodyEmit s = .raise .capacity := withInput_over h _
theorem bodyParse_over {s : State} (h : s.params.inCap < s.inLen) : bodyParse s = .raise .capacity := withInput_over h _
theorem bodyDecode_over {s : State} {lim : Bool} (h : s.params.inCap < s.inLen) :
    bodyDecode lim s = .raise .capacity := withInput_over h _
theorem bodyCompress_over {s : State} (h : s.params.inCap < s.inLen) : bodyCompress s = .raise .capacity :=
  andThen_raise (bodyCount_over (s := clearCallState s) h)
theorem bodyDecompress_over {s : State} {lim : Bool} (h : s.params.inCap < s.inLen) :
    bodyDecompress lim s = .raise .capacity := andThen_raise (bodyParse_over (s := clearCallState s) h)

end Sys2Proof.Machine
end

