-- ==== Sys2Proof/Laws/Encoding.lean ====
section
/-! SUPPORT. Laws of the encodings (Decode.lean; 30_encoding.md R80 to R82, R86): the fields of a command word, and when a
word decodes to a command. -/

namespace Sys2Proof

@[simp] theorem opField_cmdWord (op : BitVec 4) (lim : Bool) : opField (cmdWord op lim) = op := by
  revert op lim; decide

@[simp] theorem limField_cmdWord (op : BitVec 4) (lim : Bool) : limField (cmdWord op lim) = lim := by
  revert op lim; decide

@[simp] theorem reservedLow_cmdWord (op : BitVec 4) (lim : Bool) : reservedLow (cmdWord op lim) = 0 := by
  revert op lim; decide

@[simp] theorem reservedHigh_cmdWord (op : BitVec 4) (lim : Bool) : reservedHigh (cmdWord op lim) = 0 := by
  revert op lim; decide

/-- A word is its four fields (R80). -/
theorem word_fields (w : Word) : w = reservedHigh w ++ BitVec.ofBool (limField w) ++ reservedLow w ++ opField w := by
  apply BitVec.eq_of_toNat_eq
  have h8 : (BitVec.ofBool (limField w)).toNat = w.toNat / 256 % 2 := by
    simp only [limField, BitVec.getLsbD, Nat.testBit_eq_decide_div_mod_eq]
    rcases Nat.mod_two_eq_zero_or_one (w.toNat / 256) with h | h <;> simp [h]
  simp only [BitVec.toNat_append, h8, opField, reservedLow, reservedHigh, BitVec.extractLsb'_toNat, Nat.shiftRight_eq_div_pow]
  rw [← Nat.shiftLeft_add_eq_or_of_lt (by omega), ← Nat.shiftLeft_add_eq_or_of_lt (by omega),
    ← Nat.shiftLeft_add_eq_or_of_lt (by omega)]
  simp only [Nat.shiftLeft_eq]
  have := w.isLt
  omega

theorem eq_cmdWord {w : Word} (hl : reservedLow w = 0) (hh : reservedHigh w = 0) :
    w = cmdWord (opField w) (limField w) := by
  conv_lhs => rw [word_fields w, hl, hh]
  rfl

/-- The operation codes of R81 and R82, all thirty-two pairs of a code and a LIM bit. -/
theorem decodeOp_eq_ok (op : BitVec 4) (lim : Bool) :
    (∃ e, decodeOp op.toNat lim = .error e) ∨ ∃ i, decodeOp op.toNat lim = .ok i ∧ encode i = .cmdw (cmdWord op lim) := by
  have h : ∀ (op : BitVec 4) (lim : Bool), (match decodeOp op.toNat lim with
      | .error _ => true
      | .ok i => encode i == .cmdw (cmdWord op lim)) = true := by decide
  have := h op lim
  cases hd : decodeOp op.toNat lim with
  | error e => exact .inl ⟨e, rfl⟩
  | ok i => rw [hd] at this; exact .inr ⟨i, rfl, by simpa using this⟩

theorem encode_of_decodeCmd {w : Word} {i : Instr} (h : decodeCmd w = .ok i) : encode i = .cmdw w := by
  unfold decodeCmd at h
  split at h
  · cases h
  · rename_i hres
    simp only [ne_eq, not_or, not_not] at hres
    rcases decodeOp_eq_ok (opField w) (limField w) with ⟨e, he⟩ | ⟨j, hj, hj'⟩
    · rw [he] at h; cases h
    · rw [hj] at h; cases h
      rw [hj', ← eq_cmdWord hres.1 hres.2]

/-- A command's own word decodes to it. -/
theorem decode_encode (i : Instr) : decode (encode i) = .ok i := by
  cases i with
  | decode lim => cases lim <;> rfl
  | decompress lim => cases lim <;> rfl
  | treeTokenLeaf s =>
    have h : (Machine.bin8 s).length = 8 := rfl
    simp only [encode, decode, decodeToken, h]
    have hv : BitVec.ofNat 8 (Machine.val (Machine.bin8 s)) = s := by revert s; decide
    rw [List.take_of_length_le (by simp [h]), List.drop_eq_nil_of_le (by simp [h])]
    simp [hv]
  | _ => rfl

end Sys2Proof
end

