-- ==== Sys2Proof/Laws/Window.lean ====
section
/-! SUPPORT. Laws of the register window (Machine/Bus.lean; 10_state.md R35, R37). -/

namespace Sys2Proof.Machine

/-- A flag has one bit. -/
theorem flagBit_getLsbD (n : Nat) (b : Bool) (k : Nat) (hn : n < 32) : (flagBit n b).getLsbD k = (b && decide (k = n)) := by
  cases b with
  | false => simp [flagBit]
  | true =>
    simp only [flagBit, Bool.toNat_true, Nat.one_mul, BitVec.getLsbD_ofNat, Nat.testBit_two_pow, Bool.true_and]
    rw [Bool.eq_iff_iff]; simp; omega

/-- Every bit of the image of `STATUS` (10_state.md R35). -/
theorem Status.image_getLsbD (f : Status) (n : Nat) : f.image.getLsbD n =
    match n with
    | 0 => f.done
    | 1 => f.err
    | 4 => f.freqValid
    | 5 => f.treeValid
    | 6 => f.codeValid
    | 7 => f.tbitsValid
    | 8 => f.parseValid
    | 9 => f.outValid
    | _ => false := by
  simp only [Status.image, BitVec.getLsbD_or]
  rw [flagBit_getLsbD 0 _ _ (by omega), flagBit_getLsbD 1 _ _ (by omega), flagBit_getLsbD 4 _ _ (by omega), flagBit_getLsbD 5 _ _ (by omega),
    flagBit_getLsbD 6 _ _ (by omega), flagBit_getLsbD 7 _ _ (by omega), flagBit_getLsbD 8 _ _ (by omega), flagBit_getLsbD 9 _ _ (by omega)]
  split <;> simp_all

/-- The image of `STATUS` tells the flags. -/
theorem Status.image_injective {f g : Status} (h : f.image = g.image) : f = g := by
  have h' := fun n => (Status.image_getLsbD f n).symm.trans ((congrArg (BitVec.getLsbD · n) h).trans (Status.image_getLsbD g n))
  have h0 := h' 0; have h1 := h' 1; have h4 := h' 4; have h5 := h' 5; have h6 := h' 6; have h7 := h' 7; have h8 := h' 8; have h9 := h' 9
  cases f; cases g; simp_all

/-- The register at a register's own offset (10_state.md R37). -/
theorem regAt_regOffset (r : Reg) : regAt (regOffset r) = some r ∧ regOffset r % 4 = 0 := by
  cases r with
  | freq x =>
    have := x.isLt
    refine ⟨?_, by simp only [regOffset]; omega⟩
    simp only [regOffset]; unfold regAt
    rw [if_neg (by omega), if_pos (by omega), show (0x400 + 4 * x.toNat - 0x400) / 4 = x.toNat by omega]; simp
  | codeLen x =>
    have := x.isLt
    refine ⟨?_, by simp only [regOffset]; omega⟩
    simp only [regOffset]; unfold regAt
    rw [if_neg (by omega), if_neg (by omega), if_pos (by omega), show (0x800 + 4 * x.toNat - 0x800) / 4 = x.toNat by omega]; simp
  | codeBits x w =>
    have := x.isLt; have := w.isLt
    refine ⟨?_, by simp only [regOffset]; omega⟩
    simp only [regOffset]; unfold regAt
    rw [if_neg (by omega), if_neg (by omega), if_neg (by omega), if_neg (by omega), if_pos (by omega),
      show (0x1000 + 32 * x.toNat + 4 * w.val - 0x1000) / 32 = x.toNat by omega,
      show (0x1000 + 32 * x.toNat + 4 * w.val - 0x1000) / 4 = 8 * x.toNat + w.val by omega]
    simp only [BitVec.ofNat_toNat, BitVec.setWidth_eq]
    congr 2
    apply Fin.ext
    simp [Fin.ofNat]
  | node i b =>
    have := i.isLt
    have hb : b.toNat ≤ 1 := by cases b <;> simp
    refine ⟨?_, by simp only [regOffset]; omega⟩
    simp only [regOffset]; unfold regAt
    rw [if_neg (by omega), if_neg (by omega), if_neg (by omega), if_neg (by omega), if_neg (by omega)]
    have h1 : (0x3000 + 8 * i.val + 4 * b.toNat - 0x3000) / 8 = i.val := by omega
    have h2 : (0x3000 + 8 * i.val + 4 * b.toNat - 0x3000) / 4 % 2 = b.toNat := by omega
    rw [dif_pos (by omega)]
    simp only [h1, h2]
    cases b <;> rfl
  | tbits w =>
    have := w.isLt
    refine ⟨?_, by simp only [regOffset]; omega⟩
    simp only [regOffset]; unfold regAt
    rw [if_neg (by omega), if_neg (by omega), if_neg (by omega), if_neg (by omega), if_neg (by omega),
      dif_neg (by omega), if_neg (by omega)]
    have h1 : (0x4000 + 4 * w.val - 0x4000) / 4 = w.val := by omega
    rw [dif_pos (by omega)]
    simp only [h1]
  | _ => exact ⟨rfl, rfl⟩

/-- The first fourteen words. -/
theorem lowReg_offset {n : Nat} {r : Reg} (h : lowReg n = some r) : regOffset r = 4 * n := by
  unfold lowReg at h
  split at h <;> first | (cases h; rfl) | cases h

/-- An aligned offset that is a register's is its offset. -/
theorem regOffset_of_regAt {off : Nat} {r : Reg} (h4 : off % 4 = 0) (h : regAt off = some r) : regOffset r = off := by
  unfold regAt at h
  split at h
  · rw [lowReg_offset h]; omega
  split at h
  · cases h; simp only [regOffset, BitVec.toNat_ofNat]; omega
  split at h
  · cases h; simp only [regOffset, BitVec.toNat_ofNat]; omega
  split at h
  · cases h
  split at h
  · cases h; simp only [regOffset, BitVec.toNat_ofNat, Fin.ofNat]; omega
  split at h
  · cases h
    simp only [regOffset]
    have : ((off - 0x3000) / 4 % 2 == 1).toNat = (off - 0x3000) / 4 % 2 := by
      rcases Nat.mod_two_eq_zero_or_one ((off - 0x3000) / 4) with h | h <;> rw [h] <;> rfl
    rw [this]; omega
  split at h
  · cases h
  split at h
  · cases h; simp only [regOffset]; omega
  · cases h

/-- A read of a register whose value fits the window gives its image (10_state.md R37). -/
theorem readReg_of_image {s : State} {r : Reg} {w : Word} (h : regImage s r = some w) : readReg s r = w := by
  rw [readReg, h]; rfl

/-- A read of a register shown as one word gives its value, if a word can hold it (10_state.md R37). -/
theorem readReg_toNat {s : State} {r : Reg} {n : Nat} (h : regImage s r = wordImage n) (hn : n < 2 ^ 32) :
    (readReg s r).toNat = n := by
  rw [readReg_of_image (h.trans (if_pos hn)), BitVec.toNat_ofNat]; omega

/-- All a host write to a register can do (10_state.md R38). -/
theorem writeReg_cases (s : State) (v : Word) (r : Reg) :
    (r = .inLen ∧ writeReg s v r = { s with inLen := lenWord s.params v.toNat }) ∨
      (∃ n, writeReg s v r = { s with dataLimit := bitCount s.params n }) ∨ writeReg s v r = s := by
  cases r with
  | inLen => exact .inl ⟨rfl, rfl⟩
  | dataLimitLo => exact .inr (.inl ⟨_, rfl⟩)
  | dataLimitHi => exact .inr (.inl ⟨_, rfl⟩)
  | _ => exact .inr (.inr rfl)

end Sys2Proof.Machine
end

