-- ==== Sys2Proof/Laws/Ends.lean ====
section
/-! SUPPORT. What any command can do: how it ends, what it never writes, which errors it raises (40_control.md R100, 60_exceptions.md R210), and what a token never writes. -/

namespace Sys2Proof.Machine

/-- What no body writes: the parameters, the operands, `CMD`, and the model's own fields; nor does it touch `DONE`, `ERR` or `ERRCODE`. -/
structure Kept (s t : State) : Prop where
  params : t.params = s.params
  inMem : t.inMem = s.inMem
  inLen : t.inLen = s.inLen
  dataLimit : t.dataLimit = s.dataLimit
  errcode : t.errcode = s.errcode
  cmd : t.cmd = s.cmd
  deser : t.deser = s.deser
  script : t.script = s.script
  reads : t.reads = s.reads
  tick : t.tick = s.tick

theorem Kept.trans {s t u : State} (h : Kept s t) (h' : Kept t u) : Kept s u := by
  obtain ⟨a0, a1, a2, a3, a4, a5, a6, a7, a8, a9⟩ := h
  obtain ⟨b0, b1, b2, b3, b4, b5, b6, b7, b8, b9⟩ := h'
  exact ⟨b0.trans a0, b1.trans a1, b2.trans a2, b3.trans a3, b4.trans a4, b5.trans a5, b6.trans a6, b7.trans a7, b8.trans a8, b9.trans a9⟩

theorem bodyCount_kept {s t : State} (h : bodyCount s = .ok t) : Kept s t := by
  have h := (withInput_ok h).2
  cases h; constructor <;> rfl

theorem bodyBuild_kept {s t : State} (h : bodyBuild s = .ok t) : Kept s t := by
  rw [bodyBuild] at h; split at h
  · cases h
  · cases h; constructor <;> rfl

theorem bodyGencode_kept {s t : State} (h : bodyGencode s = .ok t) : Kept s t := by
  rw [bodyGencode, withTree] at h; split at h
  · cases h
  · cases h; constructor <;> rfl

theorem bodySerialize_kept {s t : State} (h : bodySerialize s = .ok t) : Kept s t := by
  rw [bodySerialize, withTree] at h; split at h
  · cases h
  · cases h; constructor <;> rfl

theorem bodyPack_kept {s t : State} (h : bodyPack s = .ok t) : Kept s t := by
  rw [bodyPack] at h; split at h
  · cases h
  · cases h; constructor <;> rfl

theorem bodyUnpack_kept {s t : State} (h : bodyUnpack s = .ok t) : Kept s t := by
  have h := (withInput_ok h).2
  split at h
  · cases h
  · cases h; constructor <;> rfl

theorem bodyEmit_kept {s t : State} (h : bodyEmit s = .ok t) : Kept s t := by
  have h := (withInput_ok h).2
  split at h
  · cases h
  · split at h
    · cases h
    · cases h; constructor <;> rfl

theorem bodyParse_kept {s t : State} (h : bodyParse s = .ok t) : Kept s t := by
  have h := (withInput_ok h).2
  split at h
  · cases h
  · simp only at h
    split at h
    · cases h
    · split at h
      · cases h
      · cases h; constructor <;> rfl

theorem bodyDeserialize_kept {s t : State} (h : bodyDeserialize s = .ok t) : Kept s t := by
  rw [bodyDeserialize] at h; split at h
  · cases h
  · cases h; constructor <;> rfl

theorem bodyDecode_kept {lim : Bool} {s t : State} (h : bodyDecode lim s = .ok t) : Kept s t := by
  have h := (withInput_ok h).2
  rw [withTree] at h; split at h
  · cases h
  · simp only at h
    split at h
    · cases h
    · cases h; constructor <;> rfl

theorem clearCallState_kept (s : State) : Kept s (clearCallState s) := by constructor <;> rfl

/-- Both bodies ended with a state. -/
theorem andThen_eq_ok {b : Body} {k : State → Body} {t : State} (h : b.andThen k = .ok t) :
    ∃ u, b = .ok u ∧ k u = .ok t := by
  cases b with
  | ok u => exact ⟨u, rfl, h⟩
  | raise e => cases h
  | stuck f => cases h

/-- A raise comes from one of the two bodies. -/
theorem andThen_eq_raise {b : Body} {k : State → Body} {e : ErrKind} (h : b.andThen k = .raise e) :
    b = .raise e ∨ ∃ u, b = .ok u ∧ k u = .raise e := by
  cases b with
  | ok u => exact .inr ⟨u, rfl, h⟩
  | raise e => cases h; exact .inl rfl
  | stuck f => cases h

theorem bodyCompress_kept {s t : State} (h : bodyCompress s = .ok t) : Kept s t := by
  obtain ⟨a, h1, h⟩ := andThen_eq_ok h
  have k1 := (clearCallState_kept s).trans (bodyCount_kept h1)
  split at h
  · cases h; exact k1.trans (by constructor <;> rfl)
  · obtain ⟨b, h2, h⟩ := andThen_eq_ok h
    obtain ⟨d, h3, h⟩ := andThen_eq_ok h
    obtain ⟨e, h4, h⟩ := andThen_eq_ok h
    exact (((k1.trans (bodyBuild_kept h2)).trans (bodyGencode_kept h3)).trans (bodySerialize_kept h4)).trans (bodyEmit_kept h)

theorem bodyDecompress_kept {lim : Bool} {s t : State} (h : bodyDecompress lim s = .ok t) : Kept s t := by
  obtain ⟨a, h1, h⟩ := andThen_eq_ok h
  have k1 := (clearCallState_kept s).trans (bodyParse_kept h1)
  split at h
  · cases h; exact k1.trans (by constructor <;> rfl)
  · obtain ⟨b, h2, h⟩ := andThen_eq_ok h
    exact (k1.trans (bodyDeserialize_kept h2)).trans (bodyDecode_kept h)

/-- The Pseudocode, the "req" column and the success columns of a command; a token has none. -/
def commandOf : Instr → Option ((Status → Bool) × (State → Status → Status) × (State → Body))
  | .nop => some (Status.reqNothing, fun _ f => f, fun s0 => .ok s0)
  | .clear => some (Status.reqNothing, fun _ f => f.noneValid, fun s0 => .ok (clearCallState s0))
  | .count => some (Status.reqNothing, fun _ f => f.afterCount, bodyCount)
  | .build => some (Status.reqBuild, fun _ f => f.afterBuild, bodyBuild)
  | .gencode => some (Status.reqGencode, fun _ f => f.afterGencode, bodyGencode)
  | .serialize => some (Status.reqSerialize, fun _ f => f.afterSerialize, bodySerialize)
  | .pack => some (Status.reqPack, fun _ f => f.afterPack, bodyPack)
  | .unpack => some (Status.reqNothing, fun _ f => f.afterUnpack, bodyUnpack)
  | .emit => some (Status.reqEmit, fun _ f => f.afterEmit, bodyEmit)
  | .parse => some (Status.reqNothing, fun _ f => f.afterParse, bodyParse)
  | .deserialize => some (Status.reqDeserialize, fun _ f => f.afterDeserialize, bodyDeserialize)
  | .decode lim => some (Status.reqDecode, fun _ f => f.afterDecode, bodyDecode lim)
  | .compress => some (Status.reqNothing, fun s1 f => f.afterCompress (s1.inLen == 0), bodyCompress)
  | .decompress lim => some (Status.reqNothing, fun s1 f => f.afterDecompress (s1.tbc == 0), bodyDecompress lim)
  | .treeTokenLeaf _ | .treeTokenInternal => none

/-- A command is the frame around its Pseudocode. -/
theorem exec_eq_runCommand {i : Instr} (hi : i.isCommand = true) : ∃ ready flags body,
    commandOf i = some (ready, flags, body) ∧ ∀ s, exec i s = runCommand ready flags body s := by
  cases i <;> first
    | exact ⟨_, _, _, rfl, fun _ => rfl⟩
    | cases hi

/-- No body writes the operands, `CMD`, the error state or the model's own fields. -/
theorem body_kept {i : Instr} {ready flags body} (hc : commandOf i = some (ready, flags, body)) {s t : State}
    (h : body s = .ok t) : Kept s t := by
  cases i <;> cases hc
  · cases h; constructor <;> rfl
  · cases h; constructor <;> rfl
  · exact bodyCount_kept h
  · exact bodyBuild_kept h
  · exact bodyGencode_kept h
  · exact bodySerialize_kept h
  · exact bodyPack_kept h
  · exact bodyUnpack_kept h
  · exact bodyEmit_kept h
  · exact bodyParse_kept h
  · exact bodyDeserialize_kept h
  · exact bodyDecode_kept h
  · exact bodyCompress_kept h
  · exact bodyDecompress_kept h

/-- What every command that answers a next state does: the three ends, with the fields no body writes. -/
theorem exec_command_next {i : Instr} {s t : State} (hi : i.isCommand = true) (h : exec i s = .next t) :
    (∃ ready flags body, commandOf i = some (ready, flags, body) ∧
      ((ready s.status.started = false ∧ t = interfaceError .sequence s) ∨
      (∃ e, body (beginCommand s) = .raise e ∧ t = callError e s) ∨
      (∃ u, body (beginCommand s) = .ok u ∧ Kept (beginCommand s) u ∧ t = { u with status := (flags u u.status).succeeded }))) := by
  obtain ⟨ready, flags, body, hc, he⟩ := exec_eq_runCommand hi
  rw [he] at h
  refine ⟨ready, flags, body, hc, ?_⟩
  rcases runCommand_next h with ⟨h1, h2⟩ | ⟨_, e, h1, h2⟩ | ⟨_, u, h1, h2⟩
  · exact .inl ⟨h1, h2⟩
  · exact .inr (.inl ⟨e, h1, h2⟩)
  · exact .inr (.inr ⟨u, h1, body_kept hc h1, h2⟩)

/-- Reading `TREE` does not raise. -/
theorem withTree_no_raise {s : State} {k : Tree → Body} {e : ErrKind} (h : withTree s k = .raise e) :
    ∃ u, treeOperand s = some u ∧ k u = .raise e := by
  rw [withTree] at h
  split at h
  · cases h
  · exact ⟨_, by assumption, h⟩

theorem bodyBuild_errs {s : State} {e : ErrKind} (h : bodyBuild s = .raise e) : e = .emptyAlphabetPrecondition := by
  rw [bodyBuild] at h; split at h <;> cases h; rfl

theorem bodyPack_errs {s : State} {e : ErrKind} (h : bodyPack s = .raise e) : e = .capacity := by
  rw [bodyPack] at h; split at h <;> cases h; rfl

theorem bodyCount_errs {s : State} {e : ErrKind} (h : bodyCount s = .raise e) : e = .capacity := by
  rcases withInput_raise h with h | ⟨_, h⟩
  · exact h
  · cases h

theorem bodyUnpack_errs {s : State} {e : ErrKind} (h : bodyUnpack s = .raise e) : e = .capacity := by
  rcases withInput_raise h with h | ⟨_, h⟩
  · exact h
  · split at h <;> cases h; rfl

theorem bodyEmit_errs {s : State} {e : ErrKind} (h : bodyEmit s = .raise e) : e = .capacity ∨ e = .missingCode := by
  rcases withInput_raise h with h | ⟨_, h⟩
  · exact .inl h
  · split at h
    · cases h; exact .inr rfl
    · split at h <;> cases h; exact .inl rfl

theorem bodyParse_errs {s : State} {e : ErrKind} (h : bodyParse s = .raise e) : e = .capacity ∨ e = .malformedContainer := by
  rcases withInput_raise h with h | ⟨_, h⟩
  · exact .inl h
  · split at h
    · cases h; exact .inr rfl
    · simp only at h
      split at h
      · cases h; exact .inr rfl
      · split at h <;> cases h; exact .inl rfl

theorem bodyDeserialize_errs {s : State} {e : ErrKind} (h : bodyDeserialize s = .raise e) : e = .malformedContainer := by
  rw [bodyDeserialize] at h; split at h <;> cases h; rfl

theorem bodyDecode_errs {lim : Bool} {s : State} {e : ErrKind} (h : bodyDecode lim s = .raise e) : e = .capacity := by
  rcases withInput_raise h with h | ⟨_, h⟩
  · exact h
  · obtain ⟨u, _, h⟩ := withTree_no_raise h
    simp only at h
    split at h <;> cases h; rfl

/-- In COMPRESS every input byte has a code. -/
theorem compress_enc {s : State} {u : Tree} (h2 : HuffmanTree (fun x => (inputBytes s).count x) u) :
    ∃ enc, encodeBytes (codes u) (inputBytes s) = some enc ∧
     encodeBytes (codeOf (stagesOf s u).code) (inputBytes (stagesOf s u)) = some enc := by
  obtain ⟨⟨enc, he⟩, -⟩ := HuffmanTree.encodes h2
  exact ⟨enc, he, (encodeBytes_congr (codeOf_codeTable u) _).trans he⟩

theorem bodyCompress_errs {s : State} {e : ErrKind} (hp : s.params.Ok) (h : bodyCompress s = .raise e) : e = .capacity := by
  by_cases hin : s.params.inCap < s.inLen
  · rw [bodyCompress_over hin] at h
    cases h; rfl
  have hin := Nat.not_lt.mp hin
  by_cases h0 : s.inLen = 0
  · rw [bodyCompress, andThen_ok (bodyCount_clear hin)] at h
    rw [if_pos (by exact h0)] at h; cases h
  · obtain ⟨u, h1, h2, h3, h4, h5, h6⟩ := compress_stages hp hin h0
    obtain ⟨enc, -, hc⟩ := compress_enc h2
    rw [h6, bodyEmit_eq (s := stagesOf s u) hin hc] at h
    split at h <;> cases h; rfl

theorem bodyDecompress_errs {lim : Bool} {s : State} {e : ErrKind} (h : bodyDecompress lim s = .raise e) :
    e = .capacity ∨ e = .malformedContainer := by
  rcases andThen_eq_raise h with h | ⟨u, _, h⟩
  · exact bodyParse_errs h
  · split at h
    · cases h
    · rcases andThen_eq_raise h with h | ⟨v, _, h⟩
      · exact .inr (bodyDeserialize_errs h)
      · exact .inl (bodyDecode_errs h)

/-- Which errors each command's Pseudocode raises (60_exceptions.md R210). -/
theorem body_errs {i : Instr} {ready flags body} (hc : commandOf i = some (ready, flags, body)) {s : State} {e : ErrKind}
    (hp : s.params.Ok) (h : body s = .raise e) : e.isCallError = true ∧
    (e = .malformedContainer → i = .parse ∨ i = .deserialize ∨ ∃ l, i = .decompress l) ∧
    (e = .emptyAlphabetPrecondition → i = .build) ∧
    (e = .capacity → i = .count ∨ i = .unpack ∨ i = .pack ∨ i = .emit ∨ i = .parse ∨ i = .compress ∨
      (∃ l, i = .decode l) ∨ ∃ l, i = .decompress l) ∧
    (e = .missingCode → i = .emit) := by
  cases i <;> cases hc
  · cases h
  · cases h
  · rw [bodyCount_errs h]; simp [ErrKind.isCallError]
  · rw [bodyBuild_errs h]; simp [ErrKind.isCallError]
  · obtain ⟨u, _, h⟩ := withTree_no_raise h; cases h
  · obtain ⟨u, _, h⟩ := withTree_no_raise h; cases h
  · rw [bodyPack_errs h]; simp [ErrKind.isCallError]
  · rw [bodyUnpack_errs h]; simp [ErrKind.isCallError]
  · rcases bodyEmit_errs h with rfl | rfl <;> simp [ErrKind.isCallError]
  · rcases bodyParse_errs h with rfl | rfl <;> simp [ErrKind.isCallError]
  · rw [bodyDeserialize_errs h]; simp [ErrKind.isCallError]
  · rw [bodyDecode_errs h]; simp [ErrKind.isCallError]
  · rw [bodyCompress_errs hp h]; simp [ErrKind.isCallError]
  · rcases bodyDecompress_errs h with rfl | rfl <;> simp [ErrKind.isCallError]

/-- Filling a place changes node memory and `ROOT` only. -/
theorem fillSlot_frame (slot : Slot) (i : Nat) (s : State) :
    ∃ n r, fillSlot slot i s = { s with node := n, root := r } := by
  cases slot with
  | root => exact ⟨_, _, rfl⟩
  | left p => simp only [fillSlot]; split <;> exact ⟨_, _, rfl⟩
  | right p => simp only [fillSlot]; split <;> exact ⟨_, _, rfl⟩

/-- What placing a node changes. -/
theorem placeNode_frame (record : Node) (below : List Slot) (c : DeserCtx) (s : State) :
    (∃ n r k st d, placeNode record below c s = { s with node := n, root := r, nodeCount := k, status := st, deser := d }) ∨
      placeNode record below c s = failDeserialize s := by
  simp only [placeNode]
  obtain ⟨n, r, hf⟩ := fillSlot_frame c.slot s.nodeCount s
  rw [hf]
  split
  · left
    split
    · exact ⟨_, _, _, _, _, rfl⟩
    · exact ⟨_, _, _, _, _, rfl⟩
  · right; rfl

/-- Starting a deserialization leaves the parameters and the buffers alone. -/
theorem currentDeser_frame (s : State) : ∃ c s0, currentDeser s = (c, s0) ∧ s0.params = s.params ∧ s0.inMem = s.inMem ∧ s0.inLen = s.inLen ∧
    s0.dataLimit = s.dataLimit ∧ s0.outMem = s.outMem := by
  rw [currentDeser]
  split <;> exact ⟨_, _, rfl, rfl, rfl, rfl, rfl, rfl⟩

/-- Placing a node leaves the parameters and the buffers alone. -/
theorem placeNode_operands (record : Node) (below : List Slot) (c : DeserCtx) (s : State) :
    (placeNode record below c s).params = s.params ∧ (placeNode record below c s).inMem = s.inMem ∧ (placeNode record below c s).inLen = s.inLen ∧
    (placeNode record below c s).dataLimit = s.dataLimit ∧ (placeNode record below c s).outMem = s.outMem := by
  rcases placeNode_frame record below c s with ⟨n, r, k, st, d, h⟩ | h <;> rw [h] <;> exact ⟨rfl, rfl, rfl, rfl, rfl⟩

/-- A token leaves the parameters and the buffers alone. -/
theorem token_operands {i : Instr} {s t : State} (hi : i.isCommand = false) (h : exec i s = .next t) :
    t.params = s.params ∧ t.inMem = s.inMem ∧ t.inLen = s.inLen ∧ t.dataLimit = s.dataLimit ∧ t.outMem = s.outMem := by
  obtain ⟨c, s0, hc, e0, e1, e2, e3, e4⟩ := currentDeser_frame s
  cases i <;> first | (cases hi; done) | skip
  · simp only [exec, execTreeTokenLeaf, hc] at h; cases h
    obtain ⟨a0, a1, a2, a3, a4⟩ := placeNode_operands (.leaf s.params.deserWeight _) [] c s0
    exact ⟨a0.trans e0, a1.trans e1, a2.trans e2, a3.trans e3, a4.trans e4⟩
  · simp only [exec, execTreeTokenInternal, hc] at h; cases h
    obtain ⟨a0, a1, a2, a3, a4⟩ := placeNode_operands (.internal s.params.deserWeight 0 0) [.left s0.nodeCount, .right s0.nodeCount] c s0
    exact ⟨a0.trans e0, a1.trans e1, a2.trans e2, a3.trans e3, a4.trans e4⟩

/-- What the host sees of a call error depends on the error alone. -/
theorem resultOf_callError (e : ErrKind) (s s' : State) : resultOf (callError e s) = resultOf (callError e s') := by
  simp [resultOf, callError, interfaceError, clearCallState, Status.failed, Status.noneValid]

/-- When the host sees the same. -/
theorem resultOf_eq {t t' : State} {out : List Byte} (h1 : t.status.image = t'.status.image) (h2 : t.errcode = t'.errcode)
    (h3 : t.outLen = out.length) (h3' : t'.outLen = out.length) (h4 : t.encBits = t'.encBits)
    (h5 : ∀ a, a < out.length → t.outMem.read a = out[a]?) (h5' : ∀ a, a < out.length → t'.outMem.read a = out[a]?) :
    resultOf t = resultOf t' := by
  have hl : t.outLen = t'.outLen := by omega
  simp only [resultOf, Status.image_injective h1, h2, hl, h4, Prod.mk.injEq, true_and]
  apply List.map_congr_left
  intro a ha
  have : a < out.length := by rw [← h3']; simpa using ha
  rw [h5 a this, h5' a this]

/-- Equal inputs have equal lengths. -/
theorem inLen_of_inputBytes {s s' : State} (h : inputBytes s = inputBytes s') : s.inLen = s'.inLen := by
  rw [← length_inputBytes s, h, length_inputBytes]

/-- The input bytes, read cell by cell. -/
theorem inputBytes_eq_of_read {s : State} {out : List Byte} (hl : s.inLen = out.length)
    (h : ∀ a, a < out.length → s.inMem.read a = out[a]?) : inputBytes s = out := by
  apply List.ext_getElem?
  intro a
  rw [inputBytes_getElem?, hl]
  by_cases ha : a < out.length
  · rw [if_pos ha, inByte, h a ha]; simp [ha]
  · rw [if_neg ha, List.getElem?_eq_none (by omega)]

/-- Equal outcomes, equal states. -/
theorem next_inj {a b : State} (h : (Host.Outcome.next a : Host.Outcome State Fault Refusal) = .next b) : a = b := by
  cases h; rfl

end Sys2Proof.Machine
end

