-- ==== Sys2Proof/Laws/Invariant.lean ====
section
/-! SUPPORT. Laws of the invariant (Safety.lean) and of the host's transactions (Machine/Fetch.lean, Machine/Script.lean). -/

namespace Sys2Proof.Machine

/-- A step that writes `IN`. -/
theorem step_writeIn {s : State} {i : Nat} {b : Byte} {rest : List Txn} (hd : s.deser = none)
    (hs : s.script = .writeIn i b :: rest) (hi : i < s.params.inCap) :
    step s = .next { s with inMem := s.inMem.write i b, script := rest, tick := s.tick + 1 } := by
  simp only [step, fetch, hd, hs, commandWord?, hostAccess, if_pos hi, takeTxn]

/-- A step that writes `IN_LEN`. -/
theorem step_writeInLen {s : State} {v : Word} {rest : List Txn} (hd : s.deser = none)
    (hs : s.script = wReg .inLen v :: rest) :
    step s = .next { s with inLen := lenWord s.params v.toNat, script := rest, tick := s.tick + 1 } := by
  have hw : wReg .inLen v = .writeReg .word 12 v := rfl
  rw [hw] at hs
  have h12 : ¬ ((12 : Word) = 0) := by decide
  have hr : regAt (12 : Word).toNat = some .inLen := by decide
  have hm : (12 : Word).toNat % 4 = 0 := by decide
  simp only [step, fetch, hd, hs, commandWord?, if_neg h12, hostAccess, regAccess, ne_eq, not_true_eq_false, if_false, hm, hr,
    writeReg, takeTxn]

/-- One step, then the rest. -/
theorem run_succ {k : Nat} {s t : State} (h : step s = .next t) : Host.Core.run Sys2Proof.core (k + 1) s = Host.Core.run Sys2Proof.core k t := by
  have : Sys2Proof.core.step s = .next t := h
  simp only [Host.Core.run, this]

/-- The writes of a whole input. -/
theorem run_wIn (bytes : List Byte) : ∀ (s : State) (i k : Nat) (rest : List Txn), s.deser = none →
    i + bytes.length ≤ s.params.inCap → s.script = wInFrom i bytes ++ rest →
    Host.Core.run Sys2Proof.core (bytes.length + k) s =
      Host.Core.run Sys2Proof.core k { s with inMem := s.inMem.writeFrom i bytes, script := rest, tick := s.tick + bytes.length } := by
  induction bytes with
  | nil =>
    intro s i k rest hd hi hs
    simp only [wInFrom, List.nil_append] at hs
    simp only [List.length_nil, Nat.zero_add, Memory.writeFrom, Nat.add_zero]
    rw [← hs]
  | cons b bytes ih =>
    intro s i k rest hd hi hs
    simp only [List.length_cons] at hi ⊢
    have hst := step_writeIn hd (show s.script = .writeIn i b :: (wInFrom (i + 1) bytes ++ rest) from hs) (by omega)
    rw [show bytes.length + 1 + k = (bytes.length + k) + 1 by omega, run_succ hst]
    have := ih { s with inMem := s.inMem.write i b, script := wInFrom (i + 1) bytes ++ rest, tick := s.tick + 1 } (i + 1) k rest hd (by simp only; omega) rfl
    rw [this]
    simp only [Memory.writeFrom]
    rw [show s.tick + 1 + bytes.length = s.tick + (bytes.length + 1) by omega]

/-- The code table of a tree is in order. -/
theorem codeOk_table (u : Tree) {s : State} (hp : s.params.Ok) (hb : (serialize u).length ≤ s.params.tbitsCap)
    (h : s.code = codeTable u) : CodeOk s := by
  have he : ∀ (i : Nat) (e : CodeEntry), s.code[i]? = some e → i < 256 ∧ e = codeEntry (codes u (BitVec.ofNat 8 i)) := by
    intro i e hi
    rw [h, codeTable, tabulate_getElem?] at hi
    split at hi
    · cases hi; exact ⟨by assumption, rfl⟩
    · cases hi
  refine ⟨?_, ?_⟩
  · intro i e hi
    rw [(he i e hi).2]
    have := hp.tbitsLo
    cases hc : codes u (BitVec.ofNat 8 i) with
    | none => exact ⟨rfl, by show 10 * (0 + 1) ≤ _; omega⟩
    | some p =>
      have := codes_length hc
      have := u.depth_lt_leaves
      have := length_serialize u
      exact ⟨rfl, by show 10 * (p.length + 1) ≤ _; omega⟩
  · intro i j e e' hi hj hij h0 h0'
    obtain ⟨hi1, rfl⟩ := he i e hi
    obtain ⟨hj1, rfl⟩ := he j e' hj
    cases hc : codes u (BitVec.ofNat 8 i) with
    | none => rw [hc] at h0; exact absurd rfl h0
    | some p =>
      cases hc' : codes u (BitVec.ofNat 8 j) with
      | none => rw [hc'] at h0'; exact absurd rfl h0'
      | some q =>
        refine codes_prefix_free ?_ hc hc'
        intro hs
        have := congrArg BitVec.toNat hs
        simp at this; omega

/-- An empty code table is in order. -/
theorem codeOk_absent {s : State} (hp : s.params.Ok) (h : s.code = tabulate 256 fun _ => CodeEntry.absent) : CodeOk s := by
  have he : ∀ (i : Nat) (e : CodeEntry), s.code[i]? = some e → e = CodeEntry.absent := by
    intro i e hi
    rw [h, tabulate_getElem?] at hi
    split at hi <;> cases hi; rfl
  refine ⟨fun i e h => by rw [he i e h]; exact ⟨rfl, by have := hp.tbitsLo; show 10 * (0 + 1) ≤ _; omega⟩, ?_⟩
  intro i j e e' h h' _ h0
  exact absurd (by rw [he i e h]; rfl) h0

/-- Writing an output that fits keeps `OUT` in order. -/
theorem buffersOk_putOut {s : State} (h : BuffersOk s) (bytes : List Byte) (hl : bytes.length ≤ s.params.outCap) :
    Memory.wf (s.outMem.writeFrom 0 bytes) = true ∧ ∀ c ∈ s.outMem.writeFrom 0 bytes, c.1 < s.params.outCap := by
  refine ⟨Memory.wf_writeFrom h.2.1 _ _, ?_⟩
  intro c hc
  rcases Memory.mem_writeFrom hc with hm | hm
  · omega
  · exact h.2.2.2 c hm

/-- An output written whole can be read whole. -/
theorem outOk_putOut (bytes : List Byte) (s : State) : OutOk (putOut bytes s) := by
  obtain ⟨h1, h2, _⟩ := putOut_spec bytes s
  intro i hi
  exact (h2 i (by omega)).2

/-! ## Widths (00_scope.md R6) -/

/-- Every counter of an input that fits `IN` is inside its width (42_tree_builder.md R128). -/
theorem freqOf_histogram_lt {p : Params} (hp : p.Ok) (bytes : List Byte) (h : bytes.length ≤ p.inCap) (x : Byte) :
    freqOf (histogram bytes) x < 2 ^ p.cntW := by
  rw [freqOf_histogram]
  have := List.count_le_length (a := x) (l := bytes)
  have := hp.inCnt
  omega

theorem freqOf_zero (x : Byte) : freqOf (tabulate 256 fun _ => 0) x = 0 := by
  simp [freqOf, tabulate_getD]

/-- The keys of the first heap add up to the weights of its records. -/
theorem pushRecords_sum {p : Params} (recs : List Node) : ∀ (h : List HeapEntry) (i : Nat),
    ((pushRecords p h i recs).map HeapEntry.weight).sum = (h.map HeapEntry.weight).sum + (recs.map Node.weight).sum := by
  induction recs with
  | nil => simp [pushRecords]
  | cons n recs ih =>
    intro h i
    rw [pushRecords, ih, ((heapPush_perm _ h).map HeapEntry.weight).sum_eq]
    simp only [List.map_cons, List.sum_cons]; omega

/-- No merge makes a weight above the sum of the keys (42_tree_builder.md R128). -/
theorem mergeLoop_weights {p : Params} (total fuel : Nat) : ∀ (recs : List Node) (heap : List HeapEntry),
    (∀ n ∈ recs, n.weight ≤ total) → (heap.map HeapEntry.weight).sum ≤ total →
    ∀ n ∈ (mergeLoop p fuel recs heap).1, n.weight ≤ total := by
  induction fuel with
  | zero => intro recs heap h _; simpa [mergeLoop] using h
  | succ fuel ih =>
    intro recs heap h hs
    match heap, hs with
    | [], _ | [_], _ => simpa [mergeLoop] using h
    | a :: b :: heap, hs =>
      simp only [List.map_cons, List.sum_cons] at hs
      refine ih _ _ (fun n hn => ?_) ?_
      · rcases List.mem_append.mp hn with hn | hn
        · exact h n hn
        · rw [List.mem_singleton] at hn; subst hn; show a.weight + b.weight ≤ total; omega
      · rw [((heapPush_perm _ heap).map HeapEntry.weight).sum_eq]
        simp only [List.map_cons, List.sum_cons]; omega

/-- Every record BUILD makes from the counts of an input has a weight inside its width (42_tree_builder.md R128). -/
theorem buildRecords_weights {p : Params} (hp : p.Ok) {freq : Vector Nat 256}
    (h : (allSymbols.map (freqOf freq)).sum ≤ p.inCap) :
    ∀ n ∈ (buildRecords p freq).1, n.weight < 2 ^ p.cntW := by
  have hsum : ((leafRecords freq).map Node.weight).sum = (allSymbols.map (freqOf freq)).sum := by
    rw [← sum_alphabet, leafRecords_eq, List.map_map]; rfl
  have := hp.inCnt
  refine fun n hn => Nat.lt_of_le_of_lt (mergeLoop_weights _ _ _ _ (fun m hm => ?_) ?_ n hn) (Nat.lt_of_le_of_lt h this)
  · rw [← hsum]; exact List.single_le_sum (by simp) _ (List.mem_map_of_mem hm)
  · rw [pushRecords_sum, hsum]; simp

/-- Every record DESERIALIZE makes has weight `DESER_WEIGHT`. -/
theorem preorderRecords_weights {p : Params} (hp : p.Ok) (u : Tree) (i : Nat) :
    ∀ n ∈ preorderRecords p u i, n.weight < 2 ^ p.cntW := by
  induction u generalizing i with
  | leaf => intro n hn; rw [preorderRecords, List.mem_singleton] at hn; subst hn; exact hp.weight
  | internal w l r ihl ihr =>
    intro n hn
    rw [preorderRecords, List.mem_cons, List.mem_append] at hn
    rcases hn with rfl | hn | hn
    · exact hp.weight
    · exact ihl _ n hn
    · exact ihr _ n hn

theorem WidthsOk.putTree {s : State} (h : WidthsOk s) {records : List Node} (root : Nat)
    (hr : ∀ n ∈ records, n.weight < 2 ^ s.params.cntW) : WidthsOk (putTree records root s) := by
  obtain ⟨h1, h2, h3, h4, h5, h6, _⟩ := h
  refine ⟨h1, h2, h3, h4, h5, h6, listFrom_length .., fun i n hn => ?_⟩
  simp only [Machine.putTree, nodeTable, listFrom_getElem?, Nat.zero_add] at hn
  split at hn
  · simp only [Option.some.injEq] at hn
    rw [List.getD_eq_getElem?_getD] at hn
    cases hi : records[i]? with
    | none => rw [hi] at hn; subst hn; exact Nat.two_pow_pos _
    | some m => rw [hi] at hn; subst hn; exact hr _ (List.mem_of_getElem? hi)
  · cases hn

theorem WidthsOk.putOut {s : State} (h : WidthsOk s) (hp : s.params.Ok) {bytes : List Byte}
    (hl : bytes.length ≤ s.params.outCap) : WidthsOk (putOut bytes s) := by
  obtain ⟨h1, _, h3⟩ := h
  exact ⟨h1, Nat.lt_of_le_of_lt hl hp.outLen, h3⟩

theorem WidthsOk.clearCallState {s : State} (h : WidthsOk s) : WidthsOk (clearCallState s) := by
  obtain ⟨h1, _, _, _, h5, _, _⟩ := h
  refine ⟨h1, Nat.two_pow_pos _, Nat.two_pow_pos _, Nat.two_pow_pos _, h5, fun x => ?_, List.length_replicate, fun i n hn => ?_⟩
  · rw [show (Machine.clearCallState s).freq = tabulate 256 fun _ => 0 from rfl, freqOf_zero]; exact Nat.two_pow_pos _
  · simp only [Machine.clearCallState, List.getElem?_replicate] at hn
    split at hn <;> cases hn
    exact Nat.two_pow_pos _

theorem WidthsOk.counted {s : State} (h : WidthsOk s) (hp : s.params.Ok) {bytes : List Byte} (hb : bytes.length ≤ s.params.inCap)
    (n : BitVec 9) : WidthsOk { s with freq := histogram bytes, symCount := n } := by
  obtain ⟨h1, h2, h3, h4, h5, _, h7⟩ := h
  exact ⟨h1, h2, h3, h4, h5, freqOf_histogram_lt hp bytes hb, h7⟩

theorem WidthsOk.encBits {s : State} (h : WidthsOk s) (tick n : Nat) :
    WidthsOk { s with encBits := encBitsValue s.params tick n } := by
  obtain ⟨h1, h2, h3, _, h5⟩ := h
  exact ⟨h1, h2, h3, encBitsValue_lt _ _, h5⟩

theorem WidthsOk.zeroEncBits {s : State} (h : WidthsOk s) : WidthsOk { s with encBits := 0 } := by
  obtain ⟨h1, h2, h3, _, h5⟩ := h
  exact ⟨h1, h2, h3, Nat.two_pow_pos _, h5⟩

theorem WidthsOk.inLen {s : State} (h : WidthsOk s) (n : Nat) :
    WidthsOk { s with inLen := lenWord s.params n } := ⟨lenWord_lt n, h.2⟩

theorem WidthsOk.dataLimit {s : State} (h : WidthsOk s) (n : Nat) :
    WidthsOk { s with dataLimit := bitCount s.params n } := by
  obtain ⟨h1, h2, h3, h4, _, h6⟩ := h
  exact ⟨h1, h2, h3, h4, bitCount_lt n, h6⟩

/-- `DATA_OFF` never passes the end of the input. -/
theorem WidthsOk.parsed {s : State} (h : WidthsOk s) {n : Nat} (h4 : 4 ≤ s.inLen) (hn : n ≤ s.inLen - 4) :
    WidthsOk { s with dataOff := 4 + n } := by
  obtain ⟨h1, h2, _, hr⟩ := h
  exact ⟨h1, h2, by simp only; omega, hr⟩

/-! ## The parts of the invariant -/

/-- A flag that is 1 asks nothing of its product. -/
theorem noAbsent {p : Prop} (h : true = false) : p := Bool.noConfusion h

/-- After the call state is cleared nothing is left of any product. -/
theorem absentOk_cleared (s : State) (f : Status) (e : Option ErrKind) :
    AbsentOk { clearCallState s with status := f, errcode := e } :=
  ⟨fun _ => ⟨rfl, rfl⟩, fun _ => ⟨rfl, rfl, rfl⟩, fun _ => rfl, fun _ => ⟨rfl, rfl⟩, fun _ => rfl, fun _ => ⟨rfl, rfl⟩⟩

/-- A call error keeps the invariant. -/
theorem inv_callError {s : State} (e : ErrKind) (h : Inv s) : Inv (callError e s) := by
  have hp : s.params.Ok := Params.ok_of_wf h.params
  refine ⟨h.params, h.widths.clearCallState, h.idle, h.buffers, (by intro h; cases h), (by intro h; cases h), (by intro h; cases h), codeOk_absent hp rfl, ⟨rfl, by simp [callError, interfaceError, clearCallState]⟩, ⟨by simp [callError, interfaceError, Status.failed], rfl⟩, absentOk_cleared s _ _⟩

/-- An interface error keeps the invariant. -/
theorem inv_interfaceError {s : State} (e : ErrKind) (h : Inv s) : Inv (interfaceError e s) :=
  ⟨h.params, h.widths, h.idle, h.buffers, h.out, h.freq, h.tree, h.code, h.tbits, ⟨by simp [interfaceError, Status.failed], rfl⟩, h.absent⟩

/-- The counts of the input are in order. -/
theorem freqOk_histogram {s t : State} (hin : s.inLen ≤ s.params.inCap) (ht : t.params = s.params)
    (hf : t.freq = histogram (inputBytes s))
    (hc : t.symCount = BitVec.ofNat 9 (symbolsUsed (histogram (inputBytes s)))) : FreqOk t := by
  refine ⟨?_, ?_⟩
  · rw [hf, ht, histogram_fun, sum_count]; simpa using hin
  · rw [hc, hf, symCount_toNat]

/-- `TreeOk` is about three fields and the parameters. -/
theorem treeOk_congr {s t : State} (h : TreeOk s) (h0 : t.params = s.params) (h1 : t.node = s.node) (h2 : t.nodeCount = s.nodeCount) (h3 : t.root = s.root) : TreeOk t := by
  simp only [TreeOk, treeOperand, h0, h1, h2, h3] at h ⊢; exact h

/-- The tree bits PARSE leaves are in order. -/
theorem tbitsOk_parsedOf {s : State} (hcut : ceil8 (lengthField (inputBytes s)) ≤ s.inLen - 4)
    (hcap : lengthField (inputBytes s) ≤ s.params.tbitsCap) : TbitsOk (parsedOf s) := by
  have := parsedOf_tbits_length hcut
  exact ⟨this.symm, by rw [this]; exact hcap⟩

/-- How PARSE can end. -/
theorem bodyParse_cases (s : State) : bodyParse s = .raise .malformedContainer ∨ bodyParse s = .raise .capacity ∨
    (s.inLen ≤ s.params.inCap ∧ 4 ≤ s.inLen ∧ ceil8 (lengthField (inputBytes s)) ≤ s.inLen - 4 ∧
      lengthField (inputBytes s) ≤ s.params.tbitsCap ∧
      bodyParse s = .ok { s with
        tbits := (unpack (((inputBytes s).drop 4).take (ceil8 (lengthField (inputBytes s))))).take (lengthField (inputBytes s))
        tbc := lengthField (inputBytes s)
        dataOff := 4 + ceil8 (lengthField (inputBytes s)) }) := by
  by_cases hin : s.params.inCap < s.inLen
  · exact .inr (.inl (bodyParse_over hin))
  have hin := Nat.not_lt.mp hin
  by_cases h4 : s.inLen < 4
  · exact .inl (bodyParse_short hin h4)
  by_cases hcut : ceil8 (lengthField (inputBytes s)) > s.inLen - 4
  · exact .inl (bodyParse_cut hin (by omega) hcut)
  by_cases hcap : lengthField (inputBytes s) > s.params.tbitsCap
  · exact .inr (.inl (bodyParse_capacity hin (by omega) (by omega) hcap))
  · exact .inr (.inr ⟨hin, by omega, by omega, by omega, bodyParse_ok hin (by omega) (by omega) (by omega)⟩)

/-- A command that succeeded leaves `DONE` = 1 and no error. -/
theorem statusOk_succeeded {s : State} (u : State) (f : Status) (hk : Kept (beginCommand s) u) :
    StatusOk { u with status := f.succeeded } := by
  refine ⟨by simp [Status.succeeded], ?_⟩
  change u.errcode.isSome = false
  rw [hk.errcode]; rfl

/-- A command that raises, or leaves a state with the invariant. -/
def EndsInInv (flags : State → Status → Status) (body : State → Body) (s : State) : Prop :=
  (∃ e, body (beginCommand s) = .raise e) ∨
    ∃ u, body (beginCommand s) = .ok u ∧ Inv { u with status := (flags u u.status).succeeded }

/-- COMPRESS, in a state with the invariant. -/
theorem compress_inv {s : State} (h : Inv s) :
    EndsInInv (fun s1 f => f.afterCompress (s1.inLen == 0)) bodyCompress s := by
  have hp := Params.ok_of_wf h.params
  have hw : WidthsOk (beginCommand s) := h.widths
  by_cases hin : s.params.inCap < s.inLen
  · exact .inl ⟨_, bodyCompress_over (s := beginCommand s) hin⟩
  have hin : (beginCommand s).inLen ≤ (beginCommand s).params.inCap := Nat.not_lt.mp hin
  have hwc : WidthsOk (countedOf (beginCommand s)) := hw.clearCallState.counted hp (by simpa using hin) _
  have hfr : FreqOk (countedOf (beginCommand s)) := freqOk_histogram (s := beginCommand s) hin rfl rfl rfl
  by_cases h0 : s.inLen = 0
  · have hb : bodyCompress (beginCommand s) = .ok (emptyContainer (countedOf (beginCommand s))) := by
      rw [bodyCompress, andThen_ok (bodyCount_clear hin)]
      exact if_pos h0
    have hl : ([0, 0, 0, 0] : List Byte).length ≤ s.params.outCap := hp.out4
    obtain ⟨b1, b2⟩ := buffersOk_putOut h.buffers _ hl
    have hz : (s.inLen == 0) = true := by simpa using h0
    refine .inr ⟨_, hb, h.params, (hwc.putOut hp hl).zeroEncBits, h.idle, ⟨h.buffers.1, b1, h.buffers.2.2.1, b2⟩, fun _ => outOk_putOut _ (clearCallState (beginCommand s)),
      fun _ => freqOk_histogram (s := beginCommand s) hin rfl rfl rfl, ?_, codeOk_absent hp rfl, ⟨rfl, by simp [emptyContainer, putTbits]⟩, statusOk_succeeded _ _ (bodyCompress_kept hb), ?_⟩
    swap
    · change AbsentOk { emptyContainer (countedOf (beginCommand s)) with
        status := (Status.afterCompress (s.inLen == 0) s.status.started.noneValid).succeeded }
      rw [hz]
      exact ⟨noAbsent, fun _ => ⟨rfl, rfl, rfl⟩, fun _ => rfl, fun _ => ⟨rfl, rfl⟩, fun _ => rfl, noAbsent⟩
    intro hv
    change (Status.afterCompress (s.inLen == 0) s.status.started.noneValid).treeValid = true at hv
    rw [hz] at hv; cases hv
  · obtain ⟨u, h1, h2, h3, h4, h5, h6⟩ := compress_stages (s := beginCommand s) hp hin h0
    obtain ⟨enc, _, hce⟩ := compress_enc h2
    have hb := h6.trans (bodyEmit_eq (s := stagesOf (beginCommand s) u) hin hce)
    have hws : WidthsOk (stagesOf (beginCommand s) u) :=
      hwc.putTree (buildRecords s.params (histogram (inputBytes s))).2 (buildRecords_weights hp hfr.1)
    have htb : TbitsOk (stagesOf (beginCommand s) u) := ⟨rfl, serialize_fits hp h3⟩
    have hco : CodeOk (stagesOf (beginCommand s) u) := codeOk_table u hp (serialize_fits hp h3) rfl
    have hfs : FreqOk (stagesOf (beginCommand s) u) := hfr
    have hbu : BuffersOk (stagesOf (beginCommand s) u) := h.buffers
    have hid : (stagesOf (beginCommand s) u).deser = none := h.idle
    have hpa : (stagesOf (beginCommand s) u).params = s.params := rfl
    have hdo : (stagesOf (beginCommand s) u).dataOff = 0 := rfl
    have hz : ((stagesOf (beginCommand s) u).inLen == 0) = false := beq_eq_false_iff_ne.mpr h0
    generalize stagesOf (beginCommand s) u = S at *
    by_cases hcap : 4 + ceil8 S.tbc + ceil8 enc.length > S.params.outCap
    · exact .inl ⟨.capacity, hb.trans (if_pos hcap)⟩
    · have hb := hb.trans (if_neg hcap)
      have hl : (container (lengthWord S.tick S.tbc) S.tbits enc).length ≤ S.params.outCap := by
        simp only [container, List.length_append, length_be32, length_pack, ← htb.1]; omega
      obtain ⟨b1, b2⟩ := buffersOk_putOut hbu _ hl
      refine .inr ⟨_, hb, (congrArg Params.wf hpa).trans h.params, (hws.putOut (hpa ▸ hp) hl).encBits _ _, hid,
        ⟨hbu.1, b1, hbu.2.2.1, b2⟩, fun _ => outOk_putOut _ S, fun _ => hfs, fun _ => h5, hco, htb,
        statusOk_succeeded _ _ (bodyCompress_kept hb), ?_⟩
      change AbsentOk { putOut _ S with
        encBits := encBitsValue _ _ _, status := (Status.afterCompress (S.inLen == 0) S.status).succeeded }
      rw [hz]
      exact ⟨noAbsent, noAbsent, noAbsent, noAbsent, fun _ => hdo, noAbsent⟩

/-- DECOMPRESS, in a state with the invariant. -/
theorem decompress_inv {s : State} (lim : Bool) (h : Inv s) :
    EndsInInv (fun s1 f => f.afterDecompress (s1.tbc == 0)) (bodyDecompress lim) s := by
  have hp := Params.ok_of_wf h.params
  have hw : WidthsOk (beginCommand s) := h.widths
  rcases bodyParse_cases (clearCallState (beginCommand s)) with hb | hb | ⟨hin, h4, hcut, hcap, hb⟩
  · exact .inl ⟨_, andThen_raise hb⟩
  · exact .inl ⟨_, andThen_raise hb⟩
  · have hb' : bodyParse (clearCallState (beginCommand s)) = .ok (parsedOf (beginCommand s)) := hb
    have htb : TbitsOk (parsedOf (beginCommand s)) := tbitsOk_parsedOf (s := beginCommand s) hcut hcap
    have hwp : WidthsOk (parsedOf (beginCommand s)) := hw.clearCallState.parsed h4 hcut
    by_cases h0 : (parsedOf (beginCommand s)).tbc = 0
    · have hb : bodyDecompress lim (beginCommand s) = .ok { parsedOf (beginCommand s) with outLen := 0 } := by
        rw [bodyDecompress, andThen_ok hb', if_pos h0]
      have hz : ((parsedOf (beginCommand s)).tbc == 0) = true := by simpa using h0
      refine .inr ⟨_, hb, h.params, ⟨hwp.1, Nat.two_pow_pos _, hwp.2.2⟩, h.idle, h.buffers, fun _ i hi => absurd hi (by simp), (by intro h; cases h), ?_, codeOk_absent hp rfl, htb, statusOk_succeeded _ _ (bodyDecompress_kept hb),
        ⟨fun _ => ⟨rfl, rfl⟩, fun _ => ⟨rfl, rfl, rfl⟩, fun _ => rfl, noAbsent, noAbsent, noAbsent⟩⟩
      intro hv
      change (Status.afterDecompress ((parsedOf (beginCommand s)).tbc == 0) s.status.started.noneValid).treeValid = true at hv
      rw [hz] at hv; cases hv
    · cases hds : deserialize s.params (parsedOf (beginCommand s)).tbits with
      | none =>
        refine .inl ⟨.malformedContainer, ?_⟩
        rw [bodyDecompress, andThen_ok hb', if_neg h0]
        exact andThen_raise (by rw [bodyDeserialize, show deserialize (parsedOf (beginCommand s)).params (parsedOf (beginCommand s)).tbits = none from hds])
      | some u =>
        obtain ⟨t1, t2, _⟩ := putTree_preorder (s := parsedOf (beginCommand s)) hp hds htb.2
        change treeOperand (putTree (preorderRecords s.params u 0) 0 (parsedOf (beginCommand s))) = some u at t1
        have hb : bodyDecompress lim (beginCommand s) = bodyDecode lim (putTree (preorderRecords s.params u 0) 0 (parsedOf (beginCommand s))) := by
          rw [bodyDecompress, andThen_ok hb', if_neg h0]
          exact andThen_ok (by rw [bodyDeserialize, show deserialize (parsedOf (beginCommand s)).params (parsedOf (beginCommand s)).tbits = some u from hds]; rfl)
        rw [bodyDecode, withInput_le (by exact hin), withTree_eq t1] at hb
        simp only at hb
        generalize hw : walk u (walkedBits lim (inputBytes (putTree (preorderRecords s.params u 0) 0 (parsedOf (beginCommand s)))) (putTree (preorderRecords s.params u 0) 0 (parsedOf (beginCommand s)))) = out at hb
        by_cases hcap : out.length > s.params.outCap
        · exact .inl ⟨.capacity, hb.trans (if_pos hcap)⟩
        · have hb := hb.trans (if_neg hcap)
          obtain ⟨b1, b2⟩ := buffersOk_putOut h.buffers _ (Nat.not_lt.mp hcap)
          refine .inr ⟨_, hb, h.params, (hwp.putTree 0 (preorderRecords_weights hp u 0)).putOut hp (Nat.not_lt.mp hcap), h.idle, ⟨h.buffers.1, b1, h.buffers.2.2.1, b2⟩, fun _ => outOk_putOut _ _, (by intro h; cases h), fun _ => treeOk_congr t2 rfl rfl rfl rfl, codeOk_absent hp rfl, htb, statusOk_succeeded _ _ (bodyDecompress_kept hb),
            fun _ => ⟨rfl, rfl⟩, ?_, fun _ => rfl, noAbsent, noAbsent, noAbsent⟩
          intro hv
          change (!((parsedOf (beginCommand s)).tbc == 0)) = false at hv
          exact absurd (by simpa using hv) h0

/-- In a state with the invariant a ready command raises, or leaves a state with the invariant. -/
theorem body_inv {i : Instr} {ready flags body} (hc : commandOf i = some (ready, flags, body)) {s : State} (h : Inv s)
    (hr : ready s.status.started = true) :
    EndsInInv flags body s := by
  have hst : ∀ (u : State) (f : Status), Kept (beginCommand s) u → StatusOk { u with status := f.succeeded } := statusOk_succeeded
  have hp := Params.ok_of_wf h.params
  have hw : WidthsOk (beginCommand s) := h.widths
  obtain ⟨a1, a2, a3, a4, a5, a6⟩ := h.absent
  cases i <;> cases hc
  · exact .inr ⟨_, rfl, h.params, hw, h.idle, h.buffers, h.out, h.freq, h.tree, h.code, h.tbits, hst _ _ (by constructor <;> rfl), ⟨a1, a2, a3, a4, a5, a6⟩⟩
  · exact .inr ⟨_, rfl, h.params, hw.clearCallState, h.idle, h.buffers, (by intro h; cases h), (by intro h; cases h), (by intro h; cases h), codeOk_absent hp rfl, ⟨rfl, by simp [clearCallState]⟩, hst _ _ (clearCallState_kept _), absentOk_cleared _ _ _⟩
  · by_cases hin : s.params.inCap < s.inLen
    · exact .inl ⟨_, bodyCount_over (s := beginCommand s) hin⟩
    have hin := Nat.not_lt.mp hin
    exact .inr ⟨_, bodyCount_ok (s := beginCommand s) hin, h.params, hw.counted hp (bytes := inputBytes s) (by simpa using hin) (BitVec.ofNat 9 (symbolsUsed (histogram (inputBytes s)))), h.idle, h.buffers, h.out, fun _ => freqOk_histogram (s := s) hin rfl rfl rfl, h.tree, h.code, h.tbits, hst _ _ (by constructor <;> rfl), ⟨noAbsent, a2, a3, a4, a5, a6⟩⟩
  · have hf := h.freq (by simpa [Status.reqBuild, Status.started] using hr)
    by_cases hne : ∃ x, freqOf s.freq x ≠ 0
    · obtain ⟨u, vs, h1, h2, h3, h4, h5, h6, _⟩ := buildTree_spec hp s.freq hne
      have hpt := putTree_ok (s := beginCommand s) h1 h2 h4 (serialize_fits hp (by have := u.size_eq; have := alphabet_length_le (freqOf s.freq); omega)) h6
      exact .inr ⟨_, bodyBuild_ok (s := beginCommand s) hne, h.params, hw.putTree (buildRecords s.params s.freq).2 (buildRecords_weights hp hf.1), h.idle, h.buffers, h.out, h.freq, fun _ => hpt.2, h.code, h.tbits, hst _ _ (by constructor <;> rfl), ⟨a1, noAbsent, a3, a4, a5, a6⟩⟩
    · exact .inl ⟨_, bodyBuild_raise (s := beginCommand s) (by simpa using hne)⟩
  · have ht := h.tree (by simpa [Status.reqGencode, Status.started] using hr)
    obtain ⟨u, hu, _⟩ := id ht
    have hb := bodyGencode_ok (s := beginCommand s) hu
    exact .inr ⟨_, hb, h.params, hw, h.idle, h.buffers, h.out, h.freq, h.tree, codeOk_table u hp (treeOk_tree ht hu).2 rfl, h.tbits, hst _ _ (by constructor <;> rfl), ⟨a1, a2, noAbsent, a4, a5, a6⟩⟩
  · have ht := h.tree (by simpa [Status.reqSerialize, Status.started] using hr)
    obtain ⟨u, hu, _⟩ := id ht
    have hb := bodySerialize_ok (s := beginCommand s) hu
    exact .inr ⟨_, hb, h.params, hw, h.idle, h.buffers, h.out, h.freq, h.tree, h.code, ⟨rfl, (treeOk_tree ht hu).2⟩, hst _ _ (by constructor <;> rfl), ⟨a1, a2, a3, noAbsent, a5, a6⟩⟩
  · by_cases hcap : ceil8 s.tbc > s.params.outCap
    · exact .inl ⟨.capacity, by rw [bodyPack, if_pos (by exact hcap)]⟩
    · have hl : (pack s.tbits).length ≤ s.params.outCap := by rw [length_pack, ← h.tbits.1]; omega
      refine .inr ⟨putOut (pack s.tbits) (beginCommand s), by rw [bodyPack, if_neg (by exact hcap)]; rfl, h.params, hw.putOut hp hl, h.idle, ?_, fun _ => outOk_putOut _ _, h.freq, h.tree, h.code, h.tbits, hst _ _ (by constructor <;> rfl), ⟨a1, a2, a3, a4, a5, noAbsent⟩⟩
      obtain ⟨b1, b2⟩ := buffersOk_putOut h.buffers _ hl
      exact ⟨h.buffers.1, b1, h.buffers.2.2.1, b2⟩
  · by_cases hin : s.params.inCap < s.inLen
    · exact .inl ⟨_, bodyUnpack_over (s := beginCommand s) hin⟩
    have hin : (beginCommand s).inLen ≤ (beginCommand s).params.inCap := Nat.not_lt.mp hin
    by_cases hcap : 8 * s.inLen > s.params.tbitsCap
    · exact .inl ⟨.capacity, by rw [bodyUnpack, withInput_le hin, if_pos (by exact hcap)]⟩
    · refine .inr ⟨putTbits (unpack (inputBytes s)) (beginCommand s), by rw [bodyUnpack, withInput_le hin, if_neg (by exact hcap)]; rfl, h.params, hw, h.idle, h.buffers, h.out, h.freq, h.tree, h.code, ⟨?_, ?_⟩, hst _ _ (by constructor <;> rfl), ⟨a1, a2, a3, noAbsent, a5, a6⟩⟩
      · rfl
      · simp only [putTbits, length_unpack, length_inputBytes]; exact Nat.not_lt.mp hcap
  · by_cases hin : s.params.inCap < s.inLen
    · exact .inl ⟨_, bodyEmit_over (s := beginCommand s) hin⟩
    have hin : (beginCommand s).inLen ≤ (beginCommand s).params.inCap := Nat.not_lt.mp hin
    cases he : encodeBytes (codeOf s.code) (inputBytes s) with
    | none => exact .inl ⟨.missingCode, by rw [bodyEmit, withInput_le hin]; rw [show encodeBytes (codeOf (beginCommand s).code) (inputBytes (beginCommand s)) = none from he]⟩
    | some enc =>
      have hb := bodyEmit_eq hin he
      by_cases hcap : 4 + ceil8 s.tbc + ceil8 enc.length > s.params.outCap
      · exact .inl ⟨.capacity, by rw [hb, if_pos (by exact hcap)]⟩
      · rw [if_neg (by exact hcap)] at hb
        have hl : (container (lengthWord s.tick s.tbc) s.tbits enc).length ≤ s.params.outCap := by
          simp only [container, List.length_append, length_be32, length_pack, ← h.tbits.1]; omega
        obtain ⟨b1, b2⟩ := buffersOk_putOut h.buffers _ hl
        exact .inr ⟨_, hb, h.params, (hw.putOut hp hl).encBits _ _, h.idle, ⟨h.buffers.1, b1, h.buffers.2.2.1, b2⟩, fun _ => outOk_putOut _ _, h.freq, h.tree, h.code, h.tbits, hst _ _ (by constructor <;> rfl), ⟨a1, a2, a3, a4, a5, noAbsent⟩⟩
  · rcases bodyParse_cases (beginCommand s) with hb | hb | ⟨hin, h4, hcut, hcap, hb⟩
    · exact .inl ⟨_, hb⟩
    · exact .inl ⟨_, hb⟩
    · exact .inr ⟨_, hb, h.params, hw.parsed h4 hcut, h.idle, h.buffers, h.out, h.freq, h.tree, h.code, tbitsOk_parsedOf hcut hcap, hst _ _ (by constructor <;> rfl), ⟨a1, a2, a3, noAbsent, noAbsent, a6⟩⟩
  · cases hd : deserialize s.params s.tbits with
    | none => exact .inl ⟨.malformedContainer, by rw [bodyDeserialize]; rw [show deserialize (beginCommand s).params (beginCommand s).tbits = none from hd]⟩
    | some u =>
      obtain ⟨t1, t2, _⟩ := putTree_preorder (s := beginCommand s) hp hd h.tbits.2
      exact .inr ⟨putTree (preorderRecords s.params u 0) 0 (beginCommand s), by rw [bodyDeserialize]; rw [show deserialize (beginCommand s).params (beginCommand s).tbits = some u from hd]; rfl, h.params, hw.putTree 0 (preorderRecords_weights hp u 0), h.idle, h.buffers, h.out, h.freq, fun _ => t2, h.code, h.tbits, hst _ _ (by constructor <;> rfl), ⟨a1, noAbsent, a3, a4, a5, a6⟩⟩
  · rename_i lim
    have ht := h.tree (by simp [Status.reqDecode, Status.started] at hr; exact hr.1)
    obtain ⟨u, hu, _⟩ := id ht
    by_cases hin : s.params.inCap < s.inLen
    · exact .inl ⟨_, bodyDecode_over (s := beginCommand s) hin⟩
    have hin : (beginCommand s).inLen ≤ (beginCommand s).params.inCap := Nat.not_lt.mp hin
    have hb : bodyDecode lim (beginCommand s) = if (walk u (walkedBits lim (inputBytes s) (beginCommand s))).length > s.params.outCap then .raise .capacity
        else .ok (putOut (walk u (walkedBits lim (inputBytes s) (beginCommand s))) (beginCommand s)) := by
      rw [bodyDecode, withInput_le hin, withTree_eq (s := beginCommand s) (t := u) hu]; rfl
    by_cases hcap : (walk u (walkedBits lim (inputBytes s) (beginCommand s))).length > s.params.outCap
    · exact .inl ⟨.capacity, by rw [hb, if_pos hcap]⟩
    · rw [if_neg hcap] at hb
      obtain ⟨b1, b2⟩ := buffersOk_putOut h.buffers _ (Nat.not_lt.mp hcap)
      exact .inr ⟨_, hb, h.params, hw.putOut hp (Nat.not_lt.mp hcap), h.idle, ⟨h.buffers.1, b1, h.buffers.2.2.1, b2⟩, fun _ => outOk_putOut _ _, h.freq, h.tree, h.code, h.tbits, hst _ _ (by constructor <;> rfl), ⟨a1, a2, a3, a4, a5, noAbsent⟩⟩
  · exact compress_inv h
  · exact decompress_inv _ h

/-- A command word decodes to a command. -/
theorem isCommand_of_decodeCmd {w : Word} {i : Instr} (h : decodeCmd w = .ok i) : i.isCommand = true := by
  have := encode_of_decodeCmd h
  cases i <;> first | rfl | cases this

/-- The invariant is about these fields. -/
theorem inv_congr {s t : State} (h : Inv s) (h0 : t.params = s.params) (hw : WidthsOk t) (h1 : t.deser = none) (h2 : BuffersOk t) (h3 : t.outMem = s.outMem) (h4 : t.outLen = s.outLen)
    (h5 : t.freq = s.freq) (h6 : t.symCount = s.symCount) (h7 : t.node = s.node) (h8 : t.nodeCount = s.nodeCount) (h9 : t.root = s.root)
    (h10 : t.code = s.code) (h11 : t.tbits = s.tbits) (h12 : t.tbc = s.tbc) (h13 : t.status = s.status) (h14 : t.errcode = s.errcode)
    (h15 : t.dataOff = s.dataOff) (h16 : t.encBits = s.encBits) : Inv t := by
  refine ⟨h0 ▸ h.params, hw, h1, h2, ?_, ?_, ?_, ?_, ?_, ?_, ?_⟩
  · rw [h13]; intro hv; have := h.out hv; simpa [OutOk, h3, h4] using this
  · rw [h13]; intro hv; have := h.freq hv; simpa [FreqOk, h0, h5, h6] using this
  · rw [h13]; intro hv; exact treeOk_congr (h.tree hv) h0 h7 h8 h9
  · have := h.code; simpa [CodeOk, h0, h10] using this
  · have := h.tbits; simpa [TbitsOk, h0, h11, h12] using this
  · have := h.status; simpa [StatusOk, h13, h14] using this
  · have := h.absent; simpa only [AbsentOk, h0, h4, h5, h6, h7, h8, h9, h10, h11, h12, h13, h15, h16] using this

/-- A host transaction that starts no command keeps the parameters, a reset too. -/
theorem hostAccess_params {x : Txn} {s t : State} (hs : hostAccess x s = .next t) : t.params = s.params := by
  cases x with
  | writeIn i b => simp only [hostAccess] at hs; split at hs <;> cases hs; rfl
  | writeReg size off v =>
    simp only [hostAccess, regAccess] at hs
    split at hs
    · cases hs
    · split at hs <;> cases hs
      split
      · rfl
      · rename_i r _; rcases writeReg_cases s v r with ⟨_, h⟩ | ⟨n, h⟩ | h <;> rw [h]
  | readReg size off =>
    simp only [hostAccess, regAccess] at hs
    split at hs
    · cases hs
    · split at hs <;> cases hs
      split <;> rfl
  | readOut i => cases hs; rfl
  | reset => cases hs; rfl

/-- A host transaction that starts no command keeps the invariant. -/
theorem hostAccess_inv {x : Txn} {s t : State} (hreset : Inv (State.resetWith s.params)) (h : Inv s) (hs : hostAccess x s = .next t) : Inv t := by
  have hp := Params.ok_of_wf h.params
  cases x with
  | writeIn i b =>
    simp only [hostAccess] at hs
    split at hs
    · rename_i hlt
      cases hs
      refine inv_congr h rfl h.widths h.idle ⟨Memory.wf_write h.buffers.1 _ _, h.buffers.2.1, ?_, h.buffers.2.2.2⟩ rfl rfl rfl rfl rfl rfl rfl rfl rfl rfl rfl rfl rfl rfl
      intro c hc
      rcases Memory.mem_write hc with rfl | hm
      · exact hlt
      · exact h.buffers.2.2.1 c hm
    · cases hs
  | writeReg size off v =>
    simp only [hostAccess, regAccess] at hs
    split at hs
    · cases hs
    · split at hs
      · cases hs
      · cases hs
        split
        · exact h
        · rename_i r _
          rcases writeReg_cases s v r with ⟨_, hr⟩ | ⟨n, hr⟩ | hr <;> rw [hr]
          · exact inv_congr h rfl (h.widths.inLen _) h.idle h.buffers rfl rfl rfl rfl rfl rfl rfl rfl rfl rfl rfl rfl rfl rfl
          · exact inv_congr h rfl (h.widths.dataLimit _) h.idle h.buffers rfl rfl rfl rfl rfl rfl rfl rfl rfl rfl rfl rfl rfl rfl
          · exact h
  | readReg size off =>
    simp only [hostAccess, regAccess] at hs
    split at hs
    · cases hs
    · split at hs
      · cases hs
      · cases hs
        split <;> exact inv_congr h rfl h.widths h.idle h.buffers rfl rfl rfl rfl rfl rfl rfl rfl rfl rfl rfl rfl rfl rfl
  | readOut i =>
    cases hs
    exact inv_congr h rfl h.widths h.idle h.buffers rfl rfl rfl rfl rfl rfl rfl rfl rfl rfl rfl rfl rfl rfl
  | reset =>
    cases hs
    exact inv_congr hreset rfl hreset.widths rfl hreset.buffers rfl rfl rfl rfl rfl rfl rfl rfl rfl rfl rfl rfl rfl rfl

end Sys2Proof.Machine
end

