-- ==== Sys2Proof/Laws/PerInstr.lean ====
section
/-! SUPPORT. One lemma per instruction: decoding its encoding gives it back (30_encoding.md R81, R86). -/

namespace Sys2Proof.Laws.EncodeDecode

open Sys2Proof Sys2Proof.Machine

/-- The encoding of `i` decodes to `i`. -/
def Statement (i : Instr) : Prop := Sys2Proof.decode (Sys2Proof.encode i) = .ok i

theorem nop : Statement Instr.nop := decode_encode _
theorem clear : Statement Instr.clear := decode_encode _
theorem count : Statement Instr.count := decode_encode _
theorem build : Statement Instr.build := decode_encode _
theorem gencode : Statement Instr.gencode := decode_encode _
theorem serialize : Statement Instr.serialize := decode_encode _
theorem pack : Statement Instr.pack := decode_encode _
theorem unpack : Statement Instr.unpack := decode_encode _
theorem emit : Statement Instr.emit := decode_encode _
theorem parse : Statement Instr.parse := decode_encode _
theorem deserialize : Statement Instr.deserialize := decode_encode _
theorem decode (lim : Bool) : Statement (Instr.decode lim) := decode_encode _
theorem compress : Statement Instr.compress := decode_encode _
theorem decompress (lim : Bool) : Statement (Instr.decompress lim) := decode_encode _
theorem treeTokenLeaf (symbol : Byte) : Statement (Instr.treeTokenLeaf symbol) := decode_encode _
theorem treeTokenInternal : Statement Instr.treeTokenInternal := decode_encode _

end Sys2Proof.Laws.EncodeDecode
end

