-- ==== Sys2Proof/Laws/Tokens.lean ====
section
/-! SUPPORT. Laws of the tree tokens (Machine/TreeCodec.lean): one node read, and a whole subtree read token by token (44_tree_codec.md R150, R154). -/

namespace Sys2Proof.Machine

/-- A node with room for its record. -/
theorem placeNode_ok {record : Node} {below : List Slot} {c : DeserCtx} {s : State} (h : s.nodeCount < s.params.nodeCap) :
    placeNode record below c s =
      (match below ++ c.rest with
      | [] => finishDeserialize { fillSlot c.slot s.nodeCount s with
          node := (fillSlot c.slot s.nodeCount s).node.set s.nodeCount record
          nodeCount := s.nodeCount + 1 }
      | slot :: rest => { fillSlot c.slot s.nodeCount s with
          node := (fillSlot c.slot s.nodeCount s).node.set s.nodeCount record
          nodeCount := s.nodeCount + 1
          deser := some ⟨c.bits, slot, rest⟩ }) := by
  unfold placeNode
  exact if_pos h

/-- A node without room. -/
theorem placeNode_fail {record : Node} {below : List Slot} {c : DeserCtx} {s : State} (h : s.params.nodeCap ≤ s.nodeCount) :
    placeNode record below c s = failDeserialize s := by
  rw [placeNode, if_neg (by omega)]

/-- Filling a place, as an update of two fields. -/
theorem fillSlot_fields (slot : Slot) (i : Nat) (s : State) :
    fillSlot slot i s = { s with node := (fillSlot slot i s).node, root := (fillSlot slot i s).root } := by
  cases slot <;> simp only [fillSlot] <;> try split <;> rfl

@[simp] theorem fillSlot_node_length (slot : Slot) (i : Nat) (s : State) : (fillSlot slot i s).node.length = s.node.length := by
  cases slot <;> simp only [fillSlot] <;> try split <;> simp

/-- Which record, and the root, a filled place changes. -/
theorem fillSlot_node_other (slot : Slot) (i : Nat) (s : State) (j : Nat) (h1 : slot ≠ .left j)
    (h2 : slot ≠ .right j) : (fillSlot slot i s).node[j]? = s.node[j]? := by
  cases slot with
  | root => rfl
  | left p =>
    have : p ≠ j := by rintro rfl; simp at h1
    simp only [fillSlot]; split
    · simp only [List.getElem?_set]; rw [if_neg this]
    · rfl
  | right p =>
    have : p ≠ j := by rintro rfl; simp at h2
    simp only [fillSlot]; split
    · simp only [List.getElem?_set]; rw [if_neg this]
    · rfl

/-- Filling a left place. -/
theorem fillSlot_left {s : State} {p l r w : Nat} (i : Nat) (h : s.node[p]? = some (.internal w l r)) :
    fillSlot (.left p) i s = { s with node := s.node.set p (.internal w i r) } := by
  simp only [fillSlot, h]

/-- Filling a right place. -/
theorem fillSlot_right {s : State} {p l r w : Nat} (i : Nat) (h : s.node[p]? = some (.internal w l r)) :
    fillSlot (.right p) i s = { s with node := s.node.set p (.internal w l i) } := by
  simp only [fillSlot, h]

/-- What one node read does to node memory and `ROOT`. -/
theorem token_node {s : State} {slot : Slot} {record : Node} (h : s.nodeCount < s.params.nodeCap)
    (hlen : s.node.length = s.params.nodeCap) :
    ((fillSlot slot s.nodeCount s).node.set s.nodeCount record)[s.nodeCount]? = some record ∧
    (slot = .root → (fillSlot slot s.nodeCount s).root = s.nodeCount) ∧
    (∀ (p l r w : Nat), slot = .left p → p < s.nodeCount →
      s.node[p]? = some (.internal w l r) →
      ((fillSlot slot s.nodeCount s).node.set s.nodeCount record)[p]? = some (.internal w s.nodeCount r) ∧ (fillSlot slot s.nodeCount s).root = s.root) ∧
    (∀ (p l r w : Nat), slot = .right p → p < s.nodeCount →
      s.node[p]? = some (.internal w l r) →
      ((fillSlot slot s.nodeCount s).node.set s.nodeCount record)[p]? = some (.internal w l s.nodeCount) ∧ (fillSlot slot s.nodeCount s).root = s.root) ∧
    (∀ i, i ≠ s.nodeCount → slot ≠ .left i → slot ≠ .right i →
      ((fillSlot slot s.nodeCount s).node.set s.nodeCount record)[i]? = s.node[i]?) := by
  refine ⟨?_, ?_, ?_, ?_, ?_⟩
  · rw [List.getElem?_set_self (by rw [fillSlot_node_length]; omega)]
  · rintro rfl; rfl
  · rintro p l r w rfl hp hn
    rw [fillSlot_left _ hn]
    simp only [List.getElem?_set]
    rw [if_neg (by omega)]; simp; omega
  · rintro p l r w rfl hp hn
    rw [fillSlot_right _ hn]
    simp only [List.getElem?_set]
    rw [if_neg (by omega)]; simp; omega
  · intro i hi h1 h2
    rw [List.getElem?_set, if_neg (Ne.symm hi)]
    exact fillSlot_node_other _ _ _ _ h1 h2

/-- Filling a place keeps the parameters. -/
theorem fillSlot_params (slot : Slot) (i : Nat) (s : State) : (fillSlot slot i s).params = s.params := by
  cases slot <;> simp only [fillSlot] <;> split <;> rfl

/-- A LEAF token of a deserialization in progress. -/
theorem execLeaf_eq {s : State} {c : DeserCtx} (x : Byte) (h : s.deser = some c) :
    exec (.treeTokenLeaf x) s = .next (placeNode (.leaf s.params.deserWeight x) [] c s) := by
  simp only [exec, execTreeTokenLeaf, currentDeser, h]

/-- An INTERNAL token of one. -/
theorem execInternal_eq {s : State} {c : DeserCtx} (h : s.deser = some c) :
    exec .treeTokenInternal s = .next (placeNode (.internal s.params.deserWeight 0 0)
      [.left s.nodeCount, .right s.nodeCount] c s) := by
  simp only [exec, execTreeTokenInternal, currentDeser, h]

/-- `records` written over the table from index `n` on. -/
def overwrite (v : List Node) (n : Nat) (records : List Node) : List Node :=
  listFrom (fun j => if n ≤ j ∧ j < n + records.length then records.getD (j - n) Node.zero else v.getD j Node.zero) 0 v.length

/-- The state once a whole subtree has been read into the place `slot`. -/
def afterSubtree (t : Tree) (bits : BitSeq) (slot : Slot) (rest : List Slot) (s : State) : State :=
  let s1 := fillSlot slot s.nodeCount s
  let s2 := { s1 with
    node := overwrite s1.node s.nodeCount (preorderRecords s.params t s.nodeCount)
    nodeCount := s.nodeCount + t.size }
  match rest with
  | [] => finishDeserialize s2
  | q :: qs => { s2 with deser := some ⟨bits, q, qs⟩ }

/-- A record of the overwritten table. -/
theorem overwrite_getElem? (v : List Node) (n : Nat) (recs : List Node) (j : Nat) (hj : j < v.length) :
    (overwrite v n recs)[j]? = if n ≤ j ∧ j < n + recs.length then recs[j - n]? else v[j]? := by
  rw [overwrite, listFrom_getElem?, if_pos hj, Nat.zero_add]
  split
  · rename_i h
    rw [List.getD_eq_getElem?_getD, List.getElem?_eq_getElem (by omega)]; rfl
  · simp [List.getD_eq_getElem?_getD, hj]

@[simp] theorem overwrite_length (v : List Node) (n : Nat) (records : List Node) : (overwrite v n records).length = v.length :=
  listFrom_length ..

/-- Node memories of one size with equal records are equal. -/
theorem node_ext {v w : List Node} (hl : v.length = w.length) (h : ∀ j, j < v.length → v[j]? = w[j]?) : v = w := by
  apply List.ext_getElem?
  intro j
  by_cases hj : j < v.length
  · exact h j hj
  · rw [List.getElem?_eq_none (by omega), List.getElem?_eq_none (by omega)]

/-- Overwriting with one record. -/
theorem overwrite_one (v : List Node) (n : Nat) (x : Node) :
    overwrite v n [x] = v.set n x := by
  apply node_ext (by simp)
  intro j hj
  rw [overwrite_length] at hj
  rw [overwrite_getElem? _ _ _ _ hj, List.getElem?_set]
  by_cases h : n = j
  · subst h; simp [hj]
  · rw [if_neg (by simp; omega), if_neg h]

/-- Failing forgets whatever the construction holds. -/
theorem failDeserialize_placed (s : State) (slot : Slot) (i : Nat) (n : List Node) (k : Nat) (d : Option DeserCtx) :
    failDeserialize { fillSlot slot i s with node := n, nodeCount := k, deser := d } = failDeserialize s := by
  rw [fillSlot_fields]; rfl

/-- With no deserialization in progress there is nothing to run. -/
theorem runTokens_none {k : Nat} {s : State} (h : s.deser = none) : runTokens k s = .next s := by
  cases k <;> simp [runTokens, h]

/-- After a failure there is nothing to run. -/
theorem runTokens_fail (s : State) (k : Nat) : runTokens k (failDeserialize s) = .next (failDeserialize s) :=
  runTokens_none rfl

/-- One token, then the rest. -/
theorem runTokens_step {k : Nat} {s t : State} {c : DeserCtx} (h : s.deser = some c) (hs : step s = .next t) :
    runTokens (k + 1) s = runTokens k t := by
  simp only [runTokens, h, hs]

/-- A step of a deserialization in progress. -/
theorem step_token {s : State} {c : DeserCtx} (h : s.deser = some c) : step s =
    match decodeToken c.bits with
    | .ok (i, bits) => exec i { s with deser := some { c with bits := bits } }
    | .error _ => .next (failDeserialize s) := by
  simp only [step, fetch, h, fetchToken]
  cases decodeToken c.bits with
  | error e => rfl
  | ok x => rfl

/-- Tokens are consumed one after another exactly as `deser` consumes them: a whole subtree goes into its place, and a
failure, of the bits or of the room for records, is MalformedContainer. -/
theorem runTokens_subtree (f : Nat) : ∀ (bits : BitSeq) (s : State) (slot : Slot) (rest : List Slot) (k : Nat),
    bits.length ≤ f → s.deser = some ⟨bits, slot, rest⟩ → s.node.length = s.params.nodeCap →
    s.nodeCount ≤ s.params.nodeCap → bits.length + 1 ≤ k →
    match deser s.params f bits with
    | none => runTokens k s = .next (failDeserialize s)
    | some (t, bits') =>
      (s.nodeCount + t.size ≤ s.params.nodeCap → runTokens k s = runTokens (k - t.size) (afterSubtree t bits' slot rest s)) ∧
        (s.params.nodeCap < s.nodeCount + t.size → runTokens k s = .next (failDeserialize s)) := by
  induction f with
  | zero =>
    intro bits s slot rest k hb hd hlen hn hk
    have : bits = [] := List.length_eq_zero_iff.mp (by omega)
    subst this
    obtain ⟨k, rfl⟩ : ∃ m, k = m + 1 := ⟨k - 1, by omega⟩
    simp only [deser]
    rw [runTokens_step hd (by rw [step_token hd]; rfl), runTokens_fail]
  | succ f ih =>
    intro bits s slot rest k hb hd hlen hn hk
    obtain ⟨k, rfl⟩ : ∃ m, k = m + 1 := ⟨k - 1, by omega⟩
    cases bits with
    | nil =>
      simp only [deser]
      rw [runTokens_step hd (by rw [step_token hd]; rfl), runTokens_fail]
    | cons b bits =>
    simp only [List.length_cons] at hb hk
    cases b with
    | true =>
      by_cases h8 : bits.length < 8
      · simp only [deser, if_pos h8]
        have hs : step s = .next (failDeserialize s) := by rw [step_token hd]; simp only [decodeToken, if_pos h8]
        rw [runTokens_step hd hs, runTokens_fail]
      · simp only [deser, if_neg h8, Tree.size]
        have hs : step s = .next (placeNode (.leaf s.params.deserWeight (BitVec.ofNat 8 (val (bits.take 8)))) []
            ⟨bits.drop 8, slot, rest⟩ { s with deser := some ⟨bits.drop 8, slot, rest⟩ }) := by
          rw [step_token hd]; simp only [decodeToken, if_neg h8]
          exact execLeaf_eq _ rfl
        rw [runTokens_step hd hs]
        constructor
        · intro hroom
          have hlt : s.nodeCount < s.params.nodeCap := by omega
          rw [placeNode_ok (by exact hlt)]
          simp only [List.nil_append, Nat.add_sub_cancel, afterSubtree, preorderRecords, Tree.size]
          rw [overwrite_one]
          have e : fillSlot slot s.nodeCount { s with deser := some ⟨bits.drop 8, slot, rest⟩ } =
              { fillSlot slot s.nodeCount s with deser := some ⟨bits.drop 8, slot, rest⟩ } := by
            cases slot <;> simp only [fillSlot] <;> try split <;> rfl
          rw [e]
          cases rest <;> rfl
        · intro hroom
          rw [placeNode_fail (s := { s with deser := some _ }) (by simp only; omega)]
          exact runTokens_fail s k
    | false =>
      have hs : step s = .next (placeNode (.internal s.params.deserWeight 0 0)
            [.left s.nodeCount, .right s.nodeCount]
            ⟨bits, slot, rest⟩ { s with deser := some ⟨bits, slot, rest⟩ }) := by
          rw [step_token hd]; simp only [decodeToken]
          exact execInternal_eq rfl
      by_cases hroom : s.nodeCount < s.params.nodeCap
      · rw [placeNode_ok (by exact hroom)] at hs
        have e : fillSlot slot s.nodeCount { s with deser := some ⟨bits, slot, rest⟩ } =
              { fillSlot slot s.nodeCount s with deser := some ⟨bits, slot, rest⟩ } := by
            cases slot <;> simp only [fillSlot] <;> try split <;> rfl
        simp only [List.cons_append, List.nil_append] at hs
        rw [e] at hs
        simp only at hs
        generalize hs1 : fillSlot slot s.nodeCount s = s1 at hs
        generalize hs2 : ({ s1 with node := s1.node.set s.nodeCount (.internal s.params.deserWeight 0 0), nodeCount := s.nodeCount + 1, deser := some ⟨bits, .left s.nodeCount, .right s.nodeCount :: rest⟩ } : State) = s2 at hs
        have hf2 : failDeserialize s2 = failDeserialize s := by
          rw [← hs2, ← hs1]; exact failDeserialize_placed ..
        have hn2 : s2.nodeCount = s.nodeCount + 1 := by
          rw [← hs2]
        have hd2 : s2.deser = some ⟨bits, .left s.nodeCount, .right s.nodeCount :: rest⟩ := by
          rw [← hs2]
        have hp2 : s2.params = s.params := by rw [← hs2, ← hs1]; exact fillSlot_params ..
        have hl1 : s1.node.length = s.params.nodeCap := by rw [← hs1]; simpa using hlen
        have hl2 : s2.node.length = s2.params.nodeCap := by
          rw [hp2, ← hs2, ← hs1]; simpa using hlen
        have h1 := ih bits s2 _ _ k (by omega) hd2 hl2 (by rw [hp2]; omega) (by omega)
        rw [hp2] at h1
        rw [runTokens_step hd hs]
        simp only [deser]
        cases hl : deser s.params f bits with
        | none => rw [hl] at h1; simp only at h1 ⊢; rw [h1, hf2]
        | some x =>
          obtain ⟨l, b1⟩ := x
          rw [hl] at h1
          simp only at h1 ⊢
          obtain ⟨eb, _⟩ := serialize_of_deser hl
          have hsz := size_le_length_serialize l
          have hblen : bits.length = (serialize l).length + b1.length := by rw [eb]; simp
          by_cases hrl : s2.nodeCount + l.size ≤ s.params.nodeCap
          · rw [h1.1 hrl]
            generalize hs3 : afterSubtree l b1 (.left s.nodeCount) (.right s.nodeCount :: rest) s2 = s3
            rw [hp2] at hl2
            have hnode2 : s2.node[s.nodeCount]? = some (.internal s.params.deserWeight 0 0) := by
              rw [← hs2, ← hs1]; simp [hlen, hroom]
            have hs3' : s3 = { s2 with
                node := overwrite (s2.node.set s.nodeCount (.internal s.params.deserWeight (s.nodeCount + 1) 0)) (s.nodeCount + 1) (preorderRecords s.params l (s.nodeCount + 1))
                nodeCount := s.nodeCount + 1 + l.size
                deser := some ⟨b1, .right s.nodeCount, rest⟩ } := by
              rw [← hs3, afterSubtree, fillSlot_left _ hnode2]
              simp only [hn2, hp2]
            have hn3 : s3.nodeCount = s.nodeCount + 1 + l.size := by
              rw [hs3']
            have hd3 : s3.deser = some ⟨b1, .right s.nodeCount, rest⟩ := by rw [hs3']
            have hf3 : failDeserialize s3 = failDeserialize s := by rw [hs3', ← hf2]; rfl
            have hp3 : s3.params = s.params := by rw [hs3']; exact hp2
            have hl3 : s3.node.length = s3.params.nodeCap := by rw [hp3, hs3']; simpa using hl2
            have h2 := ih b1 s3 _ _ (k - l.size) (by omega) hd3 hl3 (by rw [hp3]; omega) (by omega)
            rw [hp3] at h2 hl3
            cases hr : deser s.params f b1 with
            | none => rw [hr] at h2; simp only at h2 ⊢; rw [h2, hf3]
            | some y =>
              obtain ⟨r, b2⟩ := y
              rw [hr] at h2
              simp only [Tree.size] at h2 ⊢
              by_cases hrr : s3.nodeCount + r.size ≤ s.params.nodeCap
              · refine ⟨fun _ => ?_, fun h => by omega⟩
                rw [h2.1 hrr, show k + 1 - (1 + l.size + r.size) = k - l.size - r.size by omega]
                congr 1
                have hnode3 : s3.node[s.nodeCount]? = some (.internal s.params.deserWeight (s.nodeCount + 1) 0) := by
                  rw [hs3']
                  simp only
                  rw [overwrite_getElem? _ _ _ _ (by simp; omega), if_neg (by omega), List.getElem?_set_self (by omega)]
                simp only [afterSubtree, fillSlot_right _ hnode3, hn3, hs1]
                have hnode : overwrite (s3.node.set s.nodeCount
                    (.internal s.params.deserWeight (s.nodeCount + 1) (s.nodeCount + 1 + l.size)))
                    (s.nodeCount + 1 + l.size) (preorderRecords s3.params r (s.nodeCount + 1 + l.size)) =
                    overwrite s1.node s.nodeCount (preorderRecords s.params (.internal s.params.deserWeight l r) s.nodeCount) := by
                  apply node_ext (by simp; omega)
                  intro j hj
                  have hj : j < s.params.nodeCap := by simpa [hl3] using hj
                  rw [hp3, overwrite_getElem? _ _ _ _ (by simp; omega), overwrite_getElem? _ _ _ _ (by omega),
                    List.getElem?_set, hs3']
                  simp only
                  rw [overwrite_getElem? _ _ _ _ (by simp; omega), List.getElem?_set, ← hs2]
                  simp only
                  rw [List.getElem?_set]
                  simp only [preorderRecords, List.length_cons, List.length_append, preorderRecords_length]
                  rcases Nat.lt_trichotomy j s.nodeCount with hlt | rfl | hgt
                  · repeat rw [if_neg (by omega)]
                  · rw [if_neg (by omega), if_pos rfl, if_pos (by simp; omega), if_pos (by omega)]; simp
                  · by_cases hjl : j < s.nodeCount + 1 + l.size
                    · rw [if_neg (by omega), if_neg (by omega), if_pos (by omega), if_pos (by omega)]
                      obtain ⟨m, rfl⟩ : ∃ m, j = s.nodeCount + 1 + m := ⟨j - (s.nodeCount + 1), by omega⟩
                      rw [show s.nodeCount + 1 + m - s.nodeCount = m + 1 by omega, List.getElem?_cons_succ,
                        List.getElem?_append_left (by rw [preorderRecords_length]; omega)]
                      congr 1; omega
                    · by_cases hjr : j < s.nodeCount + 1 + l.size + r.size
                      · rw [if_pos (by omega), if_pos (by omega)]
                        obtain ⟨m, rfl⟩ : ∃ m, j = s.nodeCount + 1 + l.size + m := ⟨j - (s.nodeCount + 1 + l.size), by omega⟩
                        rw [show s.nodeCount + 1 + l.size + m - s.nodeCount = (l.size + m) + 1 by omega, List.getElem?_cons_succ,
                          List.getElem?_append_right (by rw [preorderRecords_length]; omega), preorderRecords_length]
                        congr 1; omega
                      · repeat rw [if_neg (by omega)]
                rw [hnode, hs3', ← hs2]
                simp only [Tree.size]
                rw [show s.nodeCount + 1 + l.size + r.size = s.nodeCount + (1 + l.size + r.size) by omega]
                cases rest <;> rfl
              · refine ⟨fun h => by omega, fun _ => ?_⟩
                rw [h2.2 (by omega), hf3]
          · rw [h1.2 (by omega), hf2]
            cases hr : deser s.params f b1 with
            | none => rfl
            | some y =>
              simp only [Tree.size]
              exact ⟨fun h => by omega, fun _ => trivial⟩
      · have hfail : step s = .next (failDeserialize s) := by
          rw [hs, placeNode_fail (s := { s with deser := some _ }) (by simp only; omega)]; rfl
        rw [runTokens_step hd hfail, runTokens_fail]
        cases hdz : deser s.params (f + 1) (false :: bits) with
        | none => rfl
        | some x =>
          simp only
          have := x.1.size_pos
          exact ⟨fun h => by omega, fun _ => trivial⟩

end Sys2Proof.Machine
end

