-- ==== Sys2Proof/Tests/Slice0.lean ====
section
/-! SUPPORT. Tests: words written out from the spec's encoding tables, ill-formed terms the checks refuse, single
commands with the results of spec/95_test_vectors.md, and for every statement a state and operands that meet its
hypotheses. -/

namespace Sys2Proof.Tests

open Sys2Proof Sys2Proof.Machine

/-! ## Words (30_encoding.md R80, R81, R86; spec/opcode_table.json) -/

theorem test_decode_nop : decodeTableWord 32 0b00000000000000000000000000000000 = some .nop := by decide
theorem test_decode_clear : decodeTableWord 32 0b00000000000000000000000000000001 = some .clear := by decide
theorem test_decode_count : decodeTableWord 32 0b00000000000000000000000000000010 = some .count := by decide
theorem test_decode_build : decodeTableWord 32 0b00000000000000000000000000000011 = some .build := by decide
theorem test_decode_gencode : decodeTableWord 32 0b00000000000000000000000000000100 = some .gencode := by decide
theorem test_decode_serialize : decodeTableWord 32 0b00000000000000000000000000000101 = some .serialize := by decide
theorem test_decode_pack : decodeTableWord 32 0b00000000000000000000000000000110 = some .pack := by decide
theorem test_decode_unpack : decodeTableWord 32 0b00000000000000000000000000000111 = some .unpack := by decide
theorem test_decode_emit : decodeTableWord 32 0b00000000000000000000000000001000 = some .emit := by decide
theorem test_decode_parse : decodeTableWord 32 0b00000000000000000000000000001001 = some .parse := by decide
theorem test_decode_deserialize : decodeTableWord 32 0b00000000000000000000000000001010 = some .deserialize := by decide
theorem test_decode_decode : decodeTableWord 32 0b00000000000000000000000000001011 = some (.decode false) := by decide
theorem test_decode_decode_lim : decodeTableWord 32 0b00000000000000000000000100001011 = some (.decode true) := by decide
theorem test_decode_compress : decodeTableWord 32 0b00000000000000000000000000001100 = some .compress := by decide
theorem test_decode_decompress : decodeTableWord 32 0b00000000000000000000000000001101 = some (.decompress false) := by
  decide
theorem test_decode_decompress_lim : decodeTableWord 32 0b00000000000000000000000100001101 = some (.decompress true) := by
  decide

/-- R86: '1' then the symbol's eight bits, most significant first: 'r' is 0x72 = 01110010. -/
theorem test_decode_token_leaf : decodeTableWord 16 0b101110010 = some (.treeTokenLeaf 0x72) := by decide

/-- R86: a single '0'. -/
theorem test_decode_token_internal : decodeTableWord 8 0b0 = some .treeTokenInternal := by decide

/-- X4, X5: reserved codes, reserved bits, LIM where it is not allowed. -/
theorem test_decode_reserved : ([0xE, 0xF, 0x10, 0x200, 0x80000002, 0x102].map fun w => decodeTableWord 32 w) =
    List.replicate 6 none := by decide

/-- The step runs the instruction placed by the interface as the first one after reset. -/
theorem test_fetch_word : (match fetch (State.reset.withFetchWord 32 0x10D) with
    | .run i s => some (i, s.cmd, s.script)
    | .settled _ => none) = some (.decompress true, 0x10D, []) := by decide +kernel

/-! ## Ill-formed terms -/

/-- Every field of an instruction has its width in its type (30_encoding.md R87): there is no ill-formed `Instr`. -/
theorem test_wf_instr : Instr.wf (.treeTokenLeaf 0xFF) = true ∧ Instr.wf (.decode true) = true := by decide

/-- 20_memory.md R65: a byte or halfword access to `REG`, and a word access off a multiple of 4. -/
theorem test_wf_reg_access : ([.readReg .byte 0x004, .readReg .half 0x004, .readReg .word 0x006, .writeReg .byte 0x00C 1,
    .writeReg .half 0x00C 1, .writeReg .word 0x00D 1, .writeReg .word 0x00C 1].map (Txn.wf Params.default)) =
    [false, false, false, false, false, false, true] := by decide

/-- 20_memory.md R60: the last cell of `IN` exists, the next index does not. -/
theorem test_wf_in_index : Txn.wf Params.default (.writeIn 0xFFFFFFFE 0) = true ∧ Txn.wf Params.default (.writeIn 0xFFFFFFFF 0) = false := by decide

/-- A small core: every capacity of 00_scope.md R6 near the least R6 admits, the open choices away from their defaults. -/
def small : Params where
  lenW := 4
  inCap := 7
  outCap := 4
  cntW := 4
  tbitsCap := 2559
  nodeCap := 511
  bitcntW := 11
  tieBreak := [1, 0]
  childOrder := .secondPoppedLeft
  deserWeight := 5

/-- A large core: every width and capacity above what the fields of the register window hold. -/
def wide : Params where
  lenW := 40
  inCap := 1000000000000
  outCap := 1000000000000
  cntW := 40
  tbitsCap := 5000
  nodeCap := 1000
  bitcntW := 80
  tieBreak := []
  childOrder := .firstPoppedLeft
  deserWeight := 0

/-- 00_scope.md R6, column "constraint": each parameter one step beyond what the others allow. -/
theorem test_wf_params : Params.default.wf = true ∧ small.wf = true ∧ wide.wf = true ∧
    ([{ small with lenW := 2 }, { small with inCap := 16 }, { small with inCap := 9 }, { small with outCap := 16 },
      { small with outCap := 3 }, { small with cntW := 2 }, { small with tbitsCap := 2558 },
      { small with tbitsCap := 2569 }, { small with nodeCap := 510 }, { small with bitcntW := 10 },
      { small with deserWeight := 16 }].map Params.wf) = List.replicate 11 false := by decide

/-- A tree token is no command, so no script line issues it. -/
theorem test_wf_script_command : HostLine.wf Params.default (.command .treeTokenInternal) = false ∧
    HostLine.wf Params.default (.command .compress) = true := by decide

/-- An input longer than `IN_CAP` is no script line. -/
theorem test_wf_script_input (bytes : List Byte) (p : Params) (h : p.inCap < bytes.length) :
    HostLine.wf p (.wrin bytes) = false := by
  simp [HostLine.wf, h]

/-! ## Single commands (spec/95_test_vectors.md) -/

/-- A core right after reset, with its input. -/
def loadedIn (p : Params) (bytes : List Byte) : State :=
  { State.resetWith p with inMem := Memory.writeFrom [] 0 bytes, inLen := bytes.length }

/-- The same with the default parameters. -/
def loaded (bytes : List Byte) : State := loadedIn Params.default bytes

/-- The next state, or the same one where there is none. -/
def nextOf (s : State) : Host.Outcome State Fault Refusal → State
  | .next t => t
  | _ => s

/-- One command. -/
def after (i : Instr) (s : State) : State := nextOf s (exec i s)

/-- Commands one after another, for the tests that need the products of earlier ones. -/
def afterAll (is : List Instr) (s : State) : State := is.foldl (fun s i => after i s) s

/-- The output buffer as the host reads it. -/
def output (s : State) : List (Option Byte) := (List.range s.outLen).map s.outMem.read

/-- "abracadabra". -/
def abra : List Byte := [0x61, 0x62, 0x72, 0x61, 0x63, 0x61, 0x64, 0x61, 0x62, 0x72, 0x61]

/-- The container of V5. -/
def abraContainer : List Byte :=
  [0x00, 0x00, 0x00, 0x31, 0x58, 0x4B, 0x1D, 0x91, 0x62, 0xB9, 0x00, 0x6E, 0x8A, 0xDC]

/-- X2. -/
theorem test_nop : (after .nop State.reset).status.image = 0x001 := by decide

/-- X8. -/
theorem test_clear : (let t := after .clear (after .compress (loaded [0x61, 0x62]))
    (t.status.image, t.outLen, t.tbc, t.nodeCount, t.encBits, t.inLen)) = (0x001, 0, 0, 0, 0, 2) := by decide +kernel

/-- C4. -/
theorem test_count : (let t := after .count (loaded abra)
    ([0x61, 0x62, 0x63, 0x64, 0x72, 0x65].map fun x => freqOf t.freq x, t.symCount, t.status.image)) =
    ([5, 2, 1, 1, 2, 0], 5, 0x011) := by decide +kernel

/-- C6: the table is made anew, not added to. -/
theorem test_count_again : (let t := after .count { after .count (loaded [0x61, 0x62]) with inLen := 1 }
    (freqOf t.freq 0x61, freqOf t.freq 0x62)) = (1, 0) := by decide +kernel

/-- B5: three equal weights, the two lower indices pop. -/
theorem test_build : (let t := afterAll [.count, .build] (loaded abra)
    ([5, 6, 7, 8].map fun i => t.node[i]?, t.root, t.nodeCount)) =
    ([some (.internal 2 2 3), some (.internal 4 1 4), some (.internal 6 5 6), some (.internal 11 0 7)], 8, 9) := by
  decide +kernel

/-- 42_tree_builder.md R121, R122 with other parameters: of two equal weights the one of the smaller rank, 'b', pops first,
and the first popped stands right. -/
theorem test_build_small : (let t := afterAll [.count, .build] (loadedIn small [0x61, 0x62])
    (t.node[2]?, t.root)) = (some (.internal 2 0 1), 2) ∧
    (let t := afterAll [.count, .build] (loadedIn { small with tieBreak := [] } [0x61, 0x62])
    (t.node[2]?, t.root)) = (some (.internal 2 1 0), 2) := by decide +kernel

/-- B9. -/
theorem test_build_empty : (let t := afterAll [.count, .build] (loaded [])
    (t.status.image, errcodeImage t.errcode)) = (0x002, 2) := by decide +kernel

/-- G4: the code words of "abracadabra", and no entry for 'e'. -/
theorem test_gencode : (let t := afterAll [.count, .build, .gencode] (loaded abra)
    [0x61, 0x62, 0x63, 0x64, 0x72, 0x65].map fun x : Byte => codeOf t.code x) =
    [some [false], some [true, true, false], some [true, false, false], some [true, false, true],
      some [true, true, true], none] := by decide +kernel

/-- G7: two leaves both 'a', the later one wins. -/
theorem test_gencode_repeated : codes (.internal 0 (.leaf 0 0x61) (.leaf 0 0x61)) 0x61 = some [true] := by decide

/-- T2. -/
theorem test_serialize : (let t := afterAll [.count, .build, .serialize] (loaded [0x61, 0x62])
    (t.tbits, t.tbc)) = ([false, true, false, true, true, false, false, false, false, true, true, false, true, true, false,
      false, false, true, false], 19) := by decide +kernel

/-- T5: no accumulation. -/
theorem test_serialize_twice : (afterAll [.count, .build, .serialize, .serialize] (loaded [0x61])).tbc = 9 := by
  decide +kernel

/-- K9. -/
theorem test_pack : output (after .pack { State.reset with
    tbits := [true, false, true, true, false, false, false, false, true], tbc := 9,
    status := { Status.zero with tbitsValid := true } }) = [some 0xB0, some 0x80] := by decide +kernel

/-- K10. -/
theorem test_unpack : (let t := after .unpack (loaded [0xB0, 0x80])
    (readReg t (.tbits 0), t.tbc)) = (0xB0800000, 16) := by decide +kernel

/-- 60_exceptions.md R215 (a), (b) with other parameters: eight bytes in an `IN` of seven; 320 bytes in 2559 bits. -/
theorem test_unpack_capacity_small : (after .unpack { State.resetWith small with inLen := 8 }).errcode = some .capacity ∧
    (after .unpack { State.resetWith { Params.default with tbitsCap := 2559 } with inLen := 320 }).errcode =
      some .capacity := by decide +kernel

/-- K11, K12: 320 bytes fit, 321 do not. -/
theorem test_unpack_capacity : (after .unpack { State.reset with inLen := 320 }).tbc = 2560 ∧
    (after .unpack { State.reset with inLen := 321 }).errcode = some .capacity := by decide +kernel

/-- E1. -/
theorem test_emit : (let t := afterAll [.count, .build, .gencode, .serialize, .emit] (loaded abra)
    (output t, t.encBits)) = (abraContainer.map some, 23) := by decide +kernel

/-- E3: no code for 'z'. -/
theorem test_emit_missing : (let s := afterAll [.count, .build, .gencode, .serialize] (loaded abra)
    let t := after .emit { s with inMem := Memory.writeFrom [] 0 [0x61, 0x62, 0x7A], inLen := 3 }
    (t.status.image, errcodeImage t.errcode, t.outLen, t.nodeCount)) = (0x002, 6, 0, 0) := by decide +kernel

/-- Q2: the pad bits of the tree section are dropped whatever they are. -/
theorem test_parse : (let t := after .parse (loaded [0, 0, 0, 9, 0xB0, 0xFF, 0])
    (t.tbits, t.tbc, t.dataOff, t.status.image)) =
    ([true, false, true, true, false, false, false, false, true], 9, 6, 0x181) := by decide +kernel

/-- Q7: the byte count of the tree section does not wrap. -/
theorem test_parse_malformed : (after .parse (loaded [0xFF, 0xFF, 0xFF, 0xFF, 0])).errcode = some .malformedContainer := by
  decide +kernel

/-- T7. -/
theorem test_deserialize : (let t := afterAll [.parse, .deserialize] (loaded abraContainer)
    ((List.range 9).map fun i => t.node[i]?, t.root, t.nodeCount)) =
    ([some (.internal 0 1 2), some (.leaf 0 0x61), some (.internal 0 3 6), some (.internal 0 4 5), some (.leaf 0 0x63),
      some (.leaf 0 0x64), some (.internal 0 7 8), some (.leaf 0 0x62), some (.leaf 0 0x72)], 0, 9) := by decide +kernel

/-- 44_tree_codec.md R154: every record gets `DESER_WEIGHT`. -/
theorem test_deserialize_small : (after .deserialize { State.resetWith small with
    tbits := [true, false, true, true, false, false, false, false, true], tbc := 9,
    status := { Status.zero with tbitsValid := true } }).node[0]? = some (.leaf 5 0x61) := by decide +kernel

/-- T12: the right subtree is missing. -/
theorem test_deserialize_cut : (after .deserialize { State.reset with
    tbits := [false, true, false, true, true, false, false, false, false, true], tbc := 10,
    status := { Status.zero with tbitsValid := true } }).errcode = some .malformedContainer := by decide +kernel

/-- W1, n = 4: "ab", then a code word begins that is dropped (n = 3 gives "a"). -/
theorem test_decode_limited : output (after (.decode true)
    { afterAll [.parse, .deserialize] (loaded abraContainer) with dataLimit := 4 }) = [some 0x61, some 0x62] := by
  decide +kernel

/-- W2: the pad bit is one more 'a'. -/
theorem test_decode_all : output (afterAll [.parse, .deserialize, .decode false] (loaded abraContainer)) =
    (abra ++ [0x61]).map some := by decide +kernel

/-- V5. -/
theorem test_compress : (let t := after .compress (loaded abra)
    (output t, t.encBits, t.status.image)) = (abraContainer.map some, 23, 0x2F1) := by decide +kernel

/-- V2. -/
theorem test_compress_empty : (let t := after .compress (loaded [])
    (output t, t.encBits, t.status.image)) = ([some 0, some 0, some 0, some 0], 0, 0x211) := by decide +kernel

/-- V5, bounded mode. -/
theorem test_decompress_limited : (let t := after (.decompress true) { loaded abraContainer with dataLimit := 23 }
    (output t, t.status.image)) = (abra.map some, 0x3A1) := by decide +kernel

/-- W9: the tree is the single bit 0. -/
theorem test_decompress_malformed : (let t := after (.decompress false) (loaded [0, 0, 0, 1, 0])
    (t.status.image, errcodeImage t.errcode)) = (0x002, 1) := by decide +kernel

/-- T6, as one token. -/
theorem test_token_leaf : (let t := nextOf State.reset (step (State.reset.withFetchWord 16 0b101100001))
    (t.node[0]?, t.root, t.nodeCount, t.status.image, t.deser)) = (some (.leaf 0 0x61), 0, 1, 0x021, none) := by
  decide +kernel

/-- The first token of T13: the root, with its left place to fill next and then its right place. -/
theorem test_token_internal : (let t := nextOf State.reset (step (State.reset.withFetchWord 8 0b0))
    (t.node[0]?, t.root, t.nodeCount, t.deser)) = (some (.internal 0 0 0), 0, 1, some ⟨[], .left 0, [.right 0]⟩) := by
  decide +kernel

/-- B6 and G5: the window images. -/
theorem test_window : (let t := afterAll [.count, .build, .gencode] (loaded [0x6D, 0x69, 0x73, 0x73, 0x69, 0x73, 0x73, 0x69, 0x70, 0x70, 0x69])
    ([0x3000, 0x3004, 0x3020, 0x3024, 0x09A4, 0x1D20, 0x05C0].map fun off => (regAt off).map (readReg t))) =
    [some 0x4, some 0x80000069, some 0x3, some 0x10002, some 2, some 0xC0000000, some 2] := by decide +kernel

/-- P2, lines 239 and 241: `RD NODE[6]` and `RD CODE['i']` are two reads each. -/
theorem test_rd_node : expand 0 (.rd (.node 6)) = [.readReg .word 0x3030, .readReg .word 0x3034] ∧
    expand 0 (.rd (.code 0x69)) = [.readReg .word 0x09A4, .readReg .word 0x1D20] := by decide

/-- 44_tree_codec.md R154 with 00_scope.md R6: a chain of 300 leaves has 599 records, which a larger node memory holds. -/
theorem test_deserialize_wide : (after .deserialize { State.resetWith wide with
    tbits := List.replicate 299 false ++ (List.replicate 300 (serialize (.leaf 0 0x61))).flatten, tbc := 2999,
    status := { Status.zero with tbitsValid := true } }).nodeCount = 599 := by decide +kernel

/-- 10_state.md R37: where registers end. -/
theorem test_reserved_offsets : [0x038, 0xC00, 0x3FF8, 0x4140].map regAt = [none, none, none, none] := by decide

/-! ## Witnesses: for every statement with hypotheses, a state and operands that meet them -/

theorem witness_DecodeInvertsEncode : Instr.wf (.decompress true) = true := by decide

theorem witness_TreeTokensAreSelfDelimiting : Instr.isCommand (.treeTokenLeaf 0xFF) = false ∧
    Instr.isCommand .treeTokenInternal = false := by decide

/-- A host that writes `w` to `CMD` of a core after reset. -/
def writing (w : Word) : State := { State.reset with script := [.writeReg .word 0 w] }

theorem witness_IllegalWordIsAnInterfaceError (w : Word) : (writing w).deser = none ∧
    (writing w).script = .writeReg .word 0 w :: [] := ⟨rfl, rfl⟩

/-- Each way a word can be illegal, alone: the two reserved codes, a reserved bit at either end of either field, LIM. -/
theorem witness_IllegalWord_each : (0xE : Word).extractLsb' 0 4 = 0xE ∧ (0xF : Word).extractLsb' 0 4 = 0xF ∧
    (0x10 : Word).extractLsb' 4 4 ≠ 0 ∧ (0x80 : Word).extractLsb' 4 4 ≠ 0 ∧ (0x200 : Word).extractLsb' 9 23 ≠ 0 ∧
    (0x80000002 : Word).extractLsb' 9 23 ≠ 0 ∧
    ((0x10C : Word).getLsbD 8 = true ∧ (0x10C : Word).extractLsb' 0 4 ≠ 0xB ∧ (0x10C : Word).extractLsb' 0 4 ≠ 0xD) := by
  decide

theorem witness_StepRunsTheDecodedInstruction_command : (writing 0x10D).deser = none ∧
    (writing 0x10D).script = .writeReg .word 0 0x10D :: [] ∧ decode (.cmdw 0x10D) = .ok (.decompress true) :=
  ⟨rfl, rfl, by decide⟩

/-- A core in the middle of DESERIALIZE: one Internal record, the leaf 'a' and one bit still to read. -/
def tokening : State :=
  { State.reset with
    node := nodeTable Params.default [.internal 0 0 0], nodeCount := 1,
    deser := some ⟨[true, false, true, true, false, false, false, false, true, false], .left 0, [.right 0]⟩ }

theorem witness_StepRunsTheDecodedInstruction_token :
    tokening.deser = some ⟨[true, false, true, true, false, false, false, false, true, false], .left 0, [.right 0]⟩ ∧
    decodeToken [true, false, true, true, false, false, false, false, true, false] =
      .ok (.treeTokenLeaf 0x61, [false]) := ⟨rfl, by decide⟩

/-- A read of `STATUS`, a narrow write to `CMD`'s offset and a reset are transactions that write no word to `CMD`. -/
theorem witness_StepRunsTheDecodedInstruction_host : State.reset.deser = none ∧
    (∀ w, Txn.readReg .word 0x004 ≠ .writeReg .word 0 w) ∧ (∀ v w, Txn.writeReg .byte 0 v ≠ .writeReg .word 0 w) ∧
    (∀ w, Txn.reset ≠ .writeReg .word 0 w) := ⟨rfl, by simp, by simp, by simp⟩

theorem witness_StepRunsTheDecodedInstruction_idle : State.reset.deser = none ∧ State.reset.script = [] := ⟨rfl, rfl⟩

/-- The bits end where a token begins, and inside a LEAF token. -/
theorem witness_StepRunsTheDecodedInstruction_cut :
    (startDeserialize [] State.reset).deser = some ⟨[], .root, []⟩ ∧ decodeToken [] = .error .noTagBit ∧
    (startDeserialize [true, false] State.reset).deser = some ⟨[true, false], .root, []⟩ ∧
    decodeToken [true, false] = .error .symbolCutShort := ⟨rfl, by decide, rfl, by decide⟩

theorem witness_PackAndUnpackPlaceEveryBit : 1 < ceil8 [true, false, false, false, false, false, false, false, true].length ∧
    ([0xFF, 0x00] : List Byte)[1]? = some 0x00 ∧ 7 < 8 := by decide

theorem witness_PackUnpackLaws : ([true, false, true, false, false, true, false, true] : BitSeq).length % 8 = 0 := by decide

theorem witness_TreeSerializationRoundTrip :
    deser Params.default [true, false, true, true, false, false, false, false, true, false].length
      [true, false, true, true, false, false, false, false, true, false] = some (.leaf 0 0x61, [false]) := by decide

/-- The tree of V4, "ab". -/
def treeAB : Tree := .internal 2 (.leaf 1 0x61) (.leaf 1 0x62)

theorem witness_CodeTableProperties : codes treeAB 0x61 = some [false] ∧ codes treeAB 0x62 = some [true] ∧
    (0x61 : Byte) ≠ 0x62 ∧ treeAB.symbols.Nodup ∧ 2 ≤ treeAB.leaves.length ∧
    treeAB.zeroWeights small = (Tree.internal 0 (.leaf 0 0x61) (.leaf 0 0x62)).zeroWeights small := by decide

/-- The counts of an input. -/
theorem counts_of (bytes : List Byte) : freqOf (histogram bytes) = fun s => bytes.count s :=
  funext (freqOf_histogram bytes)

/-- V3: a single symbol. -/
theorem huffman_a : HuffmanTree (fun s => [0x61].count s) (.leaf 1 0x61) := by
  have h : initialForest (fun s => [0x61].count s) = ([.leaf 1 0x61] : List Tree) := by
    rw [initialForest]; exact congrArg _ (by decide +kernel)
  rw [HuffmanTree, h]; exact .refl

/-- V4: one greedy step. -/
theorem huffman_ab : HuffmanTree (fun s => [0x61, 0x62].count s) treeAB := by
  have h : initialForest (fun s => [0x61, 0x62].count s) = ([.leaf 1 0x61, .leaf 1 0x62] : List Tree) := by
    rw [initialForest]; exact congrArg _ (by decide +kernel)
  rw [HuffmanTree, h]
  exact .tail .refl (.firstLeft 0 (.leaf 1 0x61) (.leaf 1 0x62) (by simp [Tree.weight]) (by simp))

theorem witness_HuffmanTreeProperties : (∃ s : Byte, [0x61].count s ≠ 0) ∧
    HuffmanTree (fun s => [0x61].count s) (.leaf 1 0x61) ∧ HuffmanTree (fun s => [0x61, 0x62].count s) treeAB :=
  ⟨⟨0x61, by decide⟩, huffman_a, huffman_ab⟩

theorem witness_BoundedRoundTrip : small.wf = true ∧ ([0x61, 0x62] : List Byte) ≠ [] ∧
    ([0x61, 0x62] : List Byte).length ≤ small.inCap ∧ HuffmanTree (fun s => [0x61, 0x62].count s) treeAB :=
  ⟨by decide, by decide, by decide, huffman_ab⟩

/-- Both kinds of leftmost leaf: the root itself, and one below it. -/
theorem witness_ExhaustionModeAppendsPadSymbols : (Tree.leaf 1 0x61).leftmost.2 = 0 ∧
    HuffmanTree (fun s => [0x61].count s) (.leaf 1 0x61) ∧ treeAB.leftmost.2 ≠ 0 ∧
    HuffmanTree (fun s => [0x61, 0x62].count s) treeAB := ⟨rfl, huffman_a, by decide, huffman_ab⟩

/-- A path to a leaf, one to an Internal node, and the empty one. -/
theorem witness_UnfinishedCodeWordIsDropped_walk :
    let t := Tree.internal 3 (.leaf 1 0x63) (.internal 2 (.leaf 1 0x61) (.leaf 1 0x62))
    t.follow [true, false] = some (.leaf 1 0x61) ∧ t.follow [true] = some (.internal 2 (.leaf 1 0x61) (.leaf 1 0x62)) ∧
    t.follow [] = some t := by decide

theorem witness_UnfinishedCodeWordIsDropped :
    encodeBytes (codes (.internal 3 (.leaf 1 0x63) (.internal 2 (.leaf 1 0x61) (.leaf 1 0x62)))) [0x63] = some [false] ∧
    codes (.internal 3 (.leaf 1 0x63) (.internal 2 (.leaf 1 0x61) (.leaf 1 0x62))) 0x61 = some [true, false] ∧
    [true] <+: [true, false] ∧ [true] ≠ [true, false] := by decide

/-- The counts of V4. -/
def freqAB : Vector Nat 256 := histogram [0x61, 0x62]

theorem freqAB_sum : (allSymbols.map (freqOf freqAB)).sum = 2 := by
  rw [freqAB, counts_of]; exact sum_count _

theorem witness_BuilderMakesAHuffmanTree : Params.default.wf = true ∧ (∃ s, freqOf freqAB s ≠ 0) ∧
    (allSymbols.map (freqOf freqAB)).sum ≤ Params.default.inCap := by
  refine ⟨by decide, ⟨0x61, ?_⟩, by rw [freqAB_sum]; decide⟩
  rw [freqAB, counts_of]; decide

theorem witness_BuildPlacesItsRecords : small.wf = true ∧ (∃ s, freqOf freqAB s ≠ 0) ∧ (alphabet (freqOf freqAB))[1]? = some 0x62 ∧
    (allSymbols.map (freqOf freqAB)).sum ≤ small.inCap ∧ 2 ≤ 2 ∧ 2 < 2 * 2 - 1 := by
  refine ⟨by decide, witness_BuilderMakesAHuffmanTree.2.1, ?_, by rw [freqAB_sum]; decide, by decide, by decide⟩
  rw [freqAB, counts_of]; decide +kernel

/-- Every product missing but the counts, which are all 0. -/
def emptyCounts : State := { State.reset with status := { Status.zero with freqValid := true } }

/-- One input byte, tree bits, and a code table without any code. -/
def noCodes : State :=
  { State.reset with inLen := 1, status := { Status.zero with codeValid := true, tbitsValid := true } }

theorem emptyCounts_freq (x : Byte) : freqOf emptyCounts.freq x = 0 := by
  show freqOf (tabulate 256 fun _ => 0) x = 0
  simp [freqOf, tabulate_getD]

theorem noCodes_code (x : Byte) : codeOf noCodes.code x = none := by
  rw [codeOf_eq, show noCodes.code = tabulate 256 fun _ => CodeEntry.absent from rfl, tabulate_getD, if_pos x.isLt]
  rfl

theorem witness_error_sequence : exec .build State.reset = .next (interfaceError .sequence State.reset) := rfl

theorem witness_error_malformed : exec .parse State.reset = .next (callError .malformedContainer State.reset) := rfl

theorem witness_error_emptyAlphabet : exec .build emptyCounts = .next (callError .emptyAlphabetPrecondition emptyCounts) := by
  have h : ∀ s : State, s.status.freqValid = true → (∀ x, freqOf s.freq x = 0) →
      exec .build s = .next (callError .emptyAlphabetPrecondition s) := fun s hv hf =>
    runCommand_raise (s := s) (ready := Status.reqBuild) hv (bodyBuild_raise (s := beginCommand s) hf)
  exact h _ rfl emptyCounts_freq

theorem witness_error_capacity (s : State) (h : s.params.inCap < s.inLen) :
    exec .unpack s = .next (callError .capacity s) :=
  runCommand_raise (ready := Status.reqNothing) rfl (bodyUnpack_over (s := beginCommand s) h)

theorem witness_error_missingCode : exec .emit noCodes = .next (callError .missingCode noCodes) := by
  refine runCommand_raise (s := noCodes) (ready := Status.reqEmit) rfl ?_
  have hm : inByte (beginCommand noCodes) 0 ∈ inputBytes (beginCommand noCodes) :=
    List.mem_map_of_mem (List.mem_range.2 (show 0 < 1 by omega))
  rw [bodyEmit, withInput_le (by decide), encodeBytes_none (code := codeOf (beginCommand noCodes).code) hm (noCodes_code _)]

/-! ### Stage commands -/

/-- After COUNT of "ab". -/
def counted : State :=
  { State.reset with freq := freqAB, symCount := 2, status := { Status.zero with freqValid := true } }

theorem witness_BuildMakesTheTree : counted.params.wf = true ∧ counted.status.freqValid = true ∧ FreqOk counted ∧
    (∃ x, freqOf counted.freq x ≠ 0) ∧ (∀ x, freqOf State.reset.freq x = 0) ∧ State.reset.status.freqValid = false := by
  refine ⟨by decide, rfl, ⟨by rw [show counted.freq = freqAB from rfl, freqAB_sum]; decide, ?_⟩,
    witness_BuilderMakesAHuffmanTree.2.1, emptyCounts_freq, rfl⟩
  rw [show counted.freq = freqAB from rfl, freqAB, counts_of]; decide +kernel

/-- After BUILD of "ab" (B2), with every product valid. -/
def built : State :=
  { putTree [.leaf 1 0x61, .leaf 1 0x62, .internal 2 0 1] 2 State.reset with
    status := ⟨true, false, true, true, true, true, true, true⟩ }

theorem built_tree : treeOperand built = some treeAB ∧ TreeOk built := by
  have h : Stands [.leaf 1 0x61, .leaf 1 0x62, .internal 2 0 1] 2 treeAB [2, 0, 1] := by
    exact .internal (w := 2) (l := 0) (r := 1) rfl (.leaf (w := 1) rfl) (.leaf (w := 1) rfl)
  have hp := putTree_ok (s := State.reset) h (by decide) (by decide) (by decide) rfl
  exact ⟨hp.1, hp.2⟩

theorem witness_GencodeWritesTheCodeTable : built.status.treeValid = true ∧ TreeOk built ∧
    treeOperand built = some treeAB ∧ codes treeAB 0x62 = some [true] ∧ State.reset.status.treeValid = false :=
  ⟨rfl, built_tree.2, built_tree.1, by decide, rfl⟩

theorem witness_SerializeWritesTheTreeBits : built.params.wf = true ∧ built.status.treeValid = true ∧ TreeOk built ∧
    treeOperand built = some treeAB := ⟨by decide, rfl, built_tree.2, built_tree.1⟩

/-- After SERIALIZE of "a" (T1), and after UNPACK of `B0 80`. -/
def serialized (bits : BitSeq) : State :=
  { State.reset with
    tbits := bits, tbc := bits.length, status := { Status.zero with tbitsValid := true } }

theorem serialized_ok (bits : BitSeq) (h : bits.length ≤ 2560) : TbitsOk (serialized bits) :=
  ⟨rfl, h⟩

/-- Nine bits (K9), as many as fit, and one byte more than a small `OUT` holds. -/
theorem witness_PackWritesThePackedBits (bits : BitSeq) :
    (serialized bits).params.wf = true ∧ (serialized bits).status.tbitsValid = true ∧
    TbitsOk (serialized [true, false, true, true, false, false, false, false, true]) ∧
    TbitsOk (serialized (List.replicate 2560 false)) ∧ ceil8 2560 ≤ Params.default.outCap ∧
    (let s := { serialized (List.replicate 33 false) with params := small };
      s.params.wf = true ∧ TbitsOk s ∧ s.params.outCap < ceil8 s.tbc) ∧ State.reset.status.tbitsValid = false :=
  ⟨Params.default_wf, rfl, serialized_ok _ (by decide), serialized_ok _ (by rw [List.length_replicate]), by decide,
    ⟨by decide, ⟨by decide, by decide⟩, by decide⟩, rfl⟩

theorem witness_UnpackWritesTheInputBits : Params.default.wf = true ∧
    (let s := { State.reset with inLen := 320 }; s.inLen ≤ s.params.inCap ∧ 8 * s.inLen ≤ s.params.tbitsCap) ∧
    (let s := { State.reset with inLen := 321 }; s.params.tbitsCap < 8 * s.inLen) ∧
    (let s := { State.resetWith small with inLen := 8 }; s.params.inCap < s.inLen) := by decide

/-- The bytes 'a' and 'b' with a code, and the tree bits of V4. -/
def emitting (p : Params) (bytes : List Byte) : State :=
  { loadedIn p bytes with
    code := codeTable treeAB, tbits := serialize treeAB, tbc := 19,
    status := { Status.zero with codeValid := true, tbitsValid := true } }

/-- Every byte with a code, with room for the container and without; a byte without a code; an input that is too long. -/
theorem witness_EmitWritesTheContainer (p : Params) (h : p.Ok) :
    Params.default.wf = true ∧ small.wf = true ∧ (emitting p [0x61, 0x62]).status.codeValid = true ∧
    (emitting p [0x61, 0x62]).status.tbitsValid = true ∧ CodeOk (emitting p [0x61, 0x62]) ∧ TbitsOk (emitting p [0x61, 0x62]) ∧
    (emitting small [0x61, 0x62]).inLen ≤ small.inCap ∧
    (∀ i, i < (emitting small [0x61, 0x62]).inLen →
      ((emitting small [0x61, 0x62]).code.getD (inByte (emitting small [0x61, 0x62]) i).toNat CodeEntry.absent).len ≠ 0) ∧
    4 + ceil8 19 + ceil8 2 ≤ Params.default.outCap ∧ small.outCap < 4 + ceil8 19 + ceil8 2 ∧
    (∃ i, i < (emitting small [0x7A]).inLen ∧
      ((emitting small [0x7A]).code.getD (inByte (emitting small [0x7A]) i).toNat CodeEntry.absent).len = 0) ∧
    small.inCap < ({ emitting small [] with inLen := 8 } : State).inLen ∧ State.reset.status.codeValid = false := by
  have hs : (serialize treeAB).length ≤ 2559 := by decide
  refine ⟨by decide, by decide, rfl, rfl, codeOk_table treeAB h (hs.trans h.tbitsLo) rfl, ⟨rfl, hs.trans h.tbitsLo⟩, by decide, ?_, by decide,
    by decide, ⟨0, by decide, by decide +kernel⟩, by decide, rfl⟩
  intro i hi
  have : i < 2 := hi
  interval_cases i <;> decide +kernel

/-- The clauses at their boundaries: an input that is too long; 3 bytes; a section of one byte that is missing; 2561 bits in 321 bytes; the
longest section, 2560 bits in 320 bytes. -/
theorem witness_ParseReadsTheTreeSection :
    small.inCap < ({ State.resetWith small with inLen := 8 } : State).inLen ∧
    ({ State.reset with inLen := 3 } : State).inLen < 4 ∧ 325 ≤ Params.default.inCap ∧
    (let s := loaded [0, 0, 0, 1]; 4 ≤ s.inLen ∧ s.inLen - 4 < ceil8 (lengthField (inputBytes s))) ∧
    (let s := { loaded [0, 0, 0x0A, 0x01] with inLen := 325 }; 4 ≤ s.inLen ∧ (2561 + 7) / 8 ≤ s.inLen - 4 ∧ Params.default.tbitsCap < 2561 ∧
      (inByte s 0).toNat * 2 ^ 24 + (inByte s 1).toNat * 2 ^ 16 + (inByte s 2).toNat * 2 ^ 8 + (inByte s 3).toNat = 2561) ∧
    (let s := { loaded [0, 0, 0x0A, 0x00] with inLen := 324 }; 4 ≤ s.inLen ∧ (2560 + 7) / 8 ≤ s.inLen - 4 ∧ 2560 ≤ Params.default.tbitsCap ∧
      (inByte s 0).toNat * 2 ^ 24 + (inByte s 1).toNat * 2 ^ 16 + (inByte s 2).toNat * 2 ^ 8 + (inByte s 3).toNat = 2560) := by
  decide +kernel

theorem witness_DeserializeRebuildsTheTree :
    (serialized (serialize treeAB)).status.tbitsValid = true ∧ TbitsOk (serialized (serialize treeAB)) ∧
    (serialized (serialize treeAB)).params.wf = true ∧
    deserialize Params.default (serialized (serialize treeAB)).tbits = some (treeAB.zeroWeights Params.default) ∧
    (serialized [false]).status.tbitsValid = true ∧ deserialize Params.default (serialized [false]).tbits = none ∧
    State.reset.status.tbitsValid = false := by
  refine ⟨rfl, ⟨by decide, by decide⟩, by decide, by decide, rfl, by decide, rfl⟩

/-- A tree of one leaf and one byte of data: eight symbols, which a small `OUT` does not hold. -/
def walking (p : Params) : State :=
  { putTree [.leaf 1 0x61] 0 (State.resetWith p) with
    inLen := 1, status := { Status.zero with treeValid := true, parseValid := true } }

theorem walking_tree {p : Params} (hp : p.Ok) : treeOperand (walking p) = some (.leaf 1 0x61) ∧ TreeOk (walking p) := by
  have h : Stands [.leaf 1 0x61] 0 (.leaf 1 0x61) [0] := .leaf (w := 1) rfl
  have hb : (serialize (.leaf 1 0x61)).length ≤ p.tbitsCap := (by decide : 9 ≤ 2559).trans hp.tbitsLo
  have ht := putTree_ok (s := State.resetWith p) h (by decide) (hp.nodes 1 (by have := hp.tbitsLo; omega)) hb rfl
  exact ⟨ht.1, ht.2⟩

theorem witness_DecodeWalksTheDataSection (p : Params) (hp : p.Ok) : Params.default.wf = true ∧ small.wf = true ∧
    (walking p).status.treeValid = true ∧ (walking p).status.parseValid = true ∧ TreeOk (walking p) ∧
    treeOperand (walking p) = some (.leaf 1 0x61) ∧ (walking small).inLen ≤ small.inCap ∧
    (∀ b : Byte, (walk (.leaf 1 0x61) (unpack [b])).length ≤ Params.default.outCap ∧
      small.outCap < (walk (.leaf 1 0x61) (unpack [b])).length) ∧
    small.inCap < ({ walking small with inLen := 8 } : State).inLen ∧ State.reset.status.treeValid = false := by
  refine ⟨by decide, by decide, rfl, rfl, (walking_tree hp).2, (walking_tree hp).1, by decide, ?_, by decide, rfl⟩
  intro b
  simp only [walk, List.length_replicate, length_unpack, List.length_singleton]
  decide

/-! ### Composite commands -/

/-- An input that fits, with room for its container of seven bytes and without; an input that is too long. -/
theorem witness_CompressComputesTheContainer : Params.default.wf = true ∧ small.wf = true ∧
    (loaded [0x61]).inLen ≠ 0 ∧ (loadedIn small [0x61]).inLen ≤ small.inCap ∧
    (compress Params.default (inputBytes (loaded [0x61]))).map (fun x => decide (x.1.length ≤ Params.default.outCap)) =
      some true ∧
    (compress small (inputBytes (loadedIn small [0x61]))).map (fun x => decide (small.outCap < x.1.length)) = some true ∧
    small.inCap < ({ State.resetWith small with inLen := 8 } : State).inLen := by
  refine ⟨by decide, by decide, by decide, by decide, ?_, ?_, by decide⟩ <;> decide +kernel

theorem witness_CompressOfEmptyInput : State.reset.inLen = 0 := rfl

/-- A malformed container, one that fits, one that gives too many bytes, and an input that is too long. -/
theorem witness_DecompressComputesTheBytes : Params.default.wf = true ∧ small.wf = true ∧
    decompress Params.default (inputBytes State.reset) (some 0) = .error .malformedContainer ∧
    decompress Params.default (inputBytes (loaded [0, 0, 0, 9, 0xB0, 0x80, 0])) (some 4) = .ok [0x61, 0x61, 0x61, 0x61] ∧
    decompress small (inputBytes (loadedIn small [0, 0, 0, 9, 0xB0, 0x80, 0])) none = .ok (List.replicate 8 0x61) ∧
    small.outCap < (List.replicate 8 (0x61 : Byte)).length ∧
    small.inCap < ({ State.resetWith small with inLen := 8 } : State).inLen := by
  refine ⟨by decide, by decide, by decide, ?_, ?_, by decide, by decide⟩ <;> decide +kernel

theorem witness_ZeroLengthTreeGivesEmptyOutput : 4 ≤ (loaded [0, 0, 0, 0, 0xFF, 0xFF]).inLen ∧
    (loaded [0, 0, 0, 0, 0xFF, 0xFF]).inLen ≤ Params.default.inCap ∧
    ∀ i, i < 4 → inByte (loaded [0, 0, 0, 0, 0xFF, 0xFF]) i = 0 := by
  refine ⟨by decide, by decide, ?_⟩
  intro i hi
  interval_cases i <;> decide

/-! ### Tokens -/

/-- A token for the root, for a left and for a right place; the last token of a tree; no room for a record. -/
theorem witness_LeafTokenPlacesALeaf :
    (startDeserialize [] State.reset).deser = some ⟨[], .root, []⟩ ∧
    (startDeserialize [] State.reset).node.length = (startDeserialize [] State.reset).params.nodeCap ∧
    (startDeserialize [] State.reset).nodeCount < (startDeserialize [] State.reset).params.nodeCap ∧
    tokening.node.length = tokening.params.nodeCap ∧ tokening.nodeCount < tokening.params.nodeCap ∧ 0 < tokening.nodeCount ∧
    tokening.node[0]? = some (.internal 0 0 0) ∧
    (let s := { tokening with deser := some ⟨[], .right 0, []⟩ }; s.deser = some ⟨[], .right 0, []⟩ ∧ s.node[0]? = some (.internal 0 0 0)) ∧
    (let s := { tokening with nodeCount := 511 }; s.deser = tokening.deser ∧ s.params.nodeCap ≤ s.nodeCount) ∧ State.reset.deser = none := by
  refine ⟨rfl, ?_, by decide, ?_, by decide, by decide, ?_, ⟨rfl, ?_⟩, ⟨rfl, by decide⟩, rfl⟩ <;> decide +kernel

theorem witness_InternalTokenOpensTwoPlaces :
    tokening.deser = some ⟨[true, false, true, true, false, false, false, false, true, false], .left 0, [.right 0]⟩ ∧
    tokening.node.length = tokening.params.nodeCap ∧ tokening.nodeCount < tokening.params.nodeCap :=
  ⟨rfl, by decide +kernel, by decide⟩

theorem witness_DeserializeIsItsTokensInOrder : Params.default.wf = true ∧ (serialized [false]).deser = none ∧
    (serialized [false]).status.tbitsValid = true ∧ (serialized [false]).tbits.length ≤ Params.default.tbitsCap :=
  ⟨by decide, rfl, rfl, by decide⟩

/-! ### Errors and the whole machine -/

theorem witness_CallErrorClearsTheCallState : ErrKind.isCallError .malformedContainer = true ∧
    ErrKind.isCallError .emptyAlphabetPrecondition = true ∧ ErrKind.isCallError .capacity = true ∧
    ErrKind.isCallError .missingCode = true := by decide

/-- A command that ends with a call error, with an interface error, and without one: for
`ErrorsComeOnlyFromTheirCommands`, `ExactlyOneOfDoneAndErr`, `FailedCommandLeavesNoPartialResult` and
`EngineNeverWritesItsOperands`; the error kinds are in `witness_error_…`. -/
theorem witness_commands_end : State.reset.params.wf = true ∧ Instr.isCommand .parse = true ∧
    exec .parse State.reset = .next (callError .malformedContainer State.reset) ∧ Instr.isCommand .build = true ∧
    exec .build State.reset = .next (interfaceError .sequence State.reset) ∧ Instr.isCommand .nop = true ∧
    exec .nop State.reset = .next { State.reset with status := { Status.zero with done := true } } :=
  ⟨by decide, rfl, rfl, rfl, rfl, rfl, rfl⟩

theorem witness_OnlyFiveCommandsWriteOut : ∃ t, exec .count (loaded [0x61]) = .next t ∧ Instr.count ≠ .pack ∧
    Instr.count ≠ .emit ∧ (∀ l, Instr.count ≠ .decode l) ∧ Instr.count ≠ .compress ∧ ∀ l, Instr.count ≠ .decompress l := by
  have h : ∀ s : State, s.inLen ≤ s.params.inCap → ∃ t, exec .count s = .next t := fun s hs =>
    ⟨_, runCommand_ok (s := s) (ready := Status.reqNothing) (flags := fun _ f => f.afterCount) rfl
      (bodyCount_ok (s := beginCommand s) hs)⟩
  obtain ⟨t, ht⟩ := h (loaded [0x61]) (by decide)
  exact ⟨t, ht, by simp⟩

/-- The empty input, in two states that hold different outputs and limits. -/
theorem witness_CompositeCommandsArePure : State.reset.params.wf = true ∧
    State.reset.params = ({ State.reset with outLen := 7 } : State).params ∧
    inputBytes State.reset = inputBytes { State.reset with outLen := 7 } ∧
    (∃ t, exec .compress State.reset = .next t) ∧ (∃ t, exec .compress { State.reset with outLen := 7 } = .next t) ∧
    (true = true → State.reset.dataLimit = ({ State.reset with outLen := 7 } : State).dataLimit) ∧
    (∃ t, exec (.decompress true) State.reset = .next t) ∧
    ∃ t, exec (.decompress true) { State.reset with outLen := 7 } = .next t :=
  ⟨by decide, rfl, rfl, ⟨_, rfl⟩, ⟨_, rfl⟩, fun _ => rfl, ⟨_, rfl⟩, ⟨_, rfl⟩⟩

/-- "ab" compressed, and a second core, with a smaller `OUT`, that has the container as its input and `ENC_BITS` as its
limit. -/
theorem witness_MachineRoundTrip : ∃ s1 s2 : State, (loaded [0x61, 0x62]).params.wf = true ∧ s2.params.wf = true ∧
    exec .compress (loaded [0x61, 0x62]) = .next s1 ∧ s1.errcode = none ∧ s2.inLen = s1.outLen ∧
    s1.outLen ≤ s2.params.inCap ∧ (loaded [0x61, 0x62]).inLen ≤ s2.params.outCap ∧
    (∀ a, a < s1.outLen → s2.inMem.read a = s1.outMem.read a) ∧ s2.dataLimit = s1.encBits := by
  have h : (match exec .compress (loaded [0x61, 0x62]) with
      | .next t => t.errcode == none && decide (t.outLen ≤ 8)
      | _ => false) = true := by decide +kernel
  cases he : exec .compress (loaded [0x61, 0x62]) with
  | next t =>
    rw [he] at h
    simp only [Bool.and_eq_true, beq_iff_eq, decide_eq_true_eq] at h
    exact ⟨t, { State.resetWith { small with inCap := 8 } with inMem := t.outMem, inLen := t.outLen, dataLimit := t.encBits },
      by decide, (by decide : Params.wf { small with inCap := 8 } = true), rfl, h.1, rfl, h.2, (by decide : 2 ≤ 4),
      fun _ _ => rfl, rfl⟩
  | fault r => rw [he] at h; cases h
  | refused r => rw [he] at h; cases h

/-! ### The register window and the host -/

/-- The first and the last register of every block. -/
theorem witness_RegisterMapIsExact : ([0x000, 0x034, 0x400, 0x7FC, 0x800, 0xBFC, 0x1000, 0x2FFC, 0x3000, 0x3FF4, 0x4000,
    0x413C].all fun off => off % 4 == 0 && (regAt off).isSome) = true := by decide

theorem witness_HostReadsChangeNothing : (0x413C : Word).toNat % 4 = 0 ∧ AccessSize.byte ≠ .word ∧
    (0x413E : Word).toNat % 4 ≠ 0 := by decide

theorem witness_HostWritesOnlyOperandRegisters : small.wf = true ∧
    ([0x00C, 0x028, 0x02C, 0x004, 0xFFFFFFFC].all fun off : Word => off != 0 && off.toNat % 4 == 0) = true ∧
    AccessSize.half ≠ .word ∧ (0xFFFFFFFF : Word).toNat % 4 ≠ 0 := by decide

/-- 00_scope.md R6: a register of a narrow core keeps the low bits. -/
theorem test_narrow_registers : (match hostAccess (.writeReg .word 0x00C 0x1F) (State.resetWith small) with
    | .next t => some t.inLen
    | _ => none) = some 0xF := by decide +kernel

/-- A leaf and an Internal record; a code entry; the last bit of each table; the widest values that still fit (the last
clause of `WindowImages` has `working_inv`). -/
theorem witness_WindowImages : built.node[(0 : Fin 511).val]? = some (.leaf 1 0x61) ∧
    built.node[(2 : Fin 511).val]? = some (.internal 2 0 1) ∧
    (codeTable treeAB)[(0x62 : Byte).toNat]? = some ⟨1, [true]⟩ ∧ 255 < 256 ∧ 2559 < 2560 ∧
    (let s := { State.resetWith wide with inLen := 2 ^ 32 - 1, encBits := 2 ^ 64 - 1 };
      s.inLen < 2 ^ 32 ∧ s.encBits < 2 ^ 64) := by
  refine ⟨?_, ?_, ?_, by decide, by decide, by decide, by decide⟩ <;> decide +kernel

theorem witness_HostReadsOut : let s := { State.reset with
      outMem := [(0, 0xAB)], outLen := 1, status := { Status.zero with outValid := true } };
    s.status.outValid = true ∧ 0 < s.outLen ∧ s.outMem.read 0 = some 0xAB := by decide

theorem witness_HostWritesIn : 0xFFFFFFFE < Params.default.inCap ∧ Params.default.inCap ≤ 0xFFFFFFFF := by
  decide

theorem witness_WrinLoadsTheInput : let s := { State.reset with script := expand 0 (.wrin [0x61, 0x62]) ++ [Txn.reset] };
    s.params.wf = true ∧ s.deser = none ∧ [0x61, 0x62].length ≤ s.params.inCap ∧ [0x61, 0x62].length < 2 ^ 32 ∧
    s.script = expand 0 (.wrin [0x61, 0x62]) ++ [.reset] :=
  ⟨by decide, rfl, by decide, by decide, rfl⟩

theorem witness_ResetForgetsEverything : let s := { built with script := [.reset] };
    s.deser = none ∧ s.script = Txn.reset :: [] := ⟨rfl, rfl⟩

/-! ### The invariant -/

theorem witness_InvHoldsAtReset : small.wf = true := by decide

/-- A core that holds a tree, its code table and its bits, with a byte of output: every clause of the invariant says
something about it. -/
def working : State :=
  { built with
    freq := freqAB, symCount := 2, code := codeTable treeAB, tbits := serialize treeAB, tbc := 19,
    inMem := [(0, 0x61), (1, 0x62)], inLen := 2, outMem := [(0, 0x40)], outLen := 1,
    script := [.writeReg .word 0 0xC, .writeIn 0xFFFFFFFE 0] }

theorem reset_widths : WidthsOk State.reset :=
  ⟨by decide, by decide, by decide, by decide, by decide, fun x => by
      show freqOf emptyCounts.freq x < _; rw [emptyCounts_freq]; decide,
    List.length_replicate, fun i n hn => by
      simp only [State.reset, State.resetWith, List.getElem?_replicate] at hn
      split at hn <;> cases hn
      decide⟩

theorem working_widths : WidthsOk working := by
  obtain ⟨-, -, -, -, -, -, h7, h8⟩ := reset_widths.putTree (records := [.leaf 1 0x61, .leaf 1 0x62, .internal 2 0 1]) 2
    (by decide)
  exact ⟨by decide, by decide, by decide, by decide, by decide,
    freqOf_histogram_lt (Params.ok_of_wf Params.default_wf) _ (by decide), h7, h8⟩

theorem working_inv : Inv working := by
  refine ⟨by decide, working_widths, rfl, ⟨by decide, by decide, by decide, by decide⟩, fun _ => ?_, fun _ => ?_, fun _ => built_tree.2,
    codeOk_table treeAB (Params.ok_of_wf Params.default_wf) (by decide) rfl, ⟨by decide, by decide⟩, ⟨by decide, rfl⟩,
    noAbsent, noAbsent, noAbsent, noAbsent, noAbsent, noAbsent⟩
  · intro i hi
    have : i < 1 := hi
    interval_cases i; rfl
  · exact witness_BuildMakesTheTree.2.2.1

theorem witness_StepKeepsInv : Inv working ∧ ∃ t, step { working with script := [] } = .next t :=
  ⟨working_inv, _, rfl⟩

theorem witness_EveryCommandEnds : Inv working ∧ Instr.isCommand .compress = true := ⟨working_inv, rfl⟩

theorem witness_StepNeverStops : Inv working ∧ ∀ x, working.script.head? = some x → x.wf working.params = true := by
  refine ⟨working_inv, ?_⟩
  intro x hx
  cases hx; decide

end Sys2Proof.Tests
end

section
/-! PROOFS of the statements of 00_scope.md. What a step does in a core between commands, one equation per case of the
host's next transaction, and that each case keeps the invariant and the parameters. -/

namespace Sys2Proof.Machine

/-! ## A step between commands -/

/-- With nothing to do the core holds its state (60_exceptions.md R224). -/
theorem step_of_script_nil {s : State} (hd : s.deser = none) (hs : s.script = []) : step s = .next s := by
  simp only [step, fetch, hd, hs]

/-- A legal word written to `CMD` runs its command (10_state.md R34, 40_control.md R100). -/
theorem step_of_legal_word {s : State} {x : Txn} {rest : List Txn} {w : Word} {i : Instr} (hd : s.deser = none)
    (hs : s.script = x :: rest) (hw : commandWord? x = some w) (hi : decodeCmd w = .ok i) :
    step s = exec i { takeTxn rest s with cmd := w } := by
  simp only [step, fetch, hd, hs, hw, fetchCommand, hi]

/-- An illegal word written to `CMD` starts no command (60_exceptions.md R213). -/
theorem step_of_illegal_word {s : State} {x : Txn} {rest : List Txn} {w : Word} {e : DecodeError} (hd : s.deser = none)
    (hs : s.script = x :: rest) (hw : commandWord? x = some w) (he : decodeCmd w = .error e) :
    step s = .next (illegalCommand { takeTxn rest s with cmd := w }) := by
  simp only [step, fetch, hd, hs, hw, fetchCommand, he]

/-- Every other transaction is performed on the host's side (20_memory.md R68). -/
theorem step_of_hostAccess {s : State} {x : Txn} {rest : List Txn} (hd : s.deser = none) (hs : s.script = x :: rest)
    (hw : commandWord? x = none) : step s = hostAccess x (takeTxn rest s) := by
  simp only [step, fetch, hd, hs, hw]

/-! ## Each case keeps the invariant -/

/-- Reset meets the invariant: every valid flag is 0 and every product all-zero (10_state.md R42). -/
theorem inv_resetWith {p : Params} (hwf : p.wf = true) : Inv (State.resetWith p) := by
  have hfreq : ∀ x, freqOf (State.resetWith p).freq x < 2 ^ p.cntW := by
    intro x
    rw [show freqOf (State.resetWith p).freq x = 0 from freqOf_zero x]
    exact Nat.two_pow_pos _
  have hnode : ∀ (i : Nat) (n : Node), (State.resetWith p).node[i]? = some n → n.weight < 2 ^ p.cntW := by
    intro i n hn
    rw [List.eq_of_mem_replicate (List.mem_of_getElem? hn)]
    exact Nat.two_pow_pos _
  have hpos : ∀ w, 0 < 2 ^ w := Nat.two_pow_pos
  exact {
    params := hwf
    widths := ⟨hpos _, hpos _, hpos _, hpos _, hpos _, hfreq, List.length_replicate, hnode⟩
    idle := rfl
    buffers := ⟨rfl, rfl, fun _ h => absurd h List.not_mem_nil, fun _ h => absurd h List.not_mem_nil⟩
    out := Bool.noConfusion
    freq := Bool.noConfusion
    tree := Bool.noConfusion
    code := codeOk_absent (Params.ok_of_wf hwf) rfl
    tbits := ⟨rfl, Nat.zero_le _⟩
    status := ⟨fun h => Bool.noConfusion h.1, rfl⟩
    absent := absentOk_cleared (State.resetWith p) Status.zero none }

/-- Taking a transaction from the script keeps the invariant. -/
theorem inv_takeTxn {s : State} (rest : List Txn) (h : Inv s) : Inv (takeTxn rest s) :=
  inv_congr h rfl h.widths h.idle h.buffers rfl rfl rfl rfl rfl rfl rfl rfl rfl rfl rfl rfl rfl rfl

/-- The word in `CMD` is no part of the invariant. -/
theorem inv_setCmd {s : State} (w : Word) (h : Inv s) : Inv { s with cmd := w } :=
  inv_congr h rfl h.widths h.idle h.buffers rfl rfl rfl rfl rfl rfl rfl rfl rfl rfl rfl rfl rfl rfl

/-- An illegal word is an interface error (60_exceptions.md R213), so it keeps the invariant. -/
theorem inv_illegalCommand {s : State} (h : Inv s) : Inv (illegalCommand s) := by
  rw [illegalCommand, interfaceError_beginCommand]
  exact inv_interfaceError .illegalCommand h

/-- A command in a state with the invariant ends, in a state with the invariant and the same parameters: it is out of
sequence, or its body raises, or its body ends in a state with the invariant (40_control.md R100). -/
theorem exec_command_inv {i : Instr} {s : State} (hi : i.isCommand = true) (h : Inv s) :
    ∃ t, exec i s = .next t ∧ Inv t ∧ t.params = s.params := by
  obtain ⟨ready, flags, body, hc, hexec⟩ := exec_eq_runCommand hi
  simp only [hexec]
  cases hr : ready s.status.started with
  | false => exact ⟨_, runCommand_sequence hr, inv_interfaceError _ h, rfl⟩
  | true =>
    rcases body_inv hc h hr with ⟨e, hb⟩ | ⟨u, hb, hu⟩
    · exact ⟨_, runCommand_raise hr hb, inv_callError e h, rfl⟩
    · exact ⟨_, runCommand_ok hr hb, hu, (body_kept hc hb).params⟩

/-- A command word written to `CMD`, legal or not, leaves a state with the invariant and the same parameters. -/
theorem step_command_inv {s : State} {x : Txn} {rest : List Txn} {w : Word} (h : Inv s) (hs : s.script = x :: rest)
    (hw : commandWord? x = some w) : ∃ t, step s = .next t ∧ Inv t ∧ t.params = s.params := by
  have hrun : Inv { takeTxn rest s with cmd := w } := inv_setCmd w (inv_takeTxn rest h)
  cases hi : decodeCmd w with
  | ok i =>
    rw [step_of_legal_word h.idle hs hw hi]
    exact exec_command_inv (isCommand_of_decodeCmd hi) hrun
  | error e => exact ⟨_, step_of_illegal_word h.idle hs hw hi, inv_illegalCommand hrun, rfl⟩

/-- Settles O58, by cases on what the host has to do: nothing, a command word, or a transaction that starts no command.
No token can be next, since the invariant has no deserialization in progress. -/
theorem stepKeepsInv : Obligations.StepKeepsInv := by
  intro s t h hstep
  cases hs : s.script with
  | nil =>
    rw [step_of_script_nil h.idle hs] at hstep
    obtain rfl := next_inj hstep
    exact ⟨h, rfl⟩
  | cons x rest =>
    cases hw : commandWord? x with
    | some w =>
      obtain ⟨u, hu, hinv, hparams⟩ := step_command_inv h hs hw
      obtain rfl := next_inj (hu.symm.trans hstep)
      exact ⟨hinv, hparams⟩
    | none =>
      rw [step_of_hostAccess h.idle hs hw] at hstep
      have htaken : Inv (takeTxn rest s) := inv_takeTxn rest h
      exact ⟨hostAccess_inv (inv_resetWith htaken.params) htaken hstep, hostAccess_params (s := takeTxn rest s) hstep⟩

end Sys2Proof.Machine
end

section
/-! PROOFS of the statements of 10_state.md. The step equations of a deserialization, the ends of a command, what the engine
never writes, the host's accesses to the register window, what the window shows of each field, and reset. -/

namespace Sys2Proof.Machine

/-! ## A step -/

/-- Only a word write at offset 0 is a command word (10_state.md R34). -/
theorem eq_writeReg_of_commandWord? {x : Txn} {w : Word} (h : commandWord? x = some w) : x = .writeReg .word 0 w := by
  unfold commandWord? at h
  split at h
  next off v =>
    split at h
    next hoff => rw [hoff, Option.some.inj h]
    next => cases h
  next => cases h

/-- A transaction that writes no command word (20_memory.md R68). -/
theorem commandWord?_eq_none {x : Txn} (h : ∀ w, x ≠ .writeReg .word 0 w) : commandWord? x = none :=
  Option.eq_none_iff_forall_ne_some.mpr fun w hw => h w (eq_writeReg_of_commandWord? hw)

/-- The next token of a deserialization in progress runs with its bits consumed (44_tree_codec.md R150). -/
theorem step_of_token {s : State} {c : DeserCtx} {i : Instr} {bits : BitSeq} (hd : s.deser = some c)
    (ht : decodeToken c.bits = .ok (i, bits)) : step s = exec i { s with deser := some { c with bits := bits } } := by
  rw [step_token hd, ht]

/-- Bits that are no whole token end a deserialization in progress (44_tree_codec.md R151). -/
theorem step_of_no_token {s : State} {c : DeserCtx} {e : DecodeError} (hd : s.deser = some c)
    (ht : decodeToken c.bits = .error e) : step s = .next (failDeserialize s) := by
  rw [step_token hd, ht]

/-- Settles O6, one equation of `step` per case of what there is to do. -/
theorem stepRunsTheDecodedInstruction : Obligations.StepRunsTheDecodedInstruction :=
  ⟨fun _ _ _ _ hd hs hi => step_of_legal_word hd hs rfl hi,
    fun _ _ _ hd hs hx => step_of_hostAccess hd hs (commandWord?_eq_none hx),
    fun _ hd hs => step_of_script_nil hd hs,
    fun _ _ _ _ hd ht => step_of_token hd ht,
    fun _ _ _ hd ht => step_of_no_token hd ht⟩

/-! ## What a command leaves -/

/-- Settles O41, by the three ends of a command: out of sequence, a raise, success. -/
theorem exactlyOneOfDoneAndErr : Obligations.ExactlyOneOfDoneAndErr := by
  intro i s t hi h
  obtain ⟨_, flags, _, _, hend⟩ := exec_command_next hi h
  rcases hend with ⟨_, rfl⟩ | ⟨e, _, rfl⟩ | ⟨u, _, hkept, rfl⟩
  · exact ⟨rfl, rfl⟩
  · exact ⟨rfl, rfl⟩
  · exact ⟨rfl, (statusOk_succeeded u (flags u u.status) hkept).2⟩

/-- No command writes the operands or the parameters (10_state.md R21, R32). -/
theorem command_operands {i : Instr} {s t : State} (hi : i.isCommand = true) (h : exec i s = .next t) :
    t.inMem = s.inMem ∧ t.inLen = s.inLen ∧ t.dataLimit = s.dataLimit ∧ t.params = s.params := by
  obtain ⟨_, _, _, _, hend⟩ := exec_command_next hi h
  rcases hend with ⟨_, rfl⟩ | ⟨e, _, rfl⟩ | ⟨u, _, hkept, rfl⟩
  · exact ⟨rfl, rfl, rfl, rfl⟩
  · exact ⟨rfl, rfl, rfl, rfl⟩
  · exact ⟨hkept.inMem, hkept.inLen, hkept.dataLimit, hkept.params⟩

/-- Settles O43: a command keeps what no body writes, a token what placing a node leaves alone. -/
theorem engineNeverWritesItsOperands : Obligations.EngineNeverWritesItsOperands := by
  intro i s t h
  cases hi : i.isCommand with
  | true => exact command_operands hi h
  | false =>
    obtain ⟨hparams, hinMem, hinLen, hdataLimit, _⟩ := token_operands hi h
    exact ⟨hinMem, hinLen, hdataLimit, hparams⟩

/-! ## Which bodies leave the cells of `OUT` -/

/-- A body that reads `TREE` succeeds only where the records are a tree. -/
theorem withTree_ok {s t : State} {k : Tree → Body} (h : withTree s k = .ok t) :
    ∃ u, treeOperand s = some u ∧ k u = .ok t := by
  rw [withTree] at h
  split at h
  next => cases h
  next u hu => exact ⟨u, hu, h⟩

theorem bodyCount_outMem {s t : State} (h : bodyCount s = .ok t) : t.outMem = s.outMem := by
  obtain ⟨_, hk⟩ := withInput_ok h
  cases hk; rfl

theorem bodyBuild_outMem {s t : State} (h : bodyBuild s = .ok t) : t.outMem = s.outMem := by
  rw [bodyBuild] at h
  split at h
  next => cases h
  next => cases h; rfl

theorem bodyGencode_outMem {s t : State} (h : bodyGencode s = .ok t) : t.outMem = s.outMem := by
  obtain ⟨_, _, hk⟩ := withTree_ok h
  cases hk; rfl

theorem bodySerialize_outMem {s t : State} (h : bodySerialize s = .ok t) : t.outMem = s.outMem := by
  obtain ⟨_, _, hk⟩ := withTree_ok h
  cases hk; rfl

theorem bodyUnpack_outMem {s t : State} (h : bodyUnpack s = .ok t) : t.outMem = s.outMem := by
  obtain ⟨_, hk⟩ := withInput_ok h
  split at hk
  next => cases hk
  next => cases hk; rfl

theorem bodyParse_outMem {s t : State} (h : bodyParse s = .ok t) : t.outMem = s.outMem := by
  rcases bodyParse_cases s with hb | hb | ⟨_, _, _, _, hb⟩
  · cases hb.symm.trans h
  · cases hb.symm.trans h
  · cases hb.symm.trans h; rfl

theorem bodyDeserialize_outMem {s t : State} (h : bodyDeserialize s = .ok t) : t.outMem = s.outMem := by
  rw [bodyDeserialize] at h
  split at h
  next => cases h
  next => cases h; rfl

/-- The instructions that write `OUT` (20_memory.md R74). -/
def writesOut : Instr → Bool
  | .pack | .emit | .decode _ | .compress | .decompress _ => true
  | _ => false

/-- The Pseudocode of every other command leaves the cells of `OUT` (10_state.md R22). -/
theorem body_outMem {i : Instr} {ready flags body} (hc : commandOf i = some (ready, flags, body))
    (hout : writesOut i = false) {s t : State} (h : body s = .ok t) : t.outMem = s.outMem := by
  cases i <;> cases hc
  case nop => cases h; rfl
  case clear => cases h; rfl
  case count => exact bodyCount_outMem h
  case build => exact bodyBuild_outMem h
  case gencode => exact bodyGencode_outMem h
  case serialize => exact bodySerialize_outMem h
  case unpack => exact bodyUnpack_outMem h
  case parse => exact bodyParse_outMem h
  case deserialize => exact bodyDeserialize_outMem h
  case pack | emit | decode | compress | decompress => cases hout

/-- An instruction that does not write `OUT` leaves its cells, also where it ends with an error (notes/assumptions/10.md). -/
theorem exec_outMem {i : Instr} {s t : State} (hout : writesOut i = false) (h : exec i s = .next t) :
    t.outMem = s.outMem := by
  cases hi : i.isCommand with
  | false =>
    obtain ⟨_, _, _, _, houtMem⟩ := token_operands hi h
    exact houtMem
  | true =>
    obtain ⟨_, _, _, hc, hend⟩ := exec_command_next hi h
    rcases hend with ⟨_, rfl⟩ | ⟨_, _, rfl⟩ | ⟨u, hb, _, rfl⟩
    · rfl
    · rfl
    · have hbody : u.outMem = (beginCommand s).outMem := body_outMem hc hout hb
      exact hbody

/-- Settles O44: the five instructions the statement leaves out are those `writesOut` names. -/
theorem onlyFiveCommandsWriteOut : Obligations.OnlyFiveCommandsWriteOut := by
  intro i s t h hpack hemit hdecode hcompress hdecompress a
  have hout : writesOut i = false := by
    cases i with
    | pack => exact absurd rfl hpack
    | emit => exact absurd rfl hemit
    | decode lim => exact absurd rfl (hdecode lim)
    | compress => exact absurd rfl hcompress
    | decompress lim => exact absurd rfl (hdecompress lim)
    | _ => rfl
  rw [exec_outMem hout h]

/-! ## The register map -/

/-- Settles O47: the map and its inverse are `regAt_regOffset` and `regOffset_of_regAt`; the offsets written out are those of
`regOffset`. -/
theorem registerMapIsExact : Obligations.RegisterMapIsExact := by
  have hat : ∀ r, regAt (regOffset r) = some r := fun r => (regAt_regOffset r).1
  exact ⟨regAt_regOffset, fun _ _ => regOffset_of_regAt, hat .cmd, hat .status, hat .errcode, hat .inLen, hat .outLen,
    hat .tbc, hat .root, hat .nodeCount, hat .encBitsLo, hat .encBitsHi, hat .dataLimitLo, hat .dataLimitHi, hat .dataOff,
    hat .symCount, fun x => ⟨hat (.freq x), hat (.codeLen x)⟩, fun x w => hat (.codeBits x w),
    fun i => ⟨hat (.node i false), hat (.node i true)⟩, fun w => hat (.tbits w)⟩

/-- The window ends at 0x4140 (10_state.md R37). -/
theorem regOffset_lt (r : Reg) : regOffset r < 0x4140 := by
  cases r with
  | freq x | codeLen x => have := x.isLt; simp only [regOffset]; omega
  | codeBits x w => have := x.isLt; have := w.isLt; simp only [regOffset]; omega
  | node i second => have := i.isLt; have := second.toNat_le; simp only [regOffset]; omega
  | tbits w => have := w.isLt; simp only [regOffset]; omega
  | _ => decide

/-- An aligned offset reaches a register exactly when it is the register's own (10_state.md R37). -/
theorem regAt_eq_some_iff {off : Word} (h4 : off.toNat % 4 = 0) (r : Reg) :
    regAt off.toNat = some r ↔ off = BitVec.ofNat 32 (regOffset r) := by
  constructor
  · intro h
    rw [regOffset_of_regAt h4 h, BitVec.ofNat_toNat, BitVec.setWidth_eq]
  · intro h
    have hlt := regOffset_lt r
    have hoff : off.toNat = regOffset r := by rw [h, BitVec.toNat_ofNat]; omega
    rw [hoff]
    exact (regAt_regOffset r).1

/-! ## Host accesses to the window -/

section
variable {off : Word} {k : Option Reg → State}

theorem regAccess_word (h4 : off.toNat % 4 = 0) : regAccess .word off k = .next (k (regAt off.toNat)) := by
  simp only [regAccess, h4, ne_eq, not_true_eq_false, if_false]

theorem regAccess_narrow {size : AccessSize} (h : size ≠ .word) : regAccess size off k = .refused .regAccessNarrow :=
  if_pos h

theorem regAccess_misaligned (h : off.toNat % 4 ≠ 0) : regAccess .word off k = .refused .regAccessMisaligned := by
  simp only [regAccess, ne_eq, not_true_eq_false, if_false]
  exact if_pos h

end

/-- Settles O48: the access check, then the register or 0. -/
theorem hostReadsChangeNothing : Obligations.HostReadsChangeNothing := by
  intro s size off
  rw [hostAccess]
  refine ⟨?_, fun hsize => regAccess_narrow hsize, ?_⟩
  · rintro rfl h4
    rw [regAccess_word h4]
    cases regAt off.toNat <;> rfl
  · rintro rfl h4
    exact regAccess_misaligned h4

/-- What a host write changes, by the register it reaches (10_state.md R38, R32). -/
theorem writeReg_eq (s : State) (v : Word) (r : Reg) : writeReg s v r = { s with
    inLen := if r = .inLen then lenWord s.params v.toNat else s.inLen
    dataLimit := if r = .dataLimitLo then bitCount s.params (2 ^ 32 * (s.dataLimit / 2 ^ 32) + v.toNat)
      else if r = .dataLimitHi then bitCount s.params (2 ^ 32 * v.toNat + s.dataLimit % 2 ^ 32)
      else s.dataLimit } := by
  cases r <;> rfl

/-- The same by offset: an aligned word written outside `CMD` (20_memory.md R65). -/
theorem hostAccess_writeReg_word {s : State} {off v : Word} (h4 : off.toNat % 4 = 0) :
    hostAccess (.writeReg .word off v) s = .next { s with
      inLen := if off = 0x00C then lenWord s.params v.toNat else s.inLen
      dataLimit := if off = 0x028 then bitCount s.params (2 ^ 32 * (s.dataLimit / 2 ^ 32) + v.toNat)
        else if off = 0x02C then bitCount s.params (2 ^ 32 * v.toNat + s.dataLimit % 2 ^ 32)
        else s.dataLimit } := by
  have hinLen : regAt off.toNat = some .inLen ↔ off = 0x00C := regAt_eq_some_iff h4 .inLen
  have hlo : regAt off.toNat = some .dataLimitLo ↔ off = 0x028 := regAt_eq_some_iff h4 .dataLimitLo
  have hhi : regAt off.toNat = some .dataLimitHi ↔ off = 0x02C := regAt_eq_some_iff h4 .dataLimitHi
  rw [hostAccess, regAccess_word h4]
  simp only [← hinLen, ← hlo, ← hhi]
  cases regAt off.toNat with
  | none => rfl
  | some r => simp only [writeReg_eq, Option.some.injEq]

/-- Settles O49. `CMD` is left out of the statement; here a write that reaches it would change nothing either. -/
theorem hostWritesOnlyOperandRegisters : Obligations.HostWritesOnlyOperandRegisters := by
  refine ⟨fun s off v _ h4 => ⟨_, hostAccess_writeReg_word h4, rfl, rfl, rfl⟩, fun s size off v => ?_⟩
  rw [hostAccess]
  refine ⟨?_, ?_⟩
  · exact fun hsize => regAccess_narrow hsize
  · rintro rfl h4
    exact regAccess_misaligned h4

/-! ## What the window shows -/

/-- Settles O51: `STATUS` always shows its image, whose bits `Status.image_getLsbD` gives. -/
theorem statusImage : Obligations.StatusImage := by
  intro s n
  rw [readReg_of_image (s := s) (r := .status) rfl]
  exact Status.image_getLsbD s.status n

/-- `ERRCODE` always shows its image (10_state.md R36). -/
theorem readReg_errcode (s : State) : readReg s .errcode = errcodeImage s.errcode := readReg_of_image rfl

theorem readReg_freq {s : State} {x : Byte} (h : freqOf s.freq x < 2 ^ 32) :
    (readReg s (.freq x)).toNat = freqOf s.freq x := readReg_toNat rfl h

/-- The low word of a value of two words always fits (10_state.md R31, R32). -/
theorem readReg_low {s : State} {r : Reg} {n : Nat} (h : regImage s r = wordImage (n % 2 ^ 32)) :
    (readReg s r).toNat = n % 2 ^ 32 := readReg_toNat h (Nat.mod_lt n (by decide))

/-- The high word of a value below 2^64 fits (10_state.md R31, R32). -/
theorem readReg_high {s : State} {r : Reg} {n : Nat} (h : regImage s r = wordImage (n / 2 ^ 32)) (hn : n < 2 ^ 64) :
    (readReg s r).toNat = n / 2 ^ 32 := readReg_toNat h (by omega)

theorem toNat_append_eq_add {m n : Nat} (x : BitVec m) (y : BitVec n) :
    (x ++ y).toNat = x.toNat * 2 ^ n + y.toNat := by
  rw [BitVec.toNat_append, ← Nat.shiftLeft_add_eq_or_of_lt y.isLt, Nat.shiftLeft_eq]

section
variable {s : State} {i : Fin 511} {n : Node}

/-- Word 0 of a record shows its weight (10_state.md R26). -/
theorem readReg_node_word0 (h : s.node[i.val]? = some n) (hw : n.weight < 2 ^ 32) :
    (readReg s (.node i false)).toNat = n.weight := by
  refine readReg_toNat ?_ hw
  simp only [regImage, List.getD_eq_getElem?_getD, h, Option.getD_some]
  cases n <;> rfl

/-- Word 1 of a record (10_state.md R26). -/
theorem regImage_node_word1 (h : s.node[i.val]? = some n) : regImage s (.node i true) = n.word1 := by
  simp only [regImage, List.getD_eq_getElem?_getD, h, Option.getD_some, if_true]

end

/-- A Leaf shows its kind and its symbol (10_state.md R26). -/
theorem readReg_leaf_word1 {s : State} {i : Fin 511} {w : Nat} {x : Byte} (h : s.node[i.val]? = some (.leaf w x)) :
    (readReg s (.node i true)).toNat = 2 ^ 31 + x.toNat := by
  rw [readReg_of_image (regImage_node_word1 h)]
  simp only [toNat_append_eq_add]
  rfl

/-- An Internal record shows its children where their indices fit 9 bits (10_state.md R26). -/
theorem readReg_internal_word1 {s : State} {i : Fin 511} {w l r : Nat} (h : s.node[i.val]? = some (.internal w l r))
    (hl : l < 512) (hr : r < 512) : (readReg s (.node i true)).toNat = l * 2 ^ 16 + r := by
  rw [readReg_of_image ((regImage_node_word1 h).trans (if_pos ⟨hl, hr⟩))]
  simp only [toNat_append_eq_add, BitVec.ofNat_eq_ofNat, BitVec.toNat_ofNat]
  omega

/-- An entry of the code table, as the window reads it. -/
theorem code_getD {s : State} {x : Byte} {e : CodeEntry} (h : s.code[x.toNat]? = some e) :
    s.code.getD x.toNat CodeEntry.absent = e := by
  obtain ⟨hx, he⟩ := Vector.getElem?_eq_some_iff.mp h
  simp [Vector.getD, ← he, hx]

section
variable {s : State} {x : Byte} {e : CodeEntry}

/-- The length of a code that fits 8 bits (10_state.md R28, R29). -/
theorem readReg_codeLen (h : s.code[x.toNat]? = some e) (hl : e.len ≤ 255) : (readReg s (.codeLen x)).toNat = e.len := by
  have himage : regImage s (.codeLen x) = some (BitVec.ofNat 32 e.len) := by
    rw [regImage, code_getD h, CodeEntry.lenImage, if_pos (by omega)]
  rw [readReg_of_image himage, BitVec.toNat_ofNat]
  omega

/-- The bits of a code that fits 255 bits (10_state.md R28, R29). -/
theorem readReg_codeBits (h : s.code[x.toNat]? = some e) (hl : e.bits.length ≤ 255) (w : Fin 8) :
    readReg s (.codeBits x w) = windowWord e.bits w.val := by
  refine readReg_of_image ?_
  rw [regImage, code_getD h, CodeEntry.bitsImage, if_pos hl]

end

/-- Bit `j` of a bit sequence, in the word of the window that shows it (10_state.md R29, R30). -/
theorem windowWord_bit (b : BitSeq) (j : Nat) : (windowWord b (j / 32)).getLsbD (31 - j % 32) = b.getD j false := by
  rw [windowWord_getLsbD b (j / 32) (j % 32) (Nat.mod_lt j (by decide)), Nat.div_add_mod]

/-! ## The records of a tree name records of the tree -/

section
variable {node : List Node} {f i w l r : Nat}

theorem visited_leaf {x : Byte} (h : node[i]? = some (.leaf w x)) : visited node (f + 1) i = [i] := by
  simp only [visited, h]

theorem visited_internal (h : node[i]? = some (.internal w l r)) :
    visited node (f + 1) i = i :: (visited node f l ++ visited node f r) := by
  simp only [visited, h]

/-- Both children of an Internal record of a tree are trees. -/
theorem treeOf_internal {t : Tree} (h : node[i]? = some (.internal w l r)) (ht : treeOf node (f + 1) i = some t) :
    (∃ tl, treeOf node f l = some tl) ∧ ∃ tr, treeOf node f r = some tr := by
  simp only [treeOf, h] at ht
  cases hl : treeOf node f l with
  | none => simp only [hl] at ht; cases ht
  | some tl =>
    cases hr : treeOf node f r with
    | none => simp only [hl, hr] at ht; cases ht
    | some tr => exact ⟨⟨tl, rfl⟩, tr, rfl⟩

/-- A tree visits its root. -/
theorem mem_visited_root {t : Tree} (ht : treeOf node f i = some t) : i ∈ visited node f i := by
  cases f with
  | zero => cases ht
  | succ f =>
    cases h : node[i]? with
    | none => simp only [treeOf, h] at ht; cases ht
    | some n => cases n with
      | leaf w x => simp only [visited_leaf h, List.mem_singleton]
      | internal w l r => simp only [visited_internal h, List.mem_cons, true_or]

end

/-- A tree visits both children of every Internal record it visits. -/
theorem visited_children {node : List Node} {j w l r : Nat} (hn : node[j]? = some (.internal w l r)) (f i : Nat) {t : Tree}
    (ht : treeOf node f i = some t) (hj : j ∈ visited node f i) : l ∈ visited node f i ∧ r ∈ visited node f i := by
  induction f generalizing i t with
  | zero => cases ht
  | succ f ih =>
    cases hi : node[i]? with
    | none => simp only [treeOf, hi] at ht; cases ht
    | some n => cases n with
      | leaf w' x =>
        rw [visited_leaf hi, List.mem_singleton] at hj
        rw [hj, hi] at hn
        cases hn
      | internal w' l' r' =>
        obtain ⟨⟨tl, hl⟩, tr, hr⟩ := treeOf_internal hi ht
        simp only [visited_internal hi, List.mem_cons, List.mem_append] at hj ⊢
        rcases hj with rfl | hj | hj
        · rw [hi] at hn
          cases hn
          exact ⟨.inr (.inl (mem_visited_root hl)), .inr (.inr (mem_visited_root hr))⟩
        · obtain ⟨h1, h2⟩ := ih l' hl hj
          exact ⟨.inr (.inl h1), .inr (.inl h2)⟩
        · obtain ⟨h1, h2⟩ := ih r' hr hj
          exact ⟨.inr (.inr h1), .inr (.inr h2)⟩

/-- While `TREE_VALID` = 1 the root and every child index name one of the `NODE_COUNT` records (10_state.md R25). -/
theorem treeOk_indices {s : State} (h : TreeOk s) : s.root < s.nodeCount ∧
    ∀ i w l r : Nat, i < s.nodeCount → s.node[i]? = some (.internal w l r) → l < s.nodeCount ∧ r < s.nodeCount := by
  obtain ⟨t, ht, _, _, _, hperm, _⟩ := h
  have hmem : ∀ j, j ∈ visited s.node s.nodeCount s.root ↔ j < s.nodeCount := fun j =>
    hperm.mem_iff.trans List.mem_range
  refine ⟨(hmem _).mp (mem_visited_root ht), fun i w l r hi hn => ?_⟩
  obtain ⟨hl, hr⟩ := visited_children hn _ _ ht ((hmem i).mpr hi)
  exact ⟨(hmem l).mp hl, (hmem r).mp hr⟩

/-- A tree whose bits fit 2560 has at most 256 leaves, so at most 511 records (44_tree_codec.md R147). -/
theorem treeOk_nodeCount_le {s : State} (h : TreeOk s) (hcap : s.params.tbitsCap ≤ 2560) : s.nodeCount ≤ 511 := by
  obtain ⟨t, _, hsize, _, hbits, _, _⟩ := h
  have hlen := length_serialize t
  have hnodes := t.size_eq
  omega

/-- Above `NODE_COUNT` there are only all-zero records, with `TREE_VALID` = 0 none other at all (10_state.md R25, R42). -/
theorem inv_node_zero {s : State} (h : Inv s) {i : Nat} {n : Node} (hi : s.nodeCount ≤ i) (hn : s.node[i]? = some n) :
    n = Node.zero := by
  cases htree : s.status.treeValid with
  | true =>
    obtain ⟨_, _, _, _, _, _, habove⟩ := h.tree htree
    obtain ⟨_, _, _, _, _, _, hlength, _⟩ := h.widths
    have hlt : i < s.params.nodeCap := hlength ▸ (List.getElem?_eq_some_iff.mp hn).1
    exact Option.some.inj (hn.symm.trans (habove i hi hlt))
  | false =>
    obtain ⟨_, hnone, _⟩ := h.absent
    obtain ⟨hnode, _, _⟩ := hnone htree
    rw [hnode] at hn
    exact List.eq_of_mem_replicate (List.mem_of_getElem? hn)

/-- `ROOT` and `NODE_COUNT` fit their fields of the window at the default `TBITS_CAP` (10_state.md R24, R37). -/
theorem inv_root_nodeCount {s : State} (h : Inv s) (hcap : s.params.tbitsCap ≤ 2560) :
    s.root < 512 ∧ s.nodeCount ≤ 511 := by
  cases htree : s.status.treeValid with
  | true =>
    have hcount := treeOk_nodeCount_le (h.tree htree) hcap
    have hroot := (treeOk_indices (h.tree htree)).1
    exact ⟨by omega, hcount⟩
  | false =>
    obtain ⟨_, hnone, _⟩ := h.absent
    obtain ⟨_, hcount, hroot⟩ := hnone htree
    exact ⟨by omega, by omega⟩

/-- So do the child indices of every record (10_state.md R26). -/
theorem inv_child_indices {s : State} (h : Inv s) (hcap : s.params.tbitsCap ≤ 2560) {i w l r : Nat}
    (hn : s.node[i]? = some (.internal w l r)) : l < 512 ∧ r < 512 := by
  by_cases hi : i < s.nodeCount
  · obtain ⟨_, hcount⟩ := inv_root_nodeCount h hcap
    have htree : s.status.treeValid = true := by
      by_contra hfalse
      obtain ⟨_, hnone, _⟩ := h.absent
      obtain ⟨_, hzero, _⟩ := hnone (Bool.eq_false_iff.mpr hfalse)
      omega
    obtain ⟨hl, hr⟩ := (treeOk_indices (h.tree htree)).2 i w l r hi hn
    exact ⟨by omega, by omega⟩
  · cases inv_node_zero h (Nat.le_of_not_lt hi) hn
    exact ⟨by decide, by decide⟩

/-- The registers whose width a parameter gives fit the window at widths no greater than the defaults (00_scope.md R6). -/
theorem widthsOk_fits {s : State} (h : WidthsOk s) (hlen : s.params.lenW ≤ 32) (hcnt : s.params.cntW ≤ 32)
    (hbits : s.params.bitcntW ≤ 64) : s.inLen < 2 ^ 32 ∧ s.outLen < 2 ^ 32 ∧ s.dataOff < 2 ^ 32 ∧ s.encBits < 2 ^ 64 ∧
      s.dataLimit < 2 ^ 64 ∧ (∀ x, freqOf s.freq x < 2 ^ 32) ∧ ∀ n ∈ s.node, n.weight < 2 ^ 32 := by
  obtain ⟨hinLen, houtLen, hdataOff, hencBits, hdataLimit, hfreq, _, hweight⟩ := h
  have hle : ∀ {w n : Nat}, w ≤ n → 2 ^ w ≤ 2 ^ n := Nat.pow_le_pow_right (by decide)
  refine ⟨hinLen.trans_le (hle hlen), houtLen.trans_le (hle hlen), hdataOff.trans_le (hle hlen),
    hencBits.trans_le (hle hbits), hdataLimit.trans_le (hle hbits), fun x => (hfreq x).trans_le (hle hcnt), fun n hn => ?_⟩
  obtain ⟨i, hi⟩ := List.getElem?_of_mem hn
  exact (hweight i n hi).trans_le (hle hcnt)

/-- Codes fit the code table's window at the default `TBITS_CAP` (10_state.md R28). -/
theorem codeOk_fits {s : State} (h : CodeOk s) (hcap : s.params.tbitsCap ≤ 2560) {x : Byte} {e : CodeEntry}
    (he : s.code[x.toNat]? = some e) : e.len ≤ 255 ∧ e.bits.length = e.len := by
  obtain ⟨hentries, _⟩ := h
  obtain ⟨hlen, hdeep⟩ := hentries x.toNat e he
  exact ⟨by omega, hlen.symm⟩

/-- Settles O50: the image of each register, then that every value fits in a state with the invariant. -/
theorem windowImages : Obligations.WindowImages := by
  refine ⟨fun s => ?_, fun s i w x h => ⟨fun hw => readReg_node_word0 h hw, readReg_leaf_word1 h⟩,
    fun s i w l r h => ⟨fun hw => readReg_node_word0 h hw, readReg_internal_word1 h⟩,
    fun s x e h => ⟨readReg_codeLen h, fun hl j hj => ?_⟩, fun s j hj => ?_, fun s h hlen hcnt hbits hcap => ?_⟩
  · refine ⟨readReg_of_image rfl, ?_, readReg_toNat rfl, readReg_toNat rfl, readReg_toNat rfl, readReg_toNat rfl,
      readReg_toNat rfl, readReg_toNat rfl, readReg_toNat rfl (s.symCount.isLt.trans (by decide)), readReg_low rfl,
      readReg_high rfl, readReg_low rfl, readReg_high rfl, fun x => readReg_freq⟩
    rw [readReg_errcode]
    cases s.errcode with
    | none => rfl
    | some e => cases e <;> rfl
  · rw [readReg_codeBits h hl]
    exact windowWord_bit e.bits j
  · rw [readReg_of_image (s := s) (r := .tbits ⟨j / 32, by omega⟩) rfl]
    exact windowWord_bit s.tbits j
  · obtain ⟨hinLen, houtLen, hdataOff, hencBits, hdataLimit, hfreq, hweight⟩ := widthsOk_fits h.widths hlen hcnt hbits
    obtain ⟨htbc, htbits⟩ := h.tbits
    obtain ⟨hroot, hcount⟩ := inv_root_nodeCount h hcap
    exact ⟨hinLen, houtLen, by omega, hdataOff, hencBits, hdataLimit, hfreq, hweight, fun x e => codeOk_fits h.code hcap,
      hroot, hcount, fun i w l r => inv_child_indices h hcap, fun htree => treeOk_indices (h.tree htree)⟩

/-- In the valid part the host reads the cell (10_state.md R22). -/
theorem readOutByte_valid {s : State} {i : Nat} {c : Byte} (hv : s.status.outValid = true) (hi : i < s.outLen)
    (hc : s.outMem.read i = some c) : readOutByte s i = c := by
  simp only [readOutByte, hv, hi, decide_true, Bool.and_self, if_true, hc, Option.getD_some]

/-- Settles O52: the byte read is `readOutByte`. -/
theorem hostReadsOut : Obligations.HostReadsOut := fun s i => ⟨readOutByte s i, rfl, fun _ => readOutByte_valid⟩

/-! ## Reset -/

/-- Every register and table word shows 0 after reset (10_state.md R42). -/
theorem regImage_resetWith (p : Params) (r : Reg) : regImage (State.resetWith p) r = some 0 := by
  have hcode : ∀ x : Byte, (State.resetWith p).code.getD x.toNat CodeEntry.absent = CodeEntry.absent := by
    intro x
    simp only [State.resetWith, tabulate_getD, ite_self]
  cases r with
  | freq x => exact congrArg wordImage (freqOf_zero x)
  | codeLen x => rw [regImage, hcode]; rfl
  | codeBits x w =>
    rw [regImage, hcode]
    exact congrArg some (windowWord_nil w.val)
  | node i second =>
    have hnode : (State.resetWith p).node.getD i.val Node.zero = Node.zero := by
      simp only [State.resetWith, List.getD_eq_getElem?_getD, List.getElem?_replicate]
      split <;> rfl
    rw [regImage, hnode]
    cases second <;> rfl
  | tbits w => exact congrArg some (windowWord_nil w.val)
  | status => exact congrArg some (show Status.zero.image = 0 by decide)
  | encBitsHi | dataLimitHi => exact congrArg wordImage (Nat.zero_div _)
  | _ => rfl

/-- Settles O55: what shows 0 reads 0, and the other fields are those of the reset state. -/
theorem resetReadsZero : Obligations.ResetReadsZero := fun p =>
  ⟨fun r => readReg_of_image (regImage_resetWith p r), fun _ => rfl, rfl, rfl, rfl, rfl⟩

/-- Settles O57, with the defaults among the parameters R6 admits. -/
theorem invHoldsAtReset : Obligations.InvHoldsAtReset :=
  ⟨fun _ => inv_resetWith, inv_resetWith Params.default_wf⟩

end Sys2Proof.Machine
end

section
/-! PROOFS of the statements of 20_memory.md. A host write of `IN`, one equation for a cell that exists and one for a cell that
does not, and what the engine reads after it. -/

namespace Sys2Proof.Machine

/-! ## Host writes of `IN` -/

section
variable {s : State} {i : Nat} {b : Byte}

/-- A write of a cell of `IN` is one write of the memory (20_memory.md R60 (b), R68). -/
theorem hostAccess_writeIn (hi : i < s.params.inCap) :
    hostAccess (.writeIn i b) s = .next { s with inMem := s.inMem.write i b } := if_pos hi

/-- Beyond `IN_CAP` there is no cell to write (20_memory.md R60 (b), notes/assumptions/14.md). -/
theorem hostAccess_writeIn_beyond (hi : s.params.inCap ≤ i) :
    hostAccess (.writeIn i b) s = .fault .inCellDoesNotExist := if_neg (Nat.not_lt.mpr hi)

/-- A cell that holds a value gives the engine that value (00_scope.md R9). -/
theorem inByte_of_read (h : s.inMem.read i = some b) : inByte s i = b := by
  rw [inByte, h, Option.getD_some]

end

/-- The cell written holds the byte (00_scope.md R9). -/
theorem Memory.read_write_same (m : Memory) (i : Nat) (b : Byte) : (m.write i b).read i = some b := by
  rw [Memory.read_write, if_pos rfl]

/-- Every other cell is as before (00_scope.md R9). -/
theorem Memory.read_write_of_ne (m : Memory) {i a : Nat} (b : Byte) (h : a ≠ i) : (m.write i b).read a = m.read a := by
  rw [Memory.read_write, if_neg h.symm]

/-- Settles O53: the write is `Memory.write`, and what it does to each cell is the two laws above. -/
theorem hostWritesIn : Obligations.HostWritesIn := fun s i b =>
  ⟨fun hi => ⟨_, hostAccess_writeIn hi, inByte_of_read (Memory.read_write_same s.inMem i b),
    fun _ ha => Memory.read_write_of_ne s.inMem b ha, rfl⟩, hostAccess_writeIn_beyond⟩

end Sys2Proof.Machine
end

section
/-! PROOFS of the statements of 30_encoding.md. Both directions of decoding for a command word and for a tree token, the words
that decode to nothing, and the transactions of a script line that loads the input. -/

namespace Sys2Proof

open Machine

/-! ## Codes -/

section
variable {w : Word} {i : Instr}

/-- A word decodes to a command exactly when it is the command's own (30_encoding.md R80, R81). -/
theorem decodeCmd_eq_ok_iff : decodeCmd w = .ok i ↔ encode i = .cmdw w :=
  ⟨encode_of_decodeCmd, fun h => (congrArg decode h).symm.trans (decode_encode i)⟩

variable {bits rest : BitSeq}

/-- A leaf token is its tag and the eight bits of its symbol; what follows stays (30_encoding.md R86, R91 (a)). -/
theorem decodeToken_leaf (x : Byte) (rest : BitSeq) :
    decodeToken (true :: (bin8 x ++ rest)) = .ok (.treeTokenLeaf x, rest) := by
  have hlong : ¬ (bin8 x ++ rest).length < 8 := by rw [List.length_append, bin8_length]; omega
  rw [decodeToken, if_neg hlong, List.take_left' (bin8_length x), List.drop_left' (bin8_length x), ofNat_val_bin8]

/-- The bits taken for a token are the token's own (30_encoding.md R86, R87). -/
theorem encode_of_decodeToken (h : decodeToken bits = .ok (i, rest)) :
    ∃ code, encode i = .token code ∧ bits = code ++ rest := by
  cases bits with
  | nil => cases h
  | cons tag s =>
    cases tag with
    | false => cases h; exact ⟨[false], rfl, rfl⟩
    | true =>
      rw [decodeToken] at h
      split at h
      next => cases h
      next hlong =>
        cases h
        have hsymbol : bin8 (BitVec.ofNat 8 (val (s.take 8))) = s.take 8 :=
          bin8_ofNat_val _ (by rw [List.length_take]; omega)
        refine ⟨true :: s.take 8, congrArg (fun x => Code.token (true :: x)) hsymbol, ?_⟩
        rw [List.cons_append, List.take_append_drop]

/-- Bits are one instruction when they are one token with nothing after it. -/
theorem decodeToken_of_decode (h : decode (.token bits) = .ok i) : decodeToken bits = .ok (i, []) := by
  rw [decode] at h
  split at h
  next => cases h
  next j htoken => cases h; exact htoken
  next => cases h

/-- A code that decodes is the encoding of what it decodes to. -/
theorem encode_of_decode {c : Code} (h : decode c = .ok i) : encode i = c := by
  cases c with
  | cmdw w => exact encode_of_decodeCmd h
  | token bits =>
    obtain ⟨code, hcode, hbits⟩ := encode_of_decodeToken (decodeToken_of_decode h)
    rw [hcode, hbits, List.append_nil]

end

/-- Settles O3: `decode_encode` is one direction, `encode_of_decode` the other. -/
theorem decodeInvertsEncode : Obligations.DecodeInvertsEncode := fun i _ _ =>
  ⟨fun h => (encode_of_decode h).symm, fun h => h ▸ decode_encode i⟩

/-- Settles O4, for each of the two tokens. -/
theorem treeTokensAreSelfDelimiting : Obligations.TreeTokensAreSelfDelimiting := by
  intro i rest hi
  cases i with
  | treeTokenLeaf x => exact ⟨true :: bin8 x, rfl, decodeToken_leaf x rest⟩
  | treeTokenInternal => exact ⟨[false], rfl, rfl⟩
  | _ => cases hi

/-! ## The legal words -/

/-- Settles O2: the sixteen pairs are those of a command and its own word. -/
theorem legalCommandWordsExactly : Obligations.LegalCommandWordsExactly := by
  intro w i
  rw [decodeCmd_eq_ok_iff]
  constructor
  · intro h
    cases i with
    | treeTokenLeaf x => cases h
    | treeTokenInternal => cases h
    | decode lim | decompress lim => cases h; cases lim <;> decide
    | _ => cases h; decide
  · intro h
    generalize hrow : (w, i) = row at h
    fin_cases h <;> cases hrow <;> rfl

/-- Settles O1: the legal words are in the table of O2, the tokens are their own encodings. -/
theorem sampleCodesDecode : Obligations.SampleCodesDecode := by
  have hword := fun w i => (legalCommandWordsExactly w i).mpr
  exact ⟨hword _ _ (by decide), hword _ _ (by decide), hword _ _ (by decide), hword _ _ (by decide), hword _ _ (by decide),
    by decide, by decide, by decide, decode_encode (.treeTokenLeaf 0x61), decode_encode .treeTokenInternal⟩

/-! ## The illegal words -/

/-- A reserved operation code, and LIM with an operation that has none, are no command (30_encoding.md R82). -/
theorem decodeOp_eq_error {op : BitVec 4} {lim : Bool}
    (h : op = 0xE ∨ op = 0xF ∨ lim = true ∧ op ≠ 0xB ∧ op ≠ 0xD) : ∃ e, decodeOp op.toNat lim = .error e := by
  rcases h with rfl | rfl | ⟨rfl, hdecode, hdecompress⟩
  · cases lim <;> exact ⟨_, rfl⟩
  · cases lim <;> exact ⟨_, rfl⟩
  · have hlim : ∀ op : BitVec 4, op ≠ 0xB → op ≠ 0xD →
        decodeOp op.toNat true = .error (if op.toNat < 0xE then .limNotAllowed else .reservedOp) := by decide
    exact ⟨_, hlim op hdecode hdecompress⟩

/-- Every word R82 names decodes to nothing. -/
theorem decodeCmd_eq_error {w : Word} (h : opField w = 0xE ∨ opField w = 0xF ∨ reservedLow w ≠ 0 ∨ reservedHigh w ≠ 0 ∨
    (limField w = true ∧ opField w ≠ 0xB ∧ opField w ≠ 0xD)) : ∃ e, decodeCmd w = .error e := by
  by_cases hres : reservedLow w ≠ 0 ∨ reservedHigh w ≠ 0
  · exact ⟨.reservedBits, if_pos hres⟩
  · rw [decodeCmd, if_neg hres]
    exact decodeOp_eq_error (by tauto)

/-- Settles O5: such a word decodes to nothing, so no command starts. -/
theorem illegalWordIsAnInterfaceError : Obligations.IllegalWordIsAnInterfaceError := by
  intro s w rest hd hs hillegal
  obtain ⟨e, he⟩ := decodeCmd_eq_error hillegal
  exact step_of_illegal_word hd hs rfl he

namespace Machine

/-! ## The transactions of `WRIN` -/

/-- The input is what was written from cell 0 on, when `IN_LEN` is its length (10_state.md R21). -/
theorem inputBytes_of_writeFrom {s : State} {m : Memory} {bytes : List Byte} (hm : s.inMem = m.writeFrom 0 bytes)
    (hlen : s.inLen = bytes.length) : inputBytes s = bytes := by
  apply List.ext_getElem?
  intro j
  rw [inputBytes_getElem?, hlen]
  split
  next hj =>
    have hread : s.inMem.read j = some bytes[j] := by
      rw [hm, Memory.read_writeFrom_zero, if_pos hj, List.getElem?_eq_getElem hj]
    rw [inByte_of_read hread, List.getElem?_eq_getElem hj]
  next hj => rw [List.getElem?_eq_none (Nat.le_of_not_lt hj)]

/-- Every transaction of `WRIN` in turn: the cells, then the length (30_encoding.md R93). -/
theorem run_wrin {s : State} {bytes : List Byte} {n : Nat} {rest : List Txn} (hd : s.deser = none)
    (hcap : bytes.length ≤ s.params.inCap) (hs : s.script = expand n (.wrin bytes) ++ rest) :
    Host.Core.run Sys2Proof.core (bytes.length + 1) s = .next { s with
      inMem := s.inMem.writeFrom 0 bytes, inLen := lenWord s.params (BitVec.ofNat 32 bytes.length).toNat, script := rest,
      tick := s.tick + bytes.length + 1 } := by
  rw [expand, List.append_assoc] at hs
  rw [run_wIn bytes s 0 1 _ hd (by omega) hs]
  exact run_succ (step_writeInLen hd rfl)

/-- Settles O54: `IN_LEN` keeps the whole length, which fits `IN` and the word written (00_scope.md R6). -/
theorem wrinLoadsTheInput : Obligations.WrinLoadsTheInput := by
  intro s bytes n rest hp hd hcap hword hs
  have hlen : lenWord s.params (BitVec.ofNat 32 bytes.length).toNat = bytes.length := by
    rw [BitVec.toNat_ofNat, Nat.mod_eq_of_lt hword, lenWord_eq (hcap.trans_lt (Params.ok_of_wf hp).inLen)]
  refine ⟨_, run_wrin hd hcap hs, rfl, inputBytes_of_writeFrom rfl hlen, fun a ha => ?_, rfl⟩
  exact (Memory.read_writeFrom_zero s.inMem bytes a).trans (if_neg (Nat.not_lt.mpr ha))

end Machine

end Sys2Proof
end

section
/-! PROOFS of the statements of 40_control.md. What NOP and CLEAR leave, every command in a state with the invariant ends, and
every step does whose host transaction is inside the interface. -/

namespace Sys2Proof.Machine

/-! ## NOP and CLEAR -/

/-- Settles O20: NOP is always ready and its body is empty, so only the frame writes. -/
theorem nopOnlyReports : Obligations.NopOnlyReports := by
  intro s
  rw [exec_nop]
  exact runCommand_ok rfl rfl

/-- CLEAR discards the call state and reports success (40_control.md R102). -/
theorem exec_clear_eq (s : State) : exec .clear s = .next { clearCallState s with
    status := ⟨true, false, false, false, false, false, false, false⟩, errcode := none } := by
  rw [exec_clear]
  exact runCommand_ok (t := clearCallState (beginCommand s)) rfl rfl

/-- An entry of a table whose entries are all the same, as CLEAR writes it (40_control.md R102). -/
theorem tabulate_const_getElem? {α : Type} {n i : Nat} (a : α) (hi : i < n) : (tabulate n fun _ => a)[i]? = some a := by
  rw [tabulate_getElem?, if_pos hi]

/-- Settles O21: the registers and the frame are those of `clearCallState`, the tables are all-zero. -/
theorem clearDiscardsTheCallState : Obligations.ClearDiscardsTheCallState := by
  intro s
  refine ⟨_, exec_clear_eq s, rfl, rfl, rfl, rfl, rfl, rfl, rfl, rfl, rfl, rfl, fun i hi => ⟨?freq, ?code⟩, rfl, rfl⟩
  case freq => exact tabulate_const_getElem? 0 hi
  case code => exact tabulate_const_getElem? CodeEntry.absent hi

/-! ## Commands and steps end -/

/-- Settles O59: a command is out of sequence, or its body raises, or its body ends; with the invariant no body is stuck. -/
theorem everyCommandEnds : Obligations.EveryCommandEnds := by
  intro i s h hi
  obtain ⟨t, hexec, hinv, _⟩ := exec_command_inv hi h
  exact ⟨t, hexec, hinv⟩

/-- A register access inside the interface is done (20_memory.md R65). -/
theorem regAccess_of_wf {size : AccessSize} {off : Word} (k : Option Reg → State) (h : regAccessWf size off = true) :
    regAccess size off k = .next (k (regAt off.toNat)) := by
  rw [regAccessWf, Bool.and_eq_true, beq_iff_eq, beq_iff_eq] at h
  obtain ⟨rfl, h4⟩ := h
  exact regAccess_word h4

/-- A host transaction inside the interface is done (20_memory.md R60, R65, R68). -/
theorem hostAccess_of_wf {x : Txn} {s : State} (h : x.wf s.params = true) : ∃ t, hostAccess x s = .next t := by
  cases x with
  | writeIn i b => exact ⟨_, hostAccess_writeIn (of_decide_eq_true h)⟩
  | writeReg size off v =>
    rw [hostAccess]
    exact ⟨_, regAccess_of_wf _ h⟩
  | readReg size off =>
    rw [hostAccess]
    exact ⟨_, regAccess_of_wf _ h⟩
  | readOut i => exact ⟨_, rfl⟩
  | reset => exact ⟨_, rfl⟩

/-- A transaction inside the interface that starts no command leaves a state with the invariant. -/
theorem step_hostAccess_inv {s : State} {x : Txn} {rest : List Txn} (h : Inv s) (hs : s.script = x :: rest)
    (hw : commandWord? x = none) (hwf : x.wf s.params = true) : ∃ t, step s = .next t ∧ Inv t := by
  have htaken : Inv (takeTxn rest s) := inv_takeTxn rest h
  obtain ⟨t, ht⟩ := hostAccess_of_wf (s := takeTxn rest s) hwf
  exact ⟨t, (step_of_hostAccess h.idle hs hw).trans ht, hostAccess_inv (inv_resetWith htaken.params) htaken ht⟩

/-- Settles O60, by cases on what the host has to do: nothing, a command word, or a transaction that starts no command, the
only one that can be outside the interface. -/
theorem stepNeverStops : Obligations.StepNeverStops := by
  intro s h hhead
  cases hs : s.script with
  | nil => exact ⟨s, step_of_script_nil h.idle hs, h⟩
  | cons x rest =>
    cases hw : commandWord? x with
    | some w =>
      obtain ⟨t, ht, hinv, _⟩ := step_command_inv h hs hw
      exact ⟨t, ht, hinv⟩
    | none => exact step_hostAccess_inv h hs hw (hhead x (by rw [hs, List.head?_cons]))

end Sys2Proof.Machine
end

section
/-! PROOFS of the statement of 41_frequency_counter.md. What COUNT leaves of an input that fits `IN_CAP`, and that it ends with
Capacity on a longer one. -/

namespace Sys2Proof.Machine

/-- COUNT of an input that fits writes the two products of R111 and reports success. -/
theorem exec_count_eq {s : State} (hin : s.inLen ≤ s.params.inCap) : exec .count s = .next { s with
    freq := histogram (inputBytes s), symCount := BitVec.ofNat 9 (symbolsUsed (histogram (inputBytes s))), errcode := none,
    status := { s.status with done := true, err := false, freqValid := true } } := by
  rw [exec_count]
  exact runCommand_ok rfl (bodyCount_ok (s := beginCommand s) hin)

/-- COUNT of an input longer than `IN_CAP` ends with Capacity (60_exceptions.md R215 (a)). -/
theorem exec_count_over {s : State} (hover : s.params.inCap < s.inLen) : exec .count s = .next (callError .capacity s) := by
  rw [exec_count]
  exact runCommand_raise rfl (bodyCount_over (s := beginCommand s) hover)

/-- A value occurs in the input once for every index at which `IN` holds it (R110). -/
theorem count_inputBytes (s : State) (x : Byte) :
    (inputBytes s).count x = ((List.range s.inLen).filter fun i => inByte s i = x).length := by
  rw [inputBytes, List.count, List.countP_map, List.countP_eq_length_filter]
  rfl

/-- The counts of the input's histogram add up to `IN_LEN` (R111). -/
theorem sum_histogram_inputBytes (s : State) : (allSymbols.map (freqOf (histogram (inputBytes s)))).sum = s.inLen := by
  rw [histogram_fun, sum_count, length_inputBytes]

/-- The alphabet, by counts of at least 1 (R111). -/
theorem alphabet_eq_filter_one_le (h : Byte → Nat) : alphabet h = allSymbols.filter fun x => 1 ≤ h x := by
  simp only [alphabet, Nat.one_le_iff_ne_zero]

/-- Settles O22, by whether the input fits: the counters are those of its histogram, or COUNT raises Capacity. -/
theorem countCountsTheInput : Obligations.CountCountsTheInput := by
  refine ⟨fun s hin => ⟨_, exec_count_eq hin, fun x => ?counts, sum_histogram_inputBytes s, ?symCount, rfl⟩,
    fun s => exec_count_over⟩
  case counts => exact (freqOf_histogram _ x).trans (count_inputBytes s x)
  case symCount => rw [symCount_toNat, alphabet_eq_filter_one_le]

end Sys2Proof.Machine
end

section
/-! PROOFS of the statements of 42_tree_builder.md. What every tree of the Huffman relation is like, where the builder puts its
records, and the ends of BUILD. -/

namespace Sys2Proof.Machine

/-! ## The relation -/

/-- A tree of one leaf is that leaf (00_scope.md R10). -/
theorem Tree.leaves_length_eq_one_iff {t : Tree} : t.leaves.length = 1 ↔ ∃ w s, t = .leaf w s := by
  cases t with
  | leaf w s => exact iff_of_true rfl ⟨w, s, rfl⟩
  | internal w l r =>
    have hl := l.leaves_length_pos
    have hr := r.leaves_length_pos
    refine iff_of_false ?_ (by rintro ⟨_, _, h⟩; cases h)
    rw [Tree.leaves, List.length_append]
    omega

/-- A tree of the relation has one leaf for each symbol that occurs (42_tree_builder.md R127 (a)). -/
theorem HuffmanTree.leaves_length {h : Byte → Nat} {t : Tree} (ht : HuffmanTree h t) :
    t.leaves.length = (alphabet h).length := by
  rw [← t.symbols_length, ht.symbols_perm.length_eq]

/-- Settles O15: the leaves, weights and sums are what a greedy step keeps (`ForestOk`), and the number of leaves decides the
size and the shape. -/
theorem huffmanTreeProperties : Obligations.HuffmanTreeProperties := by
  intro h t _ ht
  obtain ⟨hleaves, hweight, hadds⟩ := ht.properties
  have hcount := ht.leaves_length
  have hsize := t.size_eq
  refine ⟨hleaves, ht.symbols_perm.nodup_iff.mpr (alphabet_nodup h), hcount, by omega, hweight, hadds, ?_⟩
  rw [← hcount]
  exact Tree.leaves_length_eq_one_iff

/-! ## The builder -/

/-- Settles O14: the trees the heap stands for go through greedy steps down to one (`Reduction.merge`), and the records of that
one are the whole table. -/
theorem builderMakesAHuffmanTree : Obligations.BuilderMakesAHuffmanTree := by
  intro p freq hp hne _
  obtain ⟨t, vs, _, _, _, _, _, _, _, hhuffman, hbuild⟩ := buildTree_spec (Params.ok_of_wf hp) freq hne
  exact ⟨t, hbuild, hhuffman⟩

section
variable {p : Params} {freq : Vector Nat 256}

/-- There is one leaf record for each symbol that occurs (42_tree_builder.md R120). -/
theorem leafRecords_length (freq : Vector Nat 256) : (leafRecords freq).length = (alphabet (freqOf freq)).length := by
  rw [leafRecords_eq, List.length_map]

/-- An alphabet of k makes 2·k − 1 records (42_tree_builder.md R123). -/
theorem buildRecords_length (hne : ∃ x, freqOf freq x ≠ 0) :
    (buildRecords p freq).1.length = 2 * (alphabet (freqOf freq)).length - 1 := by
  obtain ⟨_, _, _, _, hlen, _⟩ := buildRecords_spec (p := p) freq (leafRecords_ne hne)
  rw [← leafRecords_length]
  omega

/-- The root is the last record made: the last merge, or the only leaf (42_tree_builder.md R123). -/
theorem buildRecords_root (hne : ∃ x, freqOf freq x ≠ 0) :
    (buildRecords p freq).2 = (buildRecords p freq).1.length - 1 := by
  have hleaf := leafRecords_ne hne
  have hheap : (pushRecords p [] 0 (leafRecords freq)).length = (leafRecords freq).length := by
    rw [pushRecords_length, List.length_nil, Nat.zero_add]
  by_cases hone : (leafRecords freq).length = 1
  · obtain ⟨_, _, _, _, hlen, hroot, _⟩ := buildRecords_spec (p := p) freq hleaf
    omega
  · have hpos := List.length_pos_iff.mpr hleaf
    obtain ⟨e, more, hloop, _, hlast, _⟩ := mergeLoop_places (p := p) (pushRecords p [] 0 (leafRecords freq)).length
      (leafRecords freq) (pushRecords p [] 0 (leafRecords freq)) (Nat.le_succ _) (List.ne_nil_of_length_pos (by omega))
    rw [buildRecords, hloop]
    exact hlast (by omega)

/-- The leaf record of the `j`-th symbol that occurs is the record at index `j` (42_tree_builder.md R120). -/
theorem buildRecords_leaf (hne : ∃ x, freqOf freq x ≠ 0) {j : Nat} {s : Byte} (hs : (alphabet (freqOf freq))[j]? = some s) :
    (buildRecords p freq).1[j]? = some (.leaf (freqOf freq s) s) := by
  obtain ⟨_, _, _, _, _, _, ⟨more, hmore⟩, _⟩ := buildRecords_spec (p := p) freq (leafRecords_ne hne)
  have hleaf : (leafRecords freq)[j]? = some (.leaf (freqOf freq s) s) := by
    rw [leafRecords_eq, List.getElem?_map, hs]
    rfl
  rw [← hmore, List.getElem?_append_left (List.getElem?_eq_some_iff.mp hleaf).1, hleaf]

end

/-- Settles O16: the merges keep `HeapOk`, by which the heap holds exactly the records that wait, in the order of their keys. -/
theorem buildPlacesItsRecords : Obligations.BuildPlacesItsRecords := by
  intro p freq _ hne _ k
  have hlen : (buildRecords p freq).1.length = 2 * k - 1 := buildRecords_length hne
  refine ⟨hlen, ?root, fun j s => buildRecords_leaf hne, fun j hk hj => ?merged⟩
  case root => rw [buildRecords_root hne, hlen]; omega
  case merged => exact buildRecords_merged freq ((leafRecords_length freq).trans_le hk) (hj.trans_eq hlen.symm)

/-! ## BUILD -/

/-- BUILD with a symbol that occurs writes the builder's records and reports success (42_tree_builder.md R126). -/
theorem exec_build_eq {s : State} (hvalid : s.status.freqValid = true) (hne : ∃ x, freqOf s.freq x ≠ 0) :
    exec .build s = .next { putTree (buildRecords s.params s.freq).1 (buildRecords s.params s.freq).2 s with
      errcode := none, status := { s.status with done := true, err := false, treeValid := true } } := by
  rw [exec_build]
  exact runCommand_ok hvalid (bodyBuild_ok (s := beginCommand s) hne)

/-- BUILD on all-zero counts (42_tree_builder.md R126, 60_exceptions.md R212). -/
theorem exec_build_empty {s : State} (hvalid : s.status.freqValid = true) (hzero : ∀ x, freqOf s.freq x = 0) :
    exec .build s = .next (callError .emptyAlphabetPrecondition s) := by
  rw [exec_build]
  exact runCommand_raise hvalid (bodyBuild_raise (s := beginCommand s) hzero)

/-- BUILD without counts (10_state.md R40, 60_exceptions.md R214). -/
theorem exec_build_sequence {s : State} (hvalid : s.status.freqValid = false) :
    exec .build s = .next (interfaceError .sequence s) := by
  rw [exec_build]
  exact runCommand_sequence hvalid

/-- The builder's records, written whole, are its tree (42_tree_builder.md R124, R125, 10_state.md R25). -/
theorem putTree_buildRecords {s : State} (hp : s.params.Ok) (hne : ∃ x, freqOf s.freq x ≠ 0) : ∃ u,
    buildTree s.params s.freq = some u ∧ HuffmanTree (freqOf s.freq) u ∧
      treeOperand (putTree (buildRecords s.params s.freq).1 (buildRecords s.params s.freq).2 s) = some u ∧
      TreeOk (putTree (buildRecords s.params s.freq).1 (buildRecords s.params s.freq).2 s) := by
  obtain ⟨u, vs, hstands, hvisits, _, hcap, _, hsize, _, hhuffman, hbuild⟩ := buildTree_spec hp s.freq hne
  have hleaves : u.leaves.length ≤ 256 := hhuffman.leaves_length.trans_le (alphabet_length_le _)
  obtain ⟨htree, hok⟩ := putTree_ok (s := s) hstands hvisits hcap (serialize_fits hp hleaves) hsize
  exact ⟨u, hbuild, hhuffman, htree, hok⟩

/-- The node memory has room for the builder's records (44_tree_codec.md R154). -/
theorem buildRecords_length_le {p : Params} {freq : Vector Nat 256} (hp : p.Ok) (hne : ∃ x, freqOf freq x ≠ 0) :
    (buildRecords p freq).1.length ≤ p.nodeCap := by
  obtain ⟨_, _, _, _, _, hcap, _⟩ := buildTree_spec hp freq hne
  exact hcap

/-- Settles O23, by the three ends of BUILD: the builder's tree is written, no symbol occurs, or there are no counts. -/
theorem buildMakesTheTree : Obligations.BuildMakesTheTree := by
  refine ⟨fun s hwf hvalid hfreq hne => ?_, fun s => exec_build_empty, fun s => exec_build_sequence⟩
  have hp := Params.ok_of_wf hwf
  obtain ⟨u, hbuild, hhuffman, htree, hok⟩ := putTree_buildRecords hp hne
  have hlen : (buildRecords s.params s.freq).1.length = 2 * s.symCount.toNat - 1 := by
    rw [hfreq.2]
    exact buildRecords_length hne
  refine ⟨_, u, exec_build_eq hvalid hne, hbuild, hhuffman, htree, treeOk_congr hok rfl rfl rfl rfl, fun j hj => ?record, hlen,
    ?root, rfl⟩
  case record => exact putTree_node_records (buildRecords_length_le hp hne) (buildRecords s.params s.freq).2 hj
  case root => exact (buildRecords_root hne).trans (by rw [hlen]; omega)

end Sys2Proof.Machine
end

section
/-! PROOFS of the statements of 43_code_table.md. What `codes` says of a tree: a code is the path of a leaf, the last one of its
symbol, and sees no weight; and the ends of GENCODE. -/

namespace Sys2Proof.Machine

/-! ## Codes -/

section
variable {t u : Tree} {s : Byte} {p : BitSeq}

/-- No code is empty (43_code_table.md R136, R139 (a)). -/
theorem codes_ne_nil (h : codes t s = some p) : p ≠ [] :=
  List.ne_nil_of_length_pos (codes_length h).1

/-- Followed from an Internal root, a code ends at a leaf of its symbol (43_code_table.md R139 (c)). -/
theorem codes_follow {w : Nat} {l r : Tree} (h : codes (.internal w l r) s = some p) :
    ∃ v, (Tree.internal w l r).follow p = some (.leaf v s) := by
  obtain ⟨_, v, rfl, hfollow⟩ := follow_of_paths (codes_mem_paths h)
  exact ⟨v, hfollow⟩

/-- A tree with two leaves or more has an Internal root, so its codes lead to their leaves. -/
theorem codes_follow_of_two_leaves (h : codes t s = some p) (htwo : 2 ≤ t.leaves.length) :
    ∃ v, t.follow p = some (.leaf v s) := by
  cases t with
  | leaf => exact absurd htwo (by rw [Tree.leaves, List.length_singleton]; decide)
  | internal => exact codes_follow h

/-- Trees that differ in their weights only have the same codes (43_code_table.md R139 (d)). -/
theorem codes_eq_of_zeroWeights_eq {par : Params} (h : t.zeroWeights par = u.zeroWeights par) (s : Byte) :
    codes t s = codes u s := by
  rw [← codes_zeroWeights (par := par) t s, h, codes_zeroWeights]

end

/-- A serialized tree reads back with the codes it had (43_code_table.md R139 (d)). -/
theorem deserialize_serialize_codes (par : Params) (t : Tree) :
    ∃ u, deserialize par (serialize t) = some u ∧ ∀ s, codes u s = codes t s := by
  have hread := deserialize_serialize_append (par := par) t []
  rw [List.append_nil] at hread
  exact ⟨_, hread, codes_zeroWeights t⟩

/-- Settles O12: codes are paths, of which none extends another, and neither `serialize` nor `codes` sees the weights. -/
theorem codeTableProperties : Obligations.CodeTableProperties :=
  ⟨fun _ _ _ => codes_ne_nil, fun _ _ _ _ _ => codes_prefix_free,
    fun t _ s => ⟨codes_isSome t s, fun _ => codes_follow_of_two_leaves⟩, fun _ _ => if_pos rfl,
    fun _ _ _ => codes_eq_of_zeroWeights_eq, deserialize_serialize_codes⟩

/-- The code table of an Internal root is set from the paths on its left, then from those on its right (43_code_table.md R135). -/
theorem codes_internal (w : Nat) (l r : Tree) (s : Byte) :
    codes (.internal w l r) s = lastEntry s (paths l [false] ++ paths r [true]) := rfl

/-- Settles O13: each pair set for a symbol replaces the one before (`lastEntry_eq`). -/
theorem repeatedSymbolKeepsItsLastLeaf : Obligations.RepeatedSymbolKeepsItsLastLeaf := by
  intro w l r s
  rw [codes_internal, lastEntry_eq]

/-! ## GENCODE -/

section
variable {s : State} {u : Tree}

/-- GENCODE on a tree writes its code table and reports success (43_code_table.md R138). -/
theorem exec_gencode_eq (hvalid : s.status.treeValid = true) (hu : treeOperand s = some u) : exec .gencode s = .next { s with
    code := codeTable u, errcode := none, status := { s.status with done := true, err := false, codeValid := true } } := by
  rw [exec_gencode]
  exact runCommand_ok hvalid (bodyGencode_ok (s := beginCommand s) hu)

/-- GENCODE without a tree (10_state.md R40, 60_exceptions.md R214). -/
theorem exec_gencode_sequence (hvalid : s.status.treeValid = false) :
    exec .gencode s = .next (interfaceError .sequence s) := by
  rw [exec_gencode]
  exact runCommand_sequence hvalid

end

/-- Settles O24, by the two ends of GENCODE: the codes of the tree are written, or there is no tree. -/
theorem gencodeWritesTheCodeTable : Obligations.GencodeWritesTheCodeTable := by
  refine ⟨fun s u hvalid _ hu => ⟨_, exec_gencode_eq hvalid hu, fun x => ?entry, fun _ _ => codes_len, rfl⟩,
    fun s => exec_gencode_sequence⟩
  case entry =>
    refine (codeTable_getElem? u x).trans ?_
    cases codes u x with
    | none => rfl
    | some p => rfl

end Sys2Proof.Machine
end

section
/-! PROOFS of the statements of 44_tree_codec.md. `deserialize` as the inverse of `serialize`, the ends of SERIALIZE and
DESERIALIZE, what one tree token does, and DESERIALIZE token by token. -/

namespace Sys2Proof.Machine

/-! ## serialize and deserialize -/

/-- Settles O9: each leaf takes 9 bits, each Internal node one, and there is one Internal node fewer than leaves. -/
theorem serializedLength : Obligations.SerializedLength := by
  intro t
  have hbits := length_serialize t
  have hsize := t.size_eq
  omega

section
variable {par : Params} {b : BitSeq} {t : Tree}

/-- `deserialize` is `deser` with the unread bits dropped (44_tree_codec.md R150, R152). -/
theorem deserialize_eq_map (par : Params) (b : BitSeq) :
    deserialize par b = (deser par b.length b).map Prod.fst := by
  rw [deserialize]
  cases deser par b.length b <;> rfl

/-- A serialized tree with nothing after it reads back with every weight `DESER_WEIGHT` (44_tree_codec.md R156). -/
theorem deserialize_serialize (par : Params) (t : Tree) : deserialize par (serialize t) = some (t.zeroWeights par) := by
  have hread := deserialize_serialize_append (par := par) t []
  rwa [List.append_nil] at hread

/-- The bits a tree was read from begin with its serialization. -/
theorem serialize_of_deserialize (h : deserialize par b = some t) : ∃ rest, b = serialize t ++ rest := by
  rw [deserialize_eq_map, Option.map_eq_some_iff] at h
  obtain ⟨⟨_, rest⟩, hdeser, rfl⟩ := h
  exact ⟨rest, (serialize_of_deser hdeser).1⟩

/-- No tree is read exactly where no serialized tree stands in front (44_tree_codec.md R151). -/
theorem deserialize_eq_none_iff : deserialize par b = none ↔ ∀ t rest, b ≠ serialize t ++ rest := by
  constructor
  · rintro hnone t rest rfl
    rw [deserialize_serialize_append] at hnone
    cases hnone
  · intro hno
    refine Option.eq_none_iff_forall_ne_some.mpr fun t ht => ?_
    obtain ⟨rest, hrest⟩ := serialize_of_deserialize ht
    exact hno t rest hrest

/-- Every serialized tree has a tag '1': that of a leaf (44_tree_codec.md R145). -/
theorem true_mem_serialize (t : Tree) : true ∈ serialize t := by
  induction t with
  | leaf => exact List.mem_cons_self
  | internal _ l r ihl _ => exact List.mem_cons_of_mem _ (List.mem_append_left _ ihl)

/-- Zeros alone are no tree (44_tree_codec.md R151). -/
theorem deserialize_replicate_false (par : Params) (n : Nat) : deserialize par (List.replicate n false) = none := by
  rw [deserialize_eq_none_iff]
  intro t rest h
  have htag : true ∈ List.replicate n false := h ▸ List.mem_append_left rest (true_mem_serialize t)
  cases List.eq_of_mem_replicate htag

end

/-- Settles O10, by `deser_serialize_append` one way and `serialize_of_deser` the other; neither the codes nor the symbols of
a tree see its weights. -/
theorem treeSerializationRoundTrip : Obligations.TreeSerializationRoundTrip := by
  refine ⟨fun p t x => deser_serialize_append t x _ ?fuel,
    fun p t => ⟨_, deserialize_serialize p t, codes_zeroWeights t, t.zeroWeights_symbols⟩,
    fun p b rest t h => (serialize_of_deser h).1⟩
  case fuel =>
    rw [List.length_append]
    exact (size_le_length_serialize t).trans (Nat.le_add_right _ _)

/-- Settles O11: `deserialize` inverts `serialize` and reads nothing else, and zeros hold no leaf. -/
theorem deserializeFailsOnlyWhenBitsRunOut : Obligations.DeserializeFailsOnlyWhenBitsRunOut :=
  fun p => ⟨fun _ => deserialize_eq_none_iff, deserialize_replicate_false p, deserialize_serialize_append⟩

/-! ## SERIALIZE and DESERIALIZE -/

section
variable {s : State} {u : Tree}

/-- SERIALIZE on a tree writes its bits and reports success (44_tree_codec.md R146). -/
theorem exec_serialize_eq (hvalid : s.status.treeValid = true) (hu : treeOperand s = some u) :
    exec .serialize s = .next { s with
      tbits := serialize u, tbc := (serialize u).length, errcode := none,
      status := { s.status with done := true, err := false, tbitsValid := true } } := by
  rw [exec_serialize]
  exact runCommand_ok hvalid (bodySerialize_ok (s := beginCommand s) hu)

/-- SERIALIZE without a tree (10_state.md R40, 60_exceptions.md R214). -/
theorem exec_serialize_sequence (hvalid : s.status.treeValid = false) :
    exec .serialize s = .next (interfaceError .sequence s) := by
  rw [exec_serialize]
  exact runCommand_sequence hvalid

/-- The Pseudocode of DESERIALIZE on the bits of a tree (44_tree_codec.md R155). -/
theorem bodyDeserialize_ok (hu : deserialize s.params s.tbits = some u) :
    bodyDeserialize s = .ok (putTree (preorderRecords s.params u 0) 0 s) := by
  simp only [bodyDeserialize, hu]

/-- On other bits it raises (44_tree_codec.md R151). -/
theorem bodyDeserialize_raise (hnone : deserialize s.params s.tbits = none) :
    bodyDeserialize s = .raise .malformedContainer := by
  simp only [bodyDeserialize, hnone]

/-- DESERIALIZE on the bits of a tree writes its records in pre-order and reports success (44_tree_codec.md R154, R155). -/
theorem exec_deserialize_eq (hvalid : s.status.tbitsValid = true) (hu : deserialize s.params s.tbits = some u) :
    exec .deserialize s = .next { putTree (preorderRecords s.params u 0) 0 s with
      errcode := none, status := { s.status with done := true, err := false, treeValid := true } } := by
  rw [exec_deserialize]
  exact runCommand_ok hvalid (bodyDeserialize_ok (s := beginCommand s) hu)

/-- DESERIALIZE on bits that are no tree (44_tree_codec.md R151, 60_exceptions.md R211). -/
theorem exec_deserialize_malformed (hvalid : s.status.tbitsValid = true) (hnone : deserialize s.params s.tbits = none) :
    exec .deserialize s = .next (callError .malformedContainer s) := by
  rw [exec_deserialize]
  exact runCommand_raise hvalid (bodyDeserialize_raise (s := beginCommand s) hnone)

/-- DESERIALIZE without bits (10_state.md R40, 60_exceptions.md R214). -/
theorem exec_deserialize_sequence (hvalid : s.status.tbitsValid = false) :
    exec .deserialize s = .next (interfaceError .sequence s) := by
  rw [exec_deserialize]
  exact runCommand_sequence hvalid

end

/-- Settles O25, by the two ends of SERIALIZE: the bits of the tree are written, or there is no tree. -/
theorem serializeWritesTheTreeBits : Obligations.SerializeWritesTheTreeBits :=
  ⟨fun _ _ hvalid hok hu => ⟨(treeOk_tree hok hu).2, exec_serialize_eq hvalid hu⟩, fun _ => exec_serialize_sequence⟩

/-- Settles O30, by the three ends of DESERIALIZE: the tree's pre-order records, which stand for it, are written, or the bits
are no tree, or there are no bits. -/
theorem deserializeRebuildsTheTree : Obligations.DeserializeRebuildsTheTree := by
  refine ⟨fun s u hwf hvalid htbits hu => ?_, fun s => exec_deserialize_malformed, fun s => exec_deserialize_sequence⟩
  have hp := Params.ok_of_wf hwf
  obtain ⟨htree, hok, hcount, hvisits⟩ := putTree_preorder hp hu htbits.2
  obtain ⟨_, _, hweights⟩ := size_of_deserialize hp hu htbits.2
  exact ⟨_, exec_deserialize_eq hvalid hu, htree, hweights, treeOk_congr hok rfl rfl rfl rfl, hcount, rfl,
    (congrArg (visited _ · 0) hcount).trans hvisits, rfl⟩

/-! ## One token -/

/-- The state with a node read in its place: its record has the next free index, and the waiting place holds that index
(44_tree_codec.md R154). -/
def placedNode (record : Node) (slot : Slot) (s : State) : State :=
  { s with
    node := (fillSlot slot s.nodeCount s).node.set s.nodeCount record
    nodeCount := s.nodeCount + 1
    root := (fillSlot slot s.nodeCount s).root }

section
variable {record : Node} {below : List Slot} {c : DeserCtx} {s : State}

/-- With no place left a node read closes the tree. -/
theorem placeNode_last (hroom : s.nodeCount < s.params.nodeCap) (hplaces : below ++ c.rest = []) :
    placeNode record below c s = finishDeserialize (placedNode record c.slot s) := by
  rw [placeNode_ok hroom, hplaces, fillSlot_fields]
  rfl

/-- Else the first place left waits for the next node. -/
theorem placeNode_more {q : Slot} {qs : List Slot} (hroom : s.nodeCount < s.params.nodeCap)
    (hplaces : below ++ c.rest = q :: qs) :
    placeNode record below c s = { placedNode record c.slot s with deser := some ⟨c.bits, q, qs⟩ } := by
  rw [placeNode_ok hroom, hplaces, fillSlot_fields]
  rfl

/-- A deserialization starts with the parameters of its core (notes/assumptions/21.md). -/
@[simp] theorem startDeserialize_params (bits : BitSeq) (s : State) : (startDeserialize bits s).params = s.params := rfl

/-- A token outside a deserialization is the first one of a new deserialization (notes/assumptions/8.md). -/
theorem currentDeser_startDeserialize (hd : s.deser = none) : currentDeser (startDeserialize [] s) = currentDeser s := by
  simp only [currentDeser, hd]
  rfl

end

/-- Settles O36: where the record and its index go is `token_node`; whether the tree closes is the case split on the places
that wait. -/
theorem leafTokenPlacesALeaf : Obligations.LeafTokenPlacesALeaf := by
  refine ⟨fun s c x hd hlen hroom => ⟨_, execLeaf_eq x hd, ?placed⟩, fun s c x hd hfull => ?full, fun s x hd => ?outside⟩
  case placed =>
    obtain ⟨hself, hroot, hleft, hright, hother⟩ := token_node hroom hlen
    cases hrest : c.rest with
    | nil =>
      rw [placeNode_last (below := []) hroom hrest]
      exact ⟨rfl, hself, hroot, hleft, hright, hother, fun _ => ⟨rfl, rfl⟩, fun _ _ h => (nomatch h), rfl⟩
    | cons q qs =>
      rw [placeNode_more (below := []) hroom hrest]
      refine ⟨rfl, hself, hroot, hleft, hright, hother, fun h => (nomatch h), fun _ _ h => ?_, rfl⟩
      cases h
      exact ⟨rfl, rfl⟩
  case full =>
    rw [execLeaf_eq x hd, placeNode_fail hfull]
    rfl
  case outside =>
    simp only [exec, execTreeTokenLeaf, currentDeser_startDeserialize hd, startDeserialize_params]

/-- Settles O37: where the record and its index go is `token_node`, and an INTERNAL token always leaves a place to fill. -/
theorem internalTokenOpensTwoPlaces : Obligations.InternalTokenOpensTwoPlaces := by
  refine ⟨fun s c hd hlen hroom => ⟨_, execInternal_eq hd, ?placed⟩, fun s c hd hfull => ?full, fun s hd => ?outside⟩
  case placed =>
    obtain ⟨hself, hroot, hleft, hright, hother⟩ := token_node hroom hlen
    rw [placeNode_more hroom rfl]
    exact ⟨rfl, hself, rfl, hroot, hleft, hright, hother, rfl⟩
  case full =>
    rw [execInternal_eq hd, placeNode_fail hfull]
    rfl
  case outside => simp only [exec, execTreeTokenInternal, currentDeser_startDeserialize hd, startDeserialize_params]

/-! ## Token by token -/

@[simp] theorem nodeTable_length (p : Params) (records : List Node) : (nodeTable p records).length = p.nodeCap :=
  listFrom_length ..

/-- Records written over the cleared node memory from index 0 are the whole table (44_tree_codec.md R155). -/
theorem overwrite_nodeTable_nil (p : Params) (records : List Node) :
    overwrite (nodeTable p []) 0 records = nodeTable p records := by
  apply node_ext (by simp)
  intro j hj
  have hcap : j < p.nodeCap := by simpa using hj
  rw [overwrite_getElem? _ _ _ _ (by simpa using hcap)]
  by_cases hr : j < records.length <;> simp [nodeTable, listFrom_getElem?, hcap, hr]

section
variable {s : State}

/-- A deserialization that fails leaves what DESERIALIZE leaves: the call error overwrites all that its start cleared. -/
theorem failDeserialize_startDeserialize (hd : s.deser = none) (bits : BitSeq) :
    failDeserialize (startDeserialize bits s) = callError .malformedContainer s := by
  cases s
  cases hd
  rfl

/-- A whole tree read into the cleared node memory is the tree written whole (44_tree_codec.md R154, R155). -/
theorem afterSubtree_startDeserialize (hd : s.deser = none) (bits rest : BitSeq) (u : Tree) :
    afterSubtree u rest .root [] (startDeserialize bits s) = { putTree (preorderRecords s.params u 0) 0 s with
      errcode := none, status := { s.status with done := true, err := false, treeValid := true } } := by
  show ({ s with
    node := overwrite (nodeTable s.params []) 0 (preorderRecords s.params u 0), nodeCount := 0 + u.size, root := 0,
    errcode := none, status := { s.status with done := true, err := false, treeValid := true }, deser := none } : State) = _
  rw [overwrite_nodeTable_nil, Nat.zero_add, ← preorderRecords_length (p := s.params) u 0, ← hd]
  rfl

/-- Token by token, bits that are no tree fail (44_tree_codec.md R151), and the bits of a tree that has room are that tree
written whole (R154, R155). -/
theorem runTokens_startDeserialize (hd : s.deser = none) (bits : BitSeq) :
    (deserialize s.params bits = none →
      runTokens (bits.length + 1) (startDeserialize bits s) = .next (callError .malformedContainer s)) ∧
    ∀ u, deserialize s.params bits = some u → u.size ≤ s.params.nodeCap →
      runTokens (bits.length + 1) (startDeserialize bits s) = .next { putTree (preorderRecords s.params u 0) 0 s with
        errcode := none, status := { s.status with done := true, err := false, treeValid := true } } := by
  have hrun := runTokens_subtree bits.length bits (startDeserialize bits s) .root [] (bits.length + 1) le_rfl rfl
    (nodeTable_length ..) (Nat.zero_le _) le_rfl
  rw [startDeserialize_params] at hrun
  rw [deserialize_eq_map]
  cases hdeser : deser s.params bits.length bits with
  | none =>
    rw [hdeser, failDeserialize_startDeserialize hd] at hrun
    exact ⟨fun _ => hrun, fun _ h => (nomatch h)⟩
  | some x =>
    rw [hdeser] at hrun
    refine ⟨fun h => (nomatch h), fun u hu hroom => ?_⟩
    cases hu
    have hwhole := hrun.1 ((Nat.zero_add _).trans_le hroom)
    rw [afterSubtree_startDeserialize hd] at hwhole
    exact hwhole.trans (runTokens_none hd)

end

/-- Settles O38: both ways fail together, and a tree read within `TBITS_CAP` bits has room (`size_of_deserialize`), so both
write it. The induction over the tokens is `runTokens_subtree`. -/
theorem deserializeIsItsTokensInOrder : Obligations.DeserializeIsItsTokensInOrder := by
  intro s hwf hd hvalid hbits
  obtain ⟨hfails, hwrites⟩ := runTokens_startDeserialize hd s.tbits
  cases hu : deserialize s.params s.tbits with
  | none => rw [hfails hu, exec_deserialize_malformed hvalid hu]
  | some u =>
    obtain ⟨hroom, _⟩ := size_of_deserialize (Params.ok_of_wf hwf) hu hbits
    rw [hwrites u hu hroom, exec_deserialize_eq hvalid hu]

end Sys2Proof.Machine
end

section
/-! PROOFS of the statements of 45_bit_packer.md. Where `pack` and `unpack` put every bit, their laws, and the ends of PACK and
UNPACK. -/

namespace Sys2Proof.Machine

/-! ## pack and unpack -/

/-- Settles O7: the lengths are `length_pack` and `length_unpack`, the contents `pack_getElem` and `unpack_getElem`. -/
theorem packAndUnpackPlaceEveryBit : Obligations.PackAndUnpackPlaceEveryBit :=
  ⟨fun s => ⟨length_pack s, pack_getElem s⟩, fun bytes => ⟨length_unpack bytes, unpack_getElem bytes⟩⟩

/-- Fewer than eight bits of padding complete the last byte (45_bit_packer.md R170 (b)). -/
theorem padding_le (n : Nat) : 8 * ceil8 n - n ≤ 7 := by
  simp only [ceil8]
  omega

/-- Settles O8, law by law. -/
theorem packUnpackLaws : Obligations.PackUnpackLaws :=
  ⟨length_pack, length_unpack, fun s => ⟨unpack_pack_eq s, padding_le s.length, take_unpack_pack s⟩, pack_unpack, pack_append8⟩

/-! ## PACK -/

section
variable {s : State}

/-- PACK with room for the bytes writes them and reports success (45_bit_packer.md R168). -/
theorem exec_pack_eq (hvalid : s.status.tbitsValid = true) (hroom : ceil8 s.tbc ≤ s.params.outCap) :
    exec .pack s = .next { putOut (pack s.tbits) s with
      errcode := none, status := { s.status with done := true, err := false, outValid := true } } := by
  rw [exec_pack]
  exact runCommand_ok (t := putOut (pack s.tbits) (beginCommand s)) hvalid (if_neg (Nat.not_lt.mpr hroom))

/-- PACK without room for the bytes (60_exceptions.md R215 (d)). -/
theorem exec_pack_capacity (hvalid : s.status.tbitsValid = true) (hfull : s.params.outCap < ceil8 s.tbc) :
    exec .pack s = .next (callError .capacity s) := by
  rw [exec_pack]
  exact runCommand_raise hvalid (if_pos hfull)

/-- PACK without bits (10_state.md R40, 60_exceptions.md R214). -/
theorem exec_pack_sequence (hvalid : s.status.tbitsValid = false) :
    exec .pack s = .next (interfaceError .sequence s) := by
  rw [exec_pack]
  exact runCommand_sequence hvalid

end

section
variable {bytes : List Byte} {a : Nat}

/-- The cells of `OUT` below the bytes' number hold the bytes (45_bit_packer.md R168). -/
theorem putOut_read_of_lt (s : State) (ha : a < bytes.length) : (putOut bytes s).outMem.read a = bytes[a]? :=
  (Memory.read_writeFrom_zero s.outMem bytes a).trans (if_pos ha)

/-- The other cells of `OUT` are as before (notes/assumptions/10.md). -/
theorem putOut_read_of_le (s : State) (ha : bytes.length ≤ a) : (putOut bytes s).outMem.read a = s.outMem.read a :=
  (Memory.read_writeFrom_zero s.outMem bytes a).trans (if_neg (Nat.not_lt.mpr ha))

end

/-- Settles O26, by the three ends of PACK. What each cell holds follows from the number of packed bytes, which is
`ceil8 TBC` because `TBC` counts the bits of `TBITS` (10_state.md R30). -/
theorem packWritesThePackedBits : Obligations.PackWritesThePackedBits := by
  refine ⟨fun s hvalid htbits => ⟨fun hroom => ?_, exec_pack_capacity hvalid⟩, fun s => exec_pack_sequence⟩
  have hlen : (pack s.tbits).length = ceil8 s.tbc := by rw [length_pack, ← htbits.1]
  refine ⟨_, exec_pack_eq hvalid hroom, hlen, fun a ha => ?_, fun a ha => putOut_read_of_le s (hlen ▸ ha), rfl⟩
  have hcell : (pack s.tbits)[a]?.isSome = true := by rwa [isSome_getElem?, hlen]
  have hread := putOut_read_of_lt s (hlen ▸ ha)
  exact ⟨hread, (congrArg Option.isSome hread).trans hcell⟩

/-! ## UNPACK -/

section
variable {s : State}

/-- UNPACK of an input that fits `IN` and `TBITS` writes its bits and reports success (45_bit_packer.md R169). -/
theorem exec_unpack_eq (hin : s.inLen ≤ s.params.inCap) (hbits : 8 * s.inLen ≤ s.params.tbitsCap) :
    exec .unpack s = .next { s with
      tbits := unpack (inputBytes s), tbc := 8 * s.inLen, errcode := none,
      status := { s.status with done := true, err := false, tbitsValid := true } } := by
  have hbody : bodyUnpack (beginCommand s) = .ok (putTbits (unpack (inputBytes s)) (beginCommand s)) :=
    (withInput_le (s := beginCommand s) hin _).trans (if_neg (Nat.not_lt.mpr hbits))
  rw [exec_unpack, runCommand_ok rfl hbody, putTbits, length_unpack, length_inputBytes]
  rfl

/-- A longer input, or one whose bits do not fit `TBITS`, raises (60_exceptions.md R215 (a), (b)). -/
theorem bodyUnpack_capacity (h : s.params.inCap < s.inLen ∨ s.params.tbitsCap < 8 * s.inLen) :
    bodyUnpack s = .raise .capacity := by
  by_cases hin : s.params.inCap < s.inLen
  · exact bodyUnpack_over hin
  · rw [bodyUnpack, withInput_le (Nat.not_lt.mp hin), if_pos (h.resolve_left hin)]

end

/-- Settles O27, by the two ends of UNPACK; it requires no product, so it is never out of sequence (10_state.md R40). -/
theorem unpackWritesTheInputBits : Obligations.UnpackWritesTheInputBits := by
  refine ⟨fun s => exec_unpack_eq, fun s h => ?capacity⟩
  case capacity =>
    rw [exec_unpack]
    exact runCommand_raise rfl (bodyUnpack_capacity (s := beginCommand s) h)

end Sys2Proof.Machine
end

section
/-! PROOFS of the statements of 46_codec_facade.md. The tree walk on any bits and the two round trips of the codec as functions;
the ends of EMIT, PARSE and DECODE; what COMPRESS and DECOMPRESS leave, that they compute the codec's functions, that nothing
else decides what the host sees of them, and the round trip on the machine. -/

namespace Sys2Proof.Machine

/-! ## The tree walk (46_codec_facade.md R183, R184) -/

section
variable {w : Nat} {l r : Tree} {s : Byte} {path : BitSeq}

/-- A path that leads to a leaf is one of the listed paths (43_code_table.md R135); the converse of `follow_of_paths`. -/
theorem paths_of_follow {t : Tree} {v : Nat} (h : t.follow path = some (.leaf v s)) (before : BitSeq) :
    (s, before ++ path) ∈ paths t before := by
  induction path generalizing t before with
  | nil =>
    obtain rfl : t = .leaf v s := Option.some.inj h
    simp [paths]
  | cons b path ih =>
    cases t with
    | leaf => cases h
    | internal u l r =>
      rw [List.append_cons, paths, List.mem_append]
      cases b with
      | false => exact .inl (ih h _)
      | true => exact .inr (ih h _)

/-- A path that leads to an Internal node goes on to a leaf: the leftmost one below it. -/
theorem exists_paths_of_follow_internal {t : Tree} {v : Nat} {l r : Tree} (h : t.follow path = some (.internal v l r)) :
    ∃ s more, more ≠ [] ∧ (s, path ++ more) ∈ paths t [] := by
  have hleft := leftmost_paths (.internal v l r) []
  obtain ⟨more, _, hmore, hfollow⟩ := follow_of_paths hleft
  refine ⟨_, more, ?_, paths_of_follow ((Tree.follow_append _ _ _ _ h).trans hfollow) []⟩
  rintro rfl
  cases hfollow

/-- Bits that lead from the root to a leaf give its symbol, and the walk goes on at the root. -/
theorem walk_of_follow_leaf {v : Nat} (h : (Tree.internal w l r).follow path = some (.leaf v s)) (rest : BitSeq) :
    walk (.internal w l r) (path ++ rest) = s :: walk (.internal w l r) rest :=
  walkFrom_path (paths_of_follow h []) rest fun _ _ => Tree.noConfusion

/-- Bits that stop short of the end of a path give no symbol. -/
theorem walk_of_unfinished {more : BitSeq} (h : (s, path ++ more) ∈ paths (.internal w l r) []) (hmore : more ≠ []) :
    walk (.internal w l r) path = [] :=
  walkFrom_unfinished (p := []) h hmore

end

/-- Settles O19, case by case of where the bits end: at a leaf, at an Internal node, or inside a code word after whole ones. -/
theorem unfinishedCodeWordIsDropped : Obligations.UnfinishedCodeWordIsDropped := by
  refine ⟨fun _ _ _ => rfl, fun w l r path rest v s h => walk_of_follow_leaf h rest,
    fun w l r path v l' r' h => ?internal, fun w l r bytes enc p q s henc hp hq hne => ?unfinished⟩
  case internal =>
    obtain ⟨s, more, hmore, hpath⟩ := exists_paths_of_follow_internal h
    exact walk_of_unfinished hpath hmore
  case unfinished =>
    obtain ⟨more, rfl⟩ := hq
    have hmore : more ≠ [] := by rintro rfl; exact hne (List.append_nil q).symm
    rw [walk_encode_append henc, walk_of_unfinished (codes_mem_paths hp) hmore, List.append_nil]

/-! ## The codec as functions (46_codec_facade.md R191, R192, R194) -/

section
variable {p : Params} {t : Tree} {bytes : List Byte} {enc : BitSeq}

/-- `compress(B)` with a tree that has a code for every byte (46_codec_facade.md R194). -/
theorem compressWith_eq (henc : encodeBytes (codes t) bytes = some enc) : compressWith t bytes =
    some (container (BitVec.ofNat 32 (serialize t).length) (serialize t) enc, enc.length) := by
  rw [compressWith, henc]

/-- A zero length field gives no bytes, whatever follows it (46_codec_facade.md R190). -/
theorem decompress_of_zero {c : List Byte} (lim : Option Nat) (h4 : 4 ≤ c.length) (hzero : lengthField c = 0) :
    decompress p c lim = .ok [] := by
  simp [decompress, hzero, ceil8, Nat.not_lt.mpr h4]

/-- Limited to the exact number of its bits, a container with a conforming tree gives the bytes back (46_codec_facade.md R191). -/
theorem decompress_container_limited (hp : p.Ok) (hleaves : t.leaves.length ≤ 256)
    (henc : encodeBytes (codes t) bytes = some enc) :
    decompress p (container (BitVec.ofNat 32 (serialize t).length) (serialize t) enc) (some enc.length) = .ok bytes := by
  rw [decompress_container t hleaves hp.tbitsLo, limited_exact, walk_encode henc]

/-- What pad zeros give: a symbol each with a single-leaf tree, else the leftmost leaf once for each of its all-zeros codes
(46_codec_facade.md R192 (b), (c)). -/
def padSymbols (t : Tree) (pad : Nat) : List Byte :=
  if t.leftmost.2 = 0 then List.replicate pad t.leftmost.1 else List.replicate (pad / t.leftmost.2) t.leftmost.1

/-- The walk over encoded bytes and the pad zeros after them. -/
theorem walk_encode_pad (henc : encodeBytes (codes t) bytes = some enc) (pad : Nat) :
    walk t (enc ++ List.replicate pad false) = bytes ++ padSymbols t pad := by
  cases t with
  | leaf w s =>
    obtain ⟨hbits, hbytes⟩ := walk_encode_leaf henc
    have hlen : enc.length = bytes.length := by rw [hbits, List.length_replicate]
    rw [walk, List.length_append, List.length_replicate, hlen, List.replicate_add, ← hbytes]
    rfl
  | internal w l r =>
    have hdepth : (Tree.internal w l r).leftmost.2 ≠ 0 := Nat.succ_ne_zero _
    rw [walk_encode_append henc, walk_zeros, padSymbols, if_neg hdepth]

end

/-- Settles O17: the limit drops the pad bits, and walking the code words gives the bytes (`walk_encode`). -/
theorem boundedRoundTripForEveryHuffmanTree : Obligations.BoundedRoundTripForEveryHuffmanTree := by
  intro p bytes t hwf _ _ ht
  obtain ⟨⟨enc, henc⟩, hleaves⟩ := ht.encodes
  exact ⟨_, _, compressWith_eq henc, decompress_container_limited (Params.ok_of_wf hwf) hleaves henc⟩

/-- Settles O18: without a limit the walk goes on over the pad bits (`walk_encode_pad`). -/
theorem exhaustionModeAppendsPadSymbols : Obligations.ExhaustionModeAppendsPadSymbols := by
  intro p hwf
  refine ⟨decompress_of_zero none (Nat.le_refl 4) rfl, fun bytes t _ _ ht => ?_⟩
  obtain ⟨⟨enc, henc⟩, hleaves⟩ := ht.encodes
  refine ⟨_, _, compressWith_eq henc, ?_⟩
  rw [decompress_container t hleaves (Params.ok_of_wf hwf).tbitsLo, limited, unpack_pack_eq, walk_encode_pad henc]
  rfl

/-! ## EMIT -/

theorem length_container (w : Word) (tbits enc : BitSeq) :
    (container w tbits enc).length = 4 + ceil8 tbits.length + ceil8 enc.length := by
  rw [container, List.length_append, List.length_append, length_be32, length_pack, length_pack]

section
variable {s : State} {enc : BitSeq}

section
variable (hcode : s.status.codeValid = true) (htbits : s.status.tbitsValid = true)
include hcode htbits

/-- EMIT with its products, where its Pseudocode raises. -/
theorem exec_emit_raise {e : ErrKind} (h : bodyEmit (beginCommand s) = .raise e) :
    exec .emit s = .next (callError e s) := by
  rw [exec_emit]
  exact runCommand_raise (Bool.and_eq_true_iff.mpr ⟨hcode, htbits⟩) h

/-- EMIT with a code for every byte and room for the container writes it and reports success (46_codec_facade.md R181). -/
theorem exec_emit_eq (hin : s.inLen ≤ s.params.inCap) (henc : encodeBytes (codeOf s.code) (inputBytes s) = some enc)
    (hroom : 4 + ceil8 s.tbc + ceil8 enc.length ≤ s.params.outCap) :
    exec .emit s = .next { putOut (container (lengthWord s.tick s.tbc) s.tbits enc) s with
      encBits := encBitsValue s.params s.tick enc.length, errcode := none,
      status := { s.status with done := true, err := false, outValid := true } } := by
  rw [exec_emit]
  exact runCommand_ok (Bool.and_eq_true_iff.mpr ⟨hcode, htbits⟩)
    ((bodyEmit_eq (s := beginCommand s) hin henc).trans (if_neg (Nat.not_lt.mpr hroom)))

/-- EMIT without room for the container (60_exceptions.md R215). -/
theorem exec_emit_full (hin : s.inLen ≤ s.params.inCap) (henc : encodeBytes (codeOf s.code) (inputBytes s) = some enc)
    (hfull : s.params.outCap < 4 + ceil8 s.tbc + ceil8 enc.length) : exec .emit s = .next (callError .capacity s) :=
  exec_emit_raise hcode htbits ((bodyEmit_eq (s := beginCommand s) hin henc).trans (if_pos hfull))

/-- EMIT of an input with a byte that has no code (60_exceptions.md R216). -/
theorem exec_emit_missing (hin : s.inLen ≤ s.params.inCap) (hnone : encodeBytes (codeOf s.code) (inputBytes s) = none) :
    exec .emit s = .next (callError .missingCode s) := by
  refine exec_emit_raise hcode htbits ?_
  rw [bodyEmit, withInput_le (s := beginCommand s) hin, beginCommand_code, inputBytes_beginCommand, hnone]

/-- EMIT of an input longer than `IN_CAP` (60_exceptions.md R215 (a)). -/
theorem exec_emit_over (hover : s.params.inCap < s.inLen) : exec .emit s = .next (callError .capacity s) :=
  exec_emit_raise hcode htbits (bodyEmit_over (s := beginCommand s) hover)

end

/-- EMIT without codes or without tree bits (10_state.md R40, 60_exceptions.md R214). -/
theorem exec_emit_sequence (hmissing : s.status.codeValid = false ∨ s.status.tbitsValid = false) :
    exec .emit s = .next (interfaceError .sequence s) := by
  rw [exec_emit]
  exact runCommand_sequence (Bool.and_eq_false_iff.mpr hmissing)

/-- The bits of the code table's entry for a byte (10_state.md R28). -/
def entryBits (s : State) (x : Byte) : BitSeq := (s.code.getD x.toNat CodeEntry.absent).bits

/-- With a code for every input byte, the encoded bits are those of the entries, one after another (46_codec_facade.md R180). -/
theorem encodeBytes_entries (hall : ∀ i, i < s.inLen → (s.code.getD (inByte s i).toNat CodeEntry.absent).len ≠ 0) :
    encodeBytes (codeOf s.code) (inputBytes s) = some ((List.range s.inLen).flatMap fun i => entryBits s (inByte s i)) := by
  have hcode : ∀ b ∈ inputBytes s, codeOf s.code b = some (entryBits s b) := by
    intro b hb
    obtain ⟨i, hi, rfl⟩ := List.mem_map.mp hb
    rw [codeOf_eq, if_neg (hall i (List.mem_range.mp hi)), entryBits]
  rw [encodeBytes_flatMap hcode, inputBytes, List.flatMap_map]

/-- One input byte without a code, and there is no encoding (60_exceptions.md R216). -/
theorem encodeBytes_entries_none {i : Nat} (hi : i < s.inLen)
    (hnone : (s.code.getD (inByte s i).toNat CodeEntry.absent).len = 0) :
    encodeBytes (codeOf s.code) (inputBytes s) = none := by
  refine encodeBytes_none (List.mem_map_of_mem (List.mem_range.mpr hi)) ?_
  rw [codeOf_eq, if_pos hnone]

/-- A `TBITS_CAP` of at most 2568 bounds the codes to 255 bits (10_state.md R28, 44_tree_codec.md R147). -/
theorem codeOf_length_le (hok : CodeOk s) (hcap : s.params.tbitsCap ≤ 2568) {x : Byte} {p : BitSeq}
    (hp : codeOf s.code x = some p) : p.length ≤ 255 := by
  rw [codeOf_eq] at hp
  split at hp
  next => cases hp
  next =>
    have hentry : s.code[x.toNat]? = some (s.code.getD x.toNat CodeEntry.absent) := by
      simp [Vector.getD, x.isLt]
    obtain ⟨hlen, hle⟩ := hok.1 _ _ hentry
    rw [← Option.some.inj hp]
    omega

/-- Codes of at most 255 bits encode an input in a bit count that fits `ENC_BITS` (00_scope.md R6). -/
theorem encodeBytes_length_lt {code : Byte → Option BitSeq} (hp : s.params.Ok) (hin : s.inLen ≤ s.params.inCap)
    (hcode : ∀ x p, code x = some p → p.length ≤ 255) (henc : encodeBytes code (inputBytes s) = some enc) :
    enc.length < 2 ^ s.params.bitcntW := by
  have hle := encodeBytes_length_le hcode henc
  have hbits := hp.inBits
  rw [length_inputBytes] at hle
  omega

end

/-- Settles O28, by the five ends of EMIT. The cells and the length follow from the container's length, since `TBC` counts the
bits of `TBITS` (10_state.md R30); the two widths from the bound on the codes (R28). -/
theorem emitWritesTheContainer : Obligations.EmitWritesTheContainer := by
  refine ⟨fun s enc hcode htbits hcodeOk htbitsOk hin hall henc => ?_, fun s hcode htbits hin => ?missing,
    fun s => exec_emit_over, fun s => exec_emit_sequence⟩
  case missing =>
    rintro ⟨i, hi, hnone⟩
    exact exec_emit_missing hcode htbits hin (encodeBytes_entries_none hi hnone)
  intro n
  have hencode : encodeBytes (codeOf s.code) (inputBytes s) = some enc := henc ▸ encodeBytes_entries hall
  have hlen : (container (lengthWord s.tick s.tbc) s.tbits enc).length = n := by
    rw [length_container, ← htbitsOk.1]
  refine ⟨fun hwf hcap => ⟨?encFits, ?tbcFits⟩, fun hroom => ?written, exec_emit_full hcode htbits hin hencode⟩
  case encFits =>
    exact encodeBytes_length_lt (Params.ok_of_wf hwf) hin (fun _ _ => codeOf_length_le hcodeOk hcap) hencode
  case tbcFits =>
    obtain ⟨htbc, hfits⟩ := htbitsOk
    omega
  case written =>
    obtain ⟨houtLen, hcells, hrest⟩ := putOut_spec (container (lengthWord s.tick s.tbc) s.tbits enc) s
    rw [hlen] at houtLen hcells hrest
    exact ⟨_, _, exec_emit_eq hcode htbits hin hencode hroom, houtLen, encBitsValue_eq, encBitsValue_lt _ _,
      lengthWord_toNat, hcells, hrest, rfl⟩

/-! ## PARSE -/

section
variable {s : State}

/-- PARSE of a container reads its two fields and reports success (46_codec_facade.md R182). -/
theorem exec_parse_eq (hin : s.inLen ≤ s.params.inCap) (h4 : 4 ≤ s.inLen)
    (hcut : ceil8 (lengthField (inputBytes s)) ≤ s.inLen - 4) (hcap : lengthField (inputBytes s) ≤ s.params.tbitsCap) :
    exec .parse s = .next { s with
      tbits := (parsedOf s).tbits, tbc := (parsedOf s).tbc, dataOff := (parsedOf s).dataOff, errcode := none,
      status := { s.status with done := true, err := false, tbitsValid := true, parseValid := true } } := by
  rw [exec_parse]
  exact runCommand_ok rfl (bodyParse_ok (s := beginCommand s) hin h4 hcut hcap)

/-- PARSE whose Pseudocode raises. -/
theorem exec_parse_raise {e : ErrKind} (h : bodyParse (beginCommand s) = .raise e) :
    exec .parse s = .next (callError e s) := by
  rw [exec_parse]
  exact runCommand_raise rfl h

end

/-- Settles O29, by the five ends of PARSE; the length field and the tree section are ranges of the input's cells. -/
theorem parseReadsTheTreeSection : Obligations.ParseReadsTheTreeSection := by
  intro s len n hlen hn
  refine ⟨fun hover => exec_parse_raise (bodyParse_over hover), fun hin =>
    ⟨fun hshort => exec_parse_raise (bodyParse_short hin hshort), fun h4 hcut => ?cut, fun h4 hcut hcap => ?capacity,
      fun h4 hcut hcap => ?parsed⟩⟩
  all_goals
    rw [← lengthField_inputBytes h4] at hlen
    subst hlen hn
  case cut => exact exec_parse_raise (bodyParse_cut hin h4 hcut)
  case capacity => exact exec_parse_raise (bodyParse_capacity hin h4 hcut hcap)
  case parsed =>
    refine ⟨_, exec_parse_eq hin h4 hcut hcap, ?_, parsedOf_tbits_length hcut, rfl, rfl, rfl⟩
    rw [← drop_inputBytes s 4 _ (by omega)]
    rfl

/-! ## DECODE -/

section
variable {s : State} {lim : Bool} {u : Tree}

/-- The Pseudocode of DECODE on a tree: the walk's symbols are written, if they fit (46_codec_facade.md R186). -/
theorem bodyDecode_eq (hin : s.inLen ≤ s.params.inCap) (hu : treeOperand s = some u) :
    bodyDecode lim s = if s.params.outCap < (walk u (walkedBits lim (inputBytes s) s)).length then .raise .capacity
      else .ok (putOut (walk u (walkedBits lim (inputBytes s) s)) s) := by
  rw [bodyDecode, withInput_le hin, withTree_eq hu]

section
variable (htree : s.status.treeValid = true) (hparse : s.status.parseValid = true)
include htree hparse

/-- DECODE with its products, where its Pseudocode raises. -/
theorem exec_decode_raise {e : ErrKind} (h : bodyDecode lim (beginCommand s) = .raise e) :
    exec (.decode lim) s = .next (callError e s) := by
  rw [exec_decode]
  exact runCommand_raise (Bool.and_eq_true_iff.mpr ⟨htree, hparse⟩) h

/-- DECODE with room for the symbols writes them and reports success (46_codec_facade.md R186). -/
theorem exec_decode_eq (hin : s.inLen ≤ s.params.inCap) (hu : treeOperand s = some u)
    (hroom : (walk u (walkedBits lim (inputBytes s) s)).length ≤ s.params.outCap) :
    exec (.decode lim) s = .next { putOut (walk u (walkedBits lim (inputBytes s) s)) s with
      errcode := none, status := { s.status with done := true, err := false, outValid := true } } := by
  rw [exec_decode]
  exact runCommand_ok (Bool.and_eq_true_iff.mpr ⟨htree, hparse⟩)
    ((bodyDecode_eq (s := beginCommand s) hin hu).trans (if_neg (Nat.not_lt.mpr hroom)))

/-- DECODE without room for the symbols (60_exceptions.md R215). -/
theorem exec_decode_full (hin : s.inLen ≤ s.params.inCap) (hu : treeOperand s = some u)
    (hfull : s.params.outCap < (walk u (walkedBits lim (inputBytes s) s)).length) :
    exec (.decode lim) s = .next (callError .capacity s) :=
  exec_decode_raise htree hparse ((bodyDecode_eq (s := beginCommand s) hin hu).trans (if_pos hfull))

/-- DECODE of an input longer than `IN_CAP` (60_exceptions.md R215 (a)). -/
theorem exec_decode_over (hover : s.params.inCap < s.inLen) : exec (.decode lim) s = .next (callError .capacity s) :=
  exec_decode_raise htree hparse (bodyDecode_over (s := beginCommand s) hover)

end

/-- DECODE without a tree or without a parsed container (10_state.md R40, 60_exceptions.md R214). -/
theorem exec_decode_sequence (hmissing : s.status.treeValid = false ∨ s.status.parseValid = false) :
    exec (.decode lim) s = .next (interfaceError .sequence s) := by
  rw [exec_decode]
  exact runCommand_sequence (Bool.and_eq_false_iff.mpr hmissing)

/-- The walked bits are the data section's, cell by cell, or the first `DATA_LIMIT` of them (46_codec_facade.md R185). -/
theorem walkedBits_eq {all : BitSeq}
    (hall : all = unpack ((List.range (s.inLen - s.dataOff)).map fun i => inByte s (s.dataOff + i))) :
    walkedBits lim (inputBytes s) s = if lim = true then all.take s.dataLimit else all := by
  rw [walkedBits, drop_inputBytes_all, ← hall]
  cases lim <;> rfl

end

/-- Settles O31, by the four ends of DECODE. -/
theorem decodeWalksTheDataSection : Obligations.DecodeWalksTheDataSection := by
  refine ⟨fun s lim u all bits htree hparse _ hu hin hall hbits => ?_, fun s lim => exec_decode_over,
    fun s lim => exec_decode_sequence⟩
  obtain rfl : bits = walkedBits lim (inputBytes s) s := hbits.trans (walkedBits_eq hall).symm
  refine ⟨fun hroom => ?_, exec_decode_full htree hparse hin hu⟩
  obtain ⟨houtLen, hcells, hrest⟩ := putOut_spec (walk u (walkedBits lim (inputBytes s) s)) s
  exact ⟨_, exec_decode_eq htree hparse hin hu hroom, houtLen, hcells, hrest, rfl⟩

/-! ## COMPRESS -/

section
variable {s : State}

/-- An `IN_LEN` of 0 is the empty input. -/
theorem inputBytes_eq_nil (h0 : s.inLen = 0) : inputBytes s = [] :=
  List.eq_nil_of_length_eq_zero ((length_inputBytes s).trans h0)

/-- No byte, no count (41_frequency_counter.md R110). -/
theorem freqOf_histogram_empty (h0 : s.inLen = 0) (x : Byte) : freqOf (histogram (inputBytes s)) x = 0 := by
  rw [freqOf_histogram, inputBytes_eq_nil h0, List.count_nil]

/-- Without counts `SYM_COUNT` is 0 (41_frequency_counter.md R111). -/
theorem symbolsUsed_of_zero {freq : Vector Nat 256} (hzero : ∀ x, freqOf freq x = 0) : symbolsUsed freq = 0 := by
  rw [symbolsUsed_eq, List.length_eq_zero_iff]
  by_contra hne
  obtain ⟨x, hx⟩ := alphabet_ne_nil.mpr hne
  exact hx (hzero x)

/-- What COMPRESS of the empty input leaves (46_codec_facade.md R188). -/
def emptiedOf (s : State) : State :=
  { emptyContainer (countedOf s) with errcode := none, status := ⟨true, false, true, false, false, false, false, true⟩ }

/-- COMPRESS of the empty input (46_codec_facade.md R188). -/
theorem exec_compress_empty (h0 : s.inLen = 0) : exec .compress s = .next (emptiedOf s) := by
  have hin : (beginCommand s).inLen ≤ (beginCommand s).params.inCap := h0.trans_le (Nat.zero_le _)
  have hbody : bodyCompress (beginCommand s) = .ok (emptyContainer (countedOf (beginCommand s))) := by
    rw [bodyCompress, andThen_ok (bodyCount_clear hin)]
    exact if_pos h0
  rw [exec_compress, runCommand_ok rfl hbody]
  have hempty : (s.inLen == 0) = true := beq_iff_eq.mpr h0
  change Host.Outcome.next { emptyContainer (countedOf (beginCommand s)) with
    status := (Status.afterCompress (s.inLen == 0) s.status.started.noneValid).succeeded } = _
  rw [hempty]
  rfl

/-- COMPRESS of an input longer than `IN_CAP` (60_exceptions.md R215 (a)). -/
theorem exec_compress_over (hover : s.params.inCap < s.inLen) : exec .compress s = .next (callError .capacity s) := by
  rw [exec_compress]
  exact runCommand_raise rfl (bodyCompress_over (s := beginCommand s) hover)

end

/-- The stages of COMPRESS on an input that is not empty: the tree `u` they build, and the code words `enc` of the input
(46_codec_facade.md R187). -/
structure Compresses (s : State) (u : Tree) (enc : BitSeq) : Prop where
  tree : buildTree s.params (histogram (inputBytes s)) = some u
  huffman : HuffmanTree (fun x => (inputBytes s).count x) u
  codes : encodeBytes (codes u) (inputBytes s) = some enc
  operand : treeOperand (stagesOf s u) = some u
  treeOk : TreeOk (stagesOf s u)
  body : bodyCompress (beginCommand s) = bodyEmit (stagesOf (beginCommand s) u)

/-- The container of the tree and the code words (46_codec_facade.md R181). -/
def containerOf (u : Tree) (enc : BitSeq) : List Byte :=
  container (BitVec.ofNat 32 (serialize u).length) (serialize u) enc

/-- What COMPRESS of an input that is not empty leaves (46_codec_facade.md R187). -/
def compressedOf (s : State) (u : Tree) (enc : BitSeq) : State :=
  { putOut (containerOf u enc) (stagesOf s u) with
    encBits := enc.length, errcode := none, status := ⟨true, false, true, true, true, true, false, true⟩ }

/-- Every input that is not empty and fits `IN` goes through the stages. -/
theorem exists_compresses {s : State} (hp : s.params.Ok) (h0 : s.inLen ≠ 0) (hin : s.inLen ≤ s.params.inCap) :
    ∃ u enc, Compresses s u enc := by
  obtain ⟨u, htree, hhuffman, _, hoperand, hok, hbody⟩ := compress_stages (s := beginCommand s) hp hin h0
  obtain ⟨⟨enc, hcodes⟩, _⟩ := hhuffman.encodes
  exact ⟨u, enc, htree, hhuffman, hcodes, hoperand, hok, hbody⟩

namespace Compresses

variable {s : State} {u : Tree} {enc : BitSeq} (c : Compresses s u enc)
include c

theorem leaves_le : u.leaves.length ≤ 256 := c.huffman.encodes.2

/-- The codec's function gives the container of the stages and the number of their code bits (46_codec_facade.md R194). -/
theorem compress_eq (h0 : s.inLen ≠ 0) :
    compress s.params (inputBytes s) = some (containerOf u enc, enc.length) := by
  have hne : inputBytes s ≠ [] := fun h => h0 (by rw [← length_inputBytes, h, List.length_nil])
  rw [compress, if_neg hne, c.tree]
  exact compressWith_eq c.codes

/-- EMIT in the state the stages leave: the container is written, if it fits. -/
theorem bodyCompress_eq (hp : s.params.Ok) (hin : s.inLen ≤ s.params.inCap) :
    bodyCompress (beginCommand s) = if s.params.outCap < (containerOf u enc).length then .raise .capacity
      else .ok { putOut (containerOf u enc) (stagesOf (beginCommand s) u) with encBits := enc.length } := by
  have henc : encodeBytes (codeOf (codeTable u)) (inputBytes s) = some enc :=
    (encodeBytes_congr (codeOf_codeTable u) _).trans c.codes
  have hfits : enc.length < 2 ^ s.params.bitcntW :=
    encodeBytes_length_lt hp hin (fun _ _ hcode => (codes_len hcode).2 c.leaves_le) c.codes
  have hemit := bodyEmit_eq (s := stagesOf (beginCommand s) u) hin henc
  rw [c.body, hemit, containerOf, length_container]
  change (if s.params.outCap < 4 + ceil8 (serialize u).length + ceil8 enc.length then _ else Body.ok
    { putOut (container (lengthWord s.tick (serialize u).length) (serialize u) enc) (stagesOf (beginCommand s) u) with
      encBits := encBitsValue s.params s.tick enc.length }) = _
  rw [lengthWord_serialize c.leaves_le, encBitsValue_eq hfits]

/-- COMPRESS with room for the container (46_codec_facade.md R187). -/
theorem exec_compress_eq (hp : s.params.Ok) (h0 : s.inLen ≠ 0) (hin : s.inLen ≤ s.params.inCap)
    (hroom : (containerOf u enc).length ≤ s.params.outCap) : exec .compress s = .next (compressedOf s u enc) := by
  rw [exec_compress, runCommand_ok rfl ((c.bodyCompress_eq hp hin).trans (if_neg (Nat.not_lt.mpr hroom)))]
  have hne : (s.inLen == 0) = false := beq_eq_false_iff_ne.mpr h0
  change Host.Outcome.next { putOut (containerOf u enc) (stagesOf (beginCommand s) u) with
    encBits := enc.length
    status := (Status.afterCompress (s.inLen == 0) s.status.started.noneValid).succeeded } = _
  rw [hne]
  rfl

/-- COMPRESS without room for it (60_exceptions.md R215). -/
theorem exec_compress_full (hp : s.params.Ok) (hin : s.inLen ≤ s.params.inCap)
    (hfull : s.params.outCap < (containerOf u enc).length) : exec .compress s = .next (callError .capacity s) := by
  rw [exec_compress]
  exact runCommand_raise rfl ((c.bodyCompress_eq hp hin).trans (if_pos hfull))

end Compresses

/-- The flags of the row `IN_LEN` = 0 of COMPRESS (10_state.md R35, R40). -/
theorem image_emptied : Status.image ⟨true, false, true, false, false, false, false, true⟩ = 0x211 := by decide

/-- The flags of the row `IN_LEN` > 0 of COMPRESS (10_state.md R35, R40). -/
theorem image_compressed : Status.image ⟨true, false, true, true, true, true, false, true⟩ = 0x2F1 := by decide

/-- Settles O33: the frame of COMPRESS around the empty container; no count, no symbol. -/
theorem compressOfEmptyInput : Obligations.CompressOfEmptyInput := by
  intro s h0
  have hfreq := freqOf_histogram_empty h0
  obtain ⟨houtLen, hcells, hrest⟩ := putOut_spec [0, 0, 0, 0] (countedOf s)
  refine ⟨_, exec_compress_empty h0, houtLen, fun a ha => ?cell, hrest, rfl, rfl, rfl, ?symCount, hfreq, rfl, rfl, rfl,
    fun i hi => tabulate_const_getElem? CodeEntry.absent hi, rfl, image_emptied, rfl⟩
  case cell =>
    refine (hcells a ha).1.trans ?_
    interval_cases a <;> rfl
  case symCount => exact congrArg (BitVec.ofNat 9) (symbolsUsed_of_zero hfreq)

/-- Settles O32: the stages leave each its product, EMIT the container that `compress` names, and there is room for it or
not. -/
theorem compressComputesTheContainer : Obligations.CompressComputesTheContainer := by
  refine ⟨fun s hwf h0 hin => ?_, fun s => exec_compress_over⟩
  have hp := Params.ok_of_wf hwf
  obtain ⟨u, enc, c⟩ := exists_compresses hp h0 hin
  refine ⟨u, containerOf u enc, enc.length, c.tree, c.huffman, c.compress_eq h0, fun hroom => ?_, c.exec_compress_full hp hin⟩
  obtain ⟨houtLen, hcells, hrest⟩ := putOut_spec (containerOf u enc) (stagesOf s u)
  refine ⟨_, c.exec_compress_eq hp h0 hin hroom, houtLen, rfl, fun a ha => (hcells a ha).1.symm, hrest, freqOf_histogram _,
    symCount_toNat _, c.operand, treeOk_congr c.treeOk rfl rfl rfl rfl, fun j hj => ?record, fun x => ?entry, rfl, rfl, rfl,
    image_compressed, rfl⟩
  case record =>
    exact putTree_node_records (s := countedOf s) (buildRecords_length_le hp (histogram_pos h0)) 0 hj
  case entry =>
    refine (codeTable_getElem? u x).trans ?_
    cases codes u x <;> rfl

/-! ## DECOMPRESS -/

/-- The bits of a container's tree section (46_codec_facade.md R182). -/
def treeBits (bytes : List Byte) : BitSeq :=
  (unpack ((bytes.drop 4).take (ceil8 (lengthField bytes)))).take (lengthField bytes)

/-- The bits of its data section that are walked (46_codec_facade.md R185). -/
def dataBits (bytes : List Byte) (limit : Option Nat) : BitSeq :=
  limited limit (unpack (bytes.drop (4 + ceil8 (lengthField bytes))))

/-- The tree DECOMPRESS finds in the tree section, if any. -/
def treeRead (s : State) : Option Tree := deserialize s.params (treeBits (inputBytes s))

/-- The state in which DECOMPRESS has read the tree section: the container parsed, and the tree's records written
(44_tree_codec.md R154); without a tree, as after a zero length field (46_codec_facade.md R190). -/
def rebuiltOf (s : State) : State :=
  { parsedOf s with
    node := (treeRead s).elim (parsedOf s).node fun u => nodeTable s.params (preorderRecords s.params u 0)
    nodeCount := (treeRead s).elim 0 fun u => (preorderRecords s.params u 0).length }

/-- What DECOMPRESS that gives the bytes `out` leaves (46_codec_facade.md R189, R190). -/
def decompressedOf (s : State) (out : List Byte) : State :=
  { putOut out (rebuiltOf s) with
    errcode := none, status := ⟨true, false, false, (treeRead s).isSome, false, true, true, true⟩ }

/-- `decompress(C, lim)` on a core with its capacities: an input that does not fit `IN`, or bytes that do not
fit `OUT`, are a Capacity error (46_codec_facade.md R194, 60_exceptions.md R215). -/
def decompressWithin (p : Params) (bytes : List Byte) (limit : Option Nat) : Except ErrKind (List Byte) :=
  if p.inCap < bytes.length then .error .capacity
  else
    match decompress p bytes limit with
    | .error e => .error e
    | .ok out => if p.outCap < out.length then .error .capacity else .ok out

section
variable {p : Params} {bytes out : List Byte} {limit : Option Nat} {e : ErrKind}

theorem decompressWithin_over (hover : p.inCap < bytes.length) : decompressWithin p bytes limit = .error .capacity :=
  if_pos hover

theorem decompressWithin_error (hin : bytes.length ≤ p.inCap) (h : decompress p bytes limit = .error e) :
    decompressWithin p bytes limit = .error e := by
  rw [decompressWithin, if_neg (Nat.not_lt.mpr hin), h]

theorem decompressWithin_full (hin : bytes.length ≤ p.inCap) (h : decompress p bytes limit = .ok out)
    (hfull : p.outCap < out.length) : decompressWithin p bytes limit = .error .capacity := by
  rw [decompressWithin, if_neg (Nat.not_lt.mpr hin), h]
  exact if_pos hfull

theorem decompressWithin_ok (hin : bytes.length ≤ p.inCap) (h : decompress p bytes limit = .ok out)
    (hroom : out.length ≤ p.outCap) : decompressWithin p bytes limit = .ok out := by
  rw [decompressWithin, if_neg (Nat.not_lt.mpr hin), h]
  exact if_neg (Nat.not_lt.mpr hroom)

/-- Bytes come out only of an input that fits, and only where they fit. -/
theorem decompressWithin_eq_ok (h : decompressWithin p bytes limit = .ok out) :
    bytes.length ≤ p.inCap ∧ decompress p bytes limit = .ok out := by
  by_cases hover : p.inCap < bytes.length
  · cases (decompressWithin_over hover).symm.trans h
  have hin := Nat.not_lt.mp hover
  cases hd : decompress p bytes limit with
  | error e => cases (decompressWithin_error hin hd).symm.trans h
  | ok out' =>
    by_cases hfull : p.outCap < out'.length
    · cases (decompressWithin_full hin hd hfull).symm.trans h
    · cases (decompressWithin_ok hin hd (Nat.not_lt.mp hfull)).symm.trans h
      exact ⟨hin, rfl⟩

end

section
variable {s : State} {lim : Bool} {limit : Option Nat}

theorem rebuiltOf_none (h : treeRead s = none) : rebuiltOf s = parsedOf s := by
  rw [rebuiltOf, h]
  rfl

theorem rebuiltOf_some {u : Tree} (h : treeRead s = some u) :
    rebuiltOf s = putTree (preorderRecords s.params u 0) 0 (parsedOf s) := by
  rw [rebuiltOf, h]
  rfl

/-- The records of the tree stand for it, in pre-order from 0 (44_tree_codec.md R153 to R155). -/
theorem rebuiltOf_tree {u : Tree} (hp : s.params.Ok) (htbits : TbitsOk (parsedOf s)) (h : treeRead s = some u) :
    treeOperand (rebuiltOf s) = some u ∧ TreeOk (rebuiltOf s) ∧
      visited (rebuiltOf s).node (rebuiltOf s).nodeCount 0 = List.range (rebuiltOf s).nodeCount := by
  obtain ⟨htree, hok, hcount, hvisits⟩ := putTree_preorder (s := parsedOf s) hp h htbits.2
  rw [rebuiltOf_some h]
  exact ⟨htree, hok, (congrArg (visited _ · 0) hcount).trans (hvisits.trans (congrArg List.range hcount.symm))⟩

/-- No tree bits, no tree (44_tree_codec.md R151). -/
theorem treeRead_of_zero (hzero : lengthField (inputBytes s) = 0) : treeRead s = none := by
  rw [treeRead, treeBits, hzero, List.take_zero]
  rfl

/-- The input passes the checks of PARSE: a header, and a tree section that is whole and fits `TBITS` (46_codec_facade.md R182). -/
structure Parses (s : State) : Prop where
  fits : s.inLen ≤ s.params.inCap
  header : 4 ≤ s.inLen
  whole : ceil8 (lengthField (inputBytes s)) ≤ s.inLen - 4
  room : lengthField (inputBytes s) ≤ s.params.tbitsCap

theorem Parses.parsed (h : Parses s) : bodyParse (clearCallState s) = .ok (parsedOf s) :=
  bodyParse_ok (s := clearCallState s) h.fits h.header h.whole h.room

theorem Parses.tbitsOk (h : Parses s) : TbitsOk (parsedOf s) := tbitsOk_parsedOf h.whole h.room

/-- How PARSE can end as the first stage of DECOMPRESS. -/
theorem bodyParse_clear_cases (s : State) : (∃ e, bodyParse (clearCallState s) = .raise e) ∨ Parses s := by
  rcases bodyParse_cases (clearCallState s) with hraise | hraise | ⟨hin, h4, hwhole, hroom, _⟩
  · exact .inl ⟨_, hraise⟩
  · exact .inl ⟨_, hraise⟩
  · exact .inr ⟨hin, h4, hwhole, hroom⟩

/-- Where PARSE raises, `decompress` fails in the same way (46_codec_facade.md R182, R194). -/
theorem decompress_of_parse_raise {e : ErrKind} (hin : s.inLen ≤ s.params.inCap)
    (h : bodyParse (clearCallState s) = .raise e) : decompress s.params (inputBytes s) limit = .error e := by
  rw [bodyParse, withInput_le (s := clearCallState s) hin] at h
  rw [decompress, length_inputBytes]
  split at h
  next h4 => cases h; exact if_pos h4
  next h4 =>
    refine (if_neg h4).trans ?_
    simp only at h ⊢
    split at h
    next hcut => cases h; exact if_pos hcut
    next hcut =>
      refine (if_neg hcut).trans ?_
      split at h
      next hcap => cases h; exact if_pos hcap
      next => cases h

/-- After a container's header, `decompress` reads the tree and walks it, or fails (46_codec_facade.md R194). -/
theorem decompress_parsed (hparses : Parses s) (hsome : lengthField (inputBytes s) ≠ 0) :
    decompress s.params (inputBytes s) limit =
      (treeRead s).elim (.error .malformedContainer) fun u => .ok (walk u (dataBits (inputBytes s) limit)) := by
  rw [decompress, length_inputBytes, if_neg (Nat.not_lt.mpr hparses.header)]
  simp only
  rw [if_neg (Nat.not_lt.mpr hparses.whole), if_neg (Nat.not_lt.mpr hparses.room), if_neg hsome, ← treeBits, ← treeRead]
  cases treeRead s <;> rfl

/-- Where `decompress` gives bytes: the tree bits are as many as the length field says, and they hold a tree unless there are
none. -/
theorem treeRead_of_decompress {out : List Byte} (hin : s.inLen ≤ s.params.inCap)
    (h : decompress s.params (inputBytes s) limit = .ok out) :
    TbitsOk (parsedOf s) ∧ (lengthField (inputBytes s) ≠ 0 → ∃ u, treeRead s = some u) := by
  rcases bodyParse_clear_cases s with ⟨e, he⟩ | hparses
  · cases (decompress_of_parse_raise hin he).symm.trans h
  · refine ⟨hparses.tbitsOk, fun hsome => ?_⟩
    rw [decompress_parsed hparses hsome] at h
    cases hread : treeRead s with
    | none => rw [hread] at h; cases h
    | some u => exact ⟨u, rfl⟩

/-- A zero length field ends DECOMPRESS without a tree walk (46_codec_facade.md R190). -/
theorem bodyDecompress_zero (hparses : Parses s) (hzero : lengthField (inputBytes s) = 0) :
    bodyDecompress lim s = .ok (putOut [] (rebuiltOf s)) := by
  rw [bodyDecompress, andThen_ok hparses.parsed, rebuiltOf_none (treeRead_of_zero hzero)]
  exact if_pos hzero

/-- DESERIALIZE and DECODE, where PARSE found a tree section (46_codec_facade.md R189). -/
theorem bodyDecompress_parsed (hp : s.params.Ok) (hparses : Parses s) (hsome : lengthField (inputBytes s) ≠ 0) :
    bodyDecompress lim s = (treeRead s).elim (.raise .malformedContainer) fun u =>
      if s.params.outCap < (walk u (dataBits (inputBytes s) (limitOperand lim s))).length then .raise .capacity
      else .ok (putOut (walk u (dataBits (inputBytes s) (limitOperand lim s))) (rebuiltOf s)) := by
  have hstages : bodyDecompress lim s = (bodyDeserialize (parsedOf s)).andThen (bodyDecode lim) := by
    rw [bodyDecompress, andThen_ok hparses.parsed]
    exact if_neg hsome
  rw [hstages]
  cases hread : treeRead s with
  | none => exact andThen_raise (bodyDeserialize_raise hread)
  | some u =>
    obtain ⟨htree, _⟩ := rebuiltOf_tree hp hparses.tbitsOk hread
    have hbuilt : bodyDeserialize (parsedOf s) = .ok (rebuiltOf s) :=
      (bodyDeserialize_ok (s := parsedOf s) hread).trans (congrArg Body.ok (rebuiltOf_some hread).symm)
    rw [andThen_ok hbuilt]
    exact bodyDecode_eq (s := rebuiltOf s) hparses.fits htree

/-- The end of DECOMPRESS that has given the bytes, or failed. -/
def decompressBody (s : State) : Except ErrKind (List Byte) → Body
  | .error e => .raise e
  | .ok out => .ok (putOut out (rebuiltOf s))

/-- DECOMPRESS computes `decompress(IN, lim)` with the capacities of its core (46_codec_facade.md R194). -/
theorem bodyDecompress_eq (hp : s.params.Ok) :
    bodyDecompress lim s = decompressBody s (decompressWithin s.params (inputBytes s) (limitOperand lim s)) := by
  have hlen := length_inputBytes s
  by_cases hover : s.params.inCap < s.inLen
  · rw [bodyDecompress_over hover, decompressWithin_over (hover.trans_eq hlen.symm), decompressBody]
  have hin := Nat.not_lt.mp hover
  have hfit := hlen.trans_le hin
  rcases bodyParse_clear_cases s with ⟨e, he⟩ | hparses
  · rw [bodyDecompress, andThen_raise he, decompressWithin_error hfit (decompress_of_parse_raise hin he), decompressBody]
  by_cases hzero : lengthField (inputBytes s) = 0
  · have hgives := decompress_of_zero (p := s.params) (limitOperand lim s) (hparses.header.trans_eq hlen.symm) hzero
    rw [bodyDecompress_zero hparses hzero, decompressWithin_ok hfit hgives (Nat.zero_le _), decompressBody]
  have hgives := decompress_parsed (limit := limitOperand lim s) hparses hzero
  rw [bodyDecompress_parsed hp hparses hzero]
  cases hread : treeRead s with
  | none =>
    rw [hread] at hgives
    rw [decompressWithin_error hfit hgives]
    rfl
  | some u =>
    rw [hread] at hgives
    by_cases hfull : s.params.outCap < (walk u (dataBits (inputBytes s) (limitOperand lim s))).length
    · rw [decompressWithin_full hfit hgives hfull]
      exact if_pos hfull
    · rw [decompressWithin_ok hfit hgives (Nat.not_lt.mp hfull)]
      exact if_neg hfull

/-- DECOMPRESS of an input longer than `IN_CAP` (60_exceptions.md R215 (a)). -/
theorem exec_decompress_over (hover : s.params.inCap < s.inLen) :
    exec (.decompress lim) s = .next (callError .capacity s) := by
  rw [exec_decompress]
  exact runCommand_raise rfl (bodyDecompress_over (s := beginCommand s) hover)

/-- DECOMPRESS that fails (46_codec_facade.md R189, 60_exceptions.md R211, R215). -/
theorem exec_decompress_error {e : ErrKind} (hp : s.params.Ok)
    (h : decompressWithin s.params (inputBytes s) (limitOperand lim s) = .error e) :
    exec (.decompress lim) s = .next (callError e s) := by
  rw [exec_decompress]
  exact runCommand_raise rfl ((bodyDecompress_eq (s := beginCommand s) hp).trans (congrArg _ h))

/-- The frame of DECOMPRESS around a body that gives bytes: `TREE_VALID` says whether there is a tree, which is whether `TBC`
is not 0 (10_state.md R40). -/
theorem exec_decompress_of_body {out : List Byte} (hflag : (lengthField (inputBytes s) == 0) = !(treeRead s).isSome)
    (hbody : bodyDecompress lim (beginCommand s) = .ok (putOut out (rebuiltOf (beginCommand s)))) :
    exec (.decompress lim) s = .next (decompressedOf s out) := by
  rw [exec_decompress, runCommand_ok rfl hbody]
  change Host.Outcome.next { putOut out (rebuiltOf (beginCommand s)) with
    status := (Status.afterDecompress (lengthField (inputBytes s) == 0) s.status.started.noneValid).succeeded } = _
  rw [hflag, Status.afterDecompress, Bool.not_not]
  rfl

/-- DECOMPRESS that gives bytes (46_codec_facade.md R189). -/
theorem exec_decompress_ok {out : List Byte} (hp : s.params.Ok)
    (h : decompressWithin s.params (inputBytes s) (limitOperand lim s) = .ok out) :
    exec (.decompress lim) s = .next (decompressedOf s out) := by
  refine exec_decompress_of_body ?_ ((bodyDecompress_eq (s := beginCommand s) hp).trans (congrArg _ h))
  obtain ⟨hfit, hgives⟩ := decompressWithin_eq_ok h
  obtain ⟨_, htree⟩ := treeRead_of_decompress ((length_inputBytes s).symm.trans_le hfit) hgives
  by_cases hzero : lengthField (inputBytes s) = 0
  · rw [treeRead_of_zero hzero, hzero]
    rfl
  · obtain ⟨u, hread⟩ := htree hzero
    rw [hread, beq_eq_false_iff_ne.mpr hzero]
    rfl

/-- DECOMPRESS of a container with a zero length field (46_codec_facade.md R190). -/
theorem exec_decompress_zero (hparses : Parses s) (hzero : lengthField (inputBytes s) = 0) :
    exec (.decompress lim) s = .next (decompressedOf s []) := by
  refine exec_decompress_of_body ?_ (bodyDecompress_zero (s := beginCommand s) ?_ hzero)
  · rw [treeRead_of_zero hzero, hzero]
    rfl
  · exact ⟨hparses.fits, hparses.header, hparses.whole, hparses.room⟩

end

/-- The flags of DECOMPRESS that made no tree: the row `TBC` = 0 (10_state.md R35, R40). -/
theorem image_decompressed_none : Status.image ⟨true, false, false, false, false, true, true, true⟩ = 0x381 := by decide

/-- The flags of DECOMPRESS that made a tree: the row `TBC` > 0 (10_state.md R35, R40). -/
theorem image_decompressed_some : Status.image ⟨true, false, false, true, false, true, true, true⟩ = 0x3A1 := by decide

/-- Settles O35: with four zero bytes in front the length field is 0, and there is no tree. -/
theorem zeroLengthTreeGivesEmptyOutput : Obligations.ZeroLengthTreeGivesEmptyOutput := by
  intro s lim h4 hin hbytes
  have hzero : lengthField (inputBytes s) = 0 := by
    rw [lengthField_inputBytes h4, hbytes 0 (by decide), hbytes 1 (by decide), hbytes 2 (by decide), hbytes 3 (by decide)]
    rfl
  have hparses : Parses s := ⟨hin, h4, by rw [hzero]; exact Nat.zero_le _, by rw [hzero]; exact Nat.zero_le _⟩
  have hread := treeRead_of_zero hzero
  have hexec := exec_decompress_zero (lim := lim) hparses hzero
  rw [decompressedOf, rebuiltOf_none hread, hread] at hexec
  refine ⟨_, hexec, rfl, rfl, rfl, hzero, ?dataOff, rfl, image_decompressed_none, rfl⟩
  case dataOff =>
    show 4 + ceil8 (lengthField (inputBytes s)) = 4
    rw [hzero]
    rfl

/-- Settles O34, by what `decompress` says, and by whether its bytes fit. There is a tree exactly where the length field is
not 0. -/
theorem decompressComputesTheBytes : Obligations.DecompressComputesTheBytes := by
  refine ⟨fun s lim hwf hin => ?_, fun s lim => exec_decompress_over⟩
  have hp := Params.ok_of_wf hwf
  have hfit := (length_inputBytes s).trans_le hin
  intro r
  refine ⟨fun e he => exec_decompress_error hp (decompressWithin_error hfit he),
    fun out hok hfull => exec_decompress_error hp (decompressWithin_full hfit hok hfull), fun out hok hroom => ?_⟩
  obtain ⟨htbits, htree⟩ := treeRead_of_decompress hin hok
  obtain ⟨houtLen, hcells, hrest⟩ := putOut_spec out (rebuiltOf s)
  refine ⟨_, exec_decompress_ok hp (decompressWithin_ok hfit hok hroom), houtLen, fun a ha => (hcells a ha).1.symm, hrest, rfl,
    rfl, rfl, rfl, freqOf_zero, fun i hi => tabulate_const_getElem? CodeEntry.absent hi, rfl, rfl, fun hsome => ?tree,
    fun hzero => ?noTree, ?image, rfl⟩
  case tree =>
    obtain ⟨u, hread⟩ := htree hsome
    obtain ⟨hoperand, hok, hvisits⟩ := rebuiltOf_tree hp htbits hread
    exact ⟨treeOk_congr hok rfl rfl rfl rfl, hread.trans hoperand.symm, hvisits⟩
  case noTree =>
    have hnone := rebuiltOf_none (treeRead_of_zero hzero)
    exact ⟨congrArg State.nodeCount hnone, congrArg State.node hnone⟩
  case image =>
    change Status.image ⟨true, false, false, (treeRead s).isSome, false, true, true, true⟩ =
      if lengthField (inputBytes s) = 0 then 0x381 else 0x3A1
    by_cases hzero : lengthField (inputBytes s) = 0
    · rw [if_pos hzero, treeRead_of_zero hzero]
      exact image_decompressed_none
    · obtain ⟨u, hread⟩ := htree hzero
      rw [if_neg hzero, hread]
      exact image_decompressed_some

/-! ## What the host sees of COMPRESS and DECOMPRESS (46_codec_facade.md R193) -/

/-- What the host sees of a call error (60_exceptions.md R219). -/
def failedResult (e : ErrKind) : Status × Option ErrKind × Nat × Nat × List (Option Byte) :=
  (⟨false, true, false, false, false, false, false, false⟩, some e, 0, 0, [])

/-- What the host sees of a command that wrote the bytes `out` (46_codec_facade.md R193). -/
def writtenResult (flags : Status) (encBits : Nat) (out : List Byte) :
    Status × Option ErrKind × Nat × Nat × List (Option Byte) :=
  (flags, none, out.length, encBits, out.map some)

theorem resultOf_callError_eq (e : ErrKind) (s : State) : resultOf (callError e s) = failedResult e := rfl

/-- The bytes read back from the cells they were written to. -/
theorem map_read_putOut (out : List Byte) (s : State) :
    (List.range out.length).map (putOut out s).outMem.read = out.map some := by
  refine List.ext_getElem (by simp) fun a _ ha => ?_
  have ha : a < out.length := by rwa [List.length_map] at ha
  rw [List.getElem_map, List.getElem_map, List.getElem_range, putOut_read_of_lt s ha, List.getElem?_eq_getElem ha]

theorem resultOf_putOut (out : List Byte) (s : State) (encBits : Nat) (flags : Status) :
    resultOf { putOut out s with encBits := encBits, errcode := none, status := flags } = writtenResult flags encBits out := by
  rw [writtenResult, ← map_read_putOut out s]
  rfl

/-- `compress(B)` on a core with its capacities: `none` where the input does not fit `IN` or the container does not fit `OUT`,
which is a Capacity error (46_codec_facade.md R194, 60_exceptions.md R215). -/
def compressWithin (p : Params) (bytes : List Byte) : Option (List Byte × Nat) :=
  if p.inCap < bytes.length then none
  else (compress p bytes).filter fun c => c.1.length ≤ p.outCap

/-- What the host sees of COMPRESS, from the parameters and the input alone. -/
def compressResult (p : Params) (bytes : List Byte) : Status × Option ErrKind × Nat × Nat × List (Option Byte) :=
  match compressWithin p bytes with
  | none => failedResult .capacity
  | some (out, e) =>
    writtenResult ⟨true, false, true, !bytes.isEmpty, !bytes.isEmpty, !bytes.isEmpty, false, true⟩ e out

/-- What the host sees of DECOMPRESS, from the parameters, the input and the limit alone. -/
def decompressResult (p : Params) (bytes : List Byte) (limit : Option Nat) :
    Status × Option ErrKind × Nat × Nat × List (Option Byte) :=
  match decompressWithin p bytes limit with
  | .error e => failedResult e
  | .ok out => writtenResult ⟨true, false, false, (deserialize p (treeBits bytes)).isSome, false, true, true, true⟩ 0 out

section
variable {p : Params} {bytes out : List Byte} {e : Nat}

theorem compressWithin_over (hover : p.inCap < bytes.length) : compressWithin p bytes = none := if_pos hover

theorem compressWithin_full (h : compress p bytes = some (out, e)) (hfull : p.outCap < out.length) :
    compressWithin p bytes = none := by
  rw [compressWithin, h, Option.filter_some_neg (by simpa using hfull), ite_self]

theorem compressWithin_eq_some_iff : compressWithin p bytes = some (out, e) ↔
    bytes.length ≤ p.inCap ∧ compress p bytes = some (out, e) ∧ out.length ≤ p.outCap := by
  rw [compressWithin, Option.ite_none_left_eq_some, Option.filter_eq_some_iff, Nat.not_lt, decide_eq_true_eq]

end

section
variable {s t : State} {lim : Bool}

/-- COMPRESS, as the host sees it, is a function of the parameters and the input. -/
theorem resultOf_compress (hp : s.params.Ok) (h : exec .compress s = .next t) :
    resultOf t = compressResult s.params (inputBytes s) := by
  have hlen := length_inputBytes s
  by_cases hover : s.params.inCap < s.inLen
  · obtain rfl := next_inj ((exec_compress_over hover).symm.trans h)
    rw [resultOf_callError_eq, compressResult, compressWithin_over (hover.trans_eq hlen.symm)]
  have hin := Nat.not_lt.mp hover
  have hfit := hlen.trans_le hin
  by_cases h0 : s.inLen = 0
  · obtain rfl := next_inj ((exec_compress_empty h0).symm.trans h)
    have hnil := inputBytes_eq_nil h0
    have hgives : compressWithin s.params (inputBytes s) = some ([0, 0, 0, 0], 0) :=
      compressWithin_eq_some_iff.mpr ⟨hfit, if_pos hnil, hp.out4⟩
    rw [compressResult, hgives, hnil]
    exact resultOf_putOut [0, 0, 0, 0] (putTbits [] (countedOf s)) 0 _
  obtain ⟨u, enc, c⟩ := exists_compresses hp h0 hin
  have hgives := c.compress_eq h0
  by_cases hfull : s.params.outCap < (containerOf u enc).length
  · obtain rfl := next_inj ((c.exec_compress_full hp hin hfull).symm.trans h)
    rw [resultOf_callError_eq, compressResult, compressWithin_full hgives hfull]
  · have hroom := Nat.not_lt.mp hfull
    obtain rfl := next_inj ((c.exec_compress_eq hp h0 hin hroom).symm.trans h)
    have hsome : (inputBytes s).isEmpty = false := by
      rw [List.isEmpty_eq_false_iff, ← List.length_pos_iff, hlen]
      exact Nat.pos_of_ne_zero h0
    rw [compressResult, compressWithin_eq_some_iff.mpr ⟨hfit, hgives, hroom⟩, hsome]
    exact resultOf_putOut (containerOf u enc) (stagesOf s u) enc.length _

/-- DECOMPRESS, as the host sees it, is a function of the parameters, the input and the limit. -/
theorem resultOf_decompress (hp : s.params.Ok) (h : exec (.decompress lim) s = .next t) :
    resultOf t = decompressResult s.params (inputBytes s) (limitOperand lim s) := by
  rw [decompressResult]
  cases hgives : decompressWithin s.params (inputBytes s) (limitOperand lim s) with
  | error e =>
    obtain rfl := next_inj ((exec_decompress_error hp hgives).symm.trans h)
    exact resultOf_callError_eq e s
  | ok out =>
    obtain rfl := next_inj ((exec_decompress_ok hp hgives).symm.trans h)
    exact resultOf_putOut out (rebuiltOf s) 0 _

end

/-- Settles O45: both commands, as the host sees them, are functions of what the statement names. -/
theorem compositeCommandsArePure : Obligations.CompositeCommandsArePure := by
  refine ⟨fun s s' t t' hwf hparams hinput h h' => ?compress, fun lim s s' t t' hwf hparams hinput hlimit h h' => ?decompress⟩
  all_goals
    have hp := Params.ok_of_wf hwf
    have hp' : s'.params.Ok := hparams ▸ hp
  case compress => rw [resultOf_compress hp h, resultOf_compress hp' h', hparams, hinput]
  case decompress =>
    have hoperand : limitOperand lim s = limitOperand lim s' := by
      cases lim with
      | false => rfl
      | true => exact congrArg some (hlimit rfl)
    rw [resultOf_decompress hp h, resultOf_decompress hp' h', hparams, hinput, hoperand]

/-! ## The round trip on the machine (46_codec_facade.md R191) -/

section
variable {s t : State} {out : List Byte} {e : Nat}

/-- What the registers and the cells hold where the host sees the bytes `out`. -/
theorem written_of_resultOf {flags : Status} (h : resultOf t = writtenResult flags e out) :
    t.outLen = out.length ∧ t.encBits = e ∧ ∀ a, a < out.length → t.outMem.read a = out[a]? := by
  simp only [resultOf, writtenResult, Prod.mk.injEq] at h
  obtain ⟨_, _, hlen, hbits, hcells⟩ := h
  refine ⟨hlen, hbits, fun a ha => ?_⟩
  have hcell := congrArg (·[a]?) hcells
  simpa [hlen, ha] using hcell

/-- COMPRESS without error wrote the container of its input and the number of its code bits. -/
theorem compress_written (hp : s.params.Ok) (h : exec .compress s = .next t) (herr : t.errcode = none) :
    ∃ out, compress s.params (inputBytes s) = some (out, t.encBits) ∧ s.inLen ≤ s.params.inCap ∧ t.outLen = out.length ∧
      ∀ a, a < out.length → t.outMem.read a = out[a]? := by
  have hresult := resultOf_compress hp h
  rw [compressResult] at hresult
  cases hgives : compressWithin s.params (inputBytes s) with
  | none =>
    rw [hgives] at hresult
    have hfailed : t.errcode = some .capacity := congrArg (·.2.1) hresult
    cases herr.symm.trans hfailed
  | some c =>
    obtain ⟨out, e⟩ := c
    rw [hgives] at hresult
    obtain ⟨hlen, rfl, hcells⟩ := written_of_resultOf hresult
    obtain ⟨hfit, hcompress, _⟩ := compressWithin_eq_some_iff.mp hgives
    exact ⟨out, hcompress, (length_inputBytes s).symm.trans_le hfit, hlen, hcells⟩

/-- Limited to the bit count `compress` names, any core gives back what was compressed (46_codec_facade.md R191). -/
theorem decompress_compress {p : Params} (hp : s.params.Ok) (hp' : p.Ok) (hin : s.inLen ≤ s.params.inCap)
    (h : compress s.params (inputBytes s) = some (out, e)) : decompress p out (some e) = .ok (inputBytes s) := by
  by_cases h0 : s.inLen = 0
  · have hnil := inputBytes_eq_nil h0
    rw [compress, if_pos hnil] at h
    cases h
    rw [hnil]
    exact decompress_of_zero _ (Nat.le_refl 4) rfl
  · obtain ⟨u, enc, c⟩ := exists_compresses hp h0 hin
    cases (c.compress_eq h0).symm.trans h
    exact decompress_container_limited hp' c.leaves_le c.codes

end

/-- Settles O46: the second core reads the container the first one wrote, and its `decompress` inverts `compress`. -/
theorem machineRoundTrip : Obligations.MachineRoundTrip := by
  intro s s1 s2 hwf hwf2 hexec herr hlen hfit hroom hcopy hlimit
  have hp := Params.ok_of_wf hwf
  have hp2 := Params.ok_of_wf hwf2
  obtain ⟨out, hcompress, hin, houtLen, hcells⟩ := compress_written hp hexec herr
  have hread : inputBytes s2 = out := inputBytes_eq_of_read (hlen.trans houtLen) fun a ha =>
    (hcopy a (ha.trans_eq houtLen.symm)).trans (hcells a ha)
  have hback : decompressWithin s2.params (inputBytes s2) (limitOperand true s2) = .ok (inputBytes s) := by
    refine decompressWithin_ok ?_ ?_ ((length_inputBytes s).trans_le hroom)
    · exact (length_inputBytes s2).trans_le (hlen.trans_le hfit)
    · rw [hread, limitOperand, if_pos rfl, hlimit]
      exact decompress_compress hp hp2 hin hcompress
  refine ⟨_, exec_decompress_ok hp2 hback, rfl, length_inputBytes s, fun a ha => ?_⟩
  have hcell := putOut_read_of_lt (rebuiltOf s2) (ha.trans_eq (length_inputBytes s).symm)
  rwa [inputBytes_getElem?, if_pos ha] at hcell

end Sys2Proof.Machine
end

section
/-! PROOFS of the statements of 60_exceptions.md and 70_reset_and_hazards.md. Which commands make a Sequence check, what
ERRCODE names after each end of a command, what an error leaves, and what a reset between commands leaves. -/

namespace Sys2Proof.Machine

/-! ## Errors -/

/-- Settles O39: the fields are those of `callError`, the tables are all-zero. -/
theorem callErrorClearsTheCallState : Obligations.CallErrorClearsTheCallState := by
  intro e s _
  refine ⟨rfl, rfl, rfl, rfl, rfl, rfl, rfl, rfl, rfl, rfl, fun i hi => ⟨?freq, ?code⟩, rfl, rfl, rfl, rfl⟩
  case freq => exact tabulate_const_getElem? 0 hi
  case code => exact tabulate_const_getElem? CodeEntry.absent hi

/-- Only a command with something in the column "req" of 10_state.md R40 can be out of sequence (60_exceptions.md R214). -/
theorem requires_of_not_ready {i : Instr} {ready flags body} (hc : commandOf i = some (ready, flags, body)) {f : Status}
    (hr : ready f = false) : i = .build ∨ i = .gencode ∨ i = .serialize ∨ i = .pack ∨ i = .emit ∨ i = .deserialize ∨
      ∃ l, i = .decode l := by
  cases i with
  | build | gencode | serialize | pack | emit | deserialize | decode lim => simp
  | nop | clear | count | unpack | parse | compress | decompress lim =>
    cases hc
    exact Bool.noConfusion hr
  | treeTokenLeaf symbol | treeTokenInternal => cases hc

/-- No body writes `ERRCODE`, which the frame cleared (40_control.md R100). -/
theorem Kept.errcode_eq_none {s u : State} (h : Kept (beginCommand s) u) : u.errcode = none := h.errcode

/-- Settles O40, by the three ends of a command: out of sequence, where only the column "req" counts; a raise, whose error
`body_errs` traces to its command; success, which clears `ERRCODE`. -/
theorem errorsComeOnlyFromTheirCommands : Obligations.ErrorsComeOnlyFromTheirCommands := by
  intro i s t hwf hi h
  obtain ⟨_, _, _, hc, hend⟩ := exec_command_next hi h
  rcases hend with ⟨hr, rfl⟩ | ⟨e, hb, rfl⟩ | ⟨u, _, hkept, rfl⟩
  · have hrequires := requires_of_not_ready hc hr
    simpa using hrequires
  · obtain ⟨hcall, hmalformed, hempty, hcapacity, hmissing⟩ :=
      body_errs hc (s := beginCommand s) (Params.ok_of_wf hwf) hb
    simp only [callError_errcode, Option.some.injEq, ne_eq]
    refine ⟨hmalformed, hempty, ?illegal, ?sequence, hcapacity, hmissing⟩
    case illegal => rintro rfl; cases hcall
    case sequence => rintro rfl; cases hcall
  · simp [hkept.errcode_eq_none]

/-- Settles O42, by the three ends of a command: out of sequence is an interface error, what a body raises is a call error
(`body_errs`), and success has no error. -/
theorem failedCommandLeavesNoPartialResult : Obligations.FailedCommandLeavesNoPartialResult := by
  intro i s t e hwf hi h herr
  obtain ⟨_, _, _, hc, hend⟩ := exec_command_next hi h
  rcases hend with ⟨_, rfl⟩ | ⟨raised, hb, rfl⟩ | ⟨u, _, hkept, rfl⟩
  · obtain rfl : ErrKind.sequence = e := Option.some.inj herr
    rfl
  · obtain rfl : raised = e := Option.some.inj herr
    obtain ⟨hcall, _⟩ := body_errs hc (s := beginCommand s) (Params.ok_of_wf hwf) hb
    rw [if_pos hcall]
  · cases hkept.errcode_eq_none.symm.trans herr

/-! ## Reset -/

/-- Settles O56: a reset is no command word, so the host's side performs it, after the transaction is taken. -/
theorem resetForgetsEverything : Obligations.ResetForgetsEverything :=
  fun _ _ hd hs => step_of_hostAccess hd hs rfl

end Sys2Proof.Machine
end
